-- ==== Sys2Proof/Word.lean ====
section
/-! DEFINITION. The word types of the block: port words (20_memory.md R62) and the two IEEE 754 encodings (00_scope.md R9). -/

namespace Sys2Proof

/-- One 32-bit port word (R62). -/
abbrev Word := BitVec 32

/-- The 32-bit encoding of an IEEE 754 binary32 value (R9). -/
abbrev F32 := BitVec 32

/-- The 64-bit encoding of an IEEE 754 binary64 value (R9). -/
abbrev F64 := BitVec 64

end Sys2Proof
end

