-- ==== Sys2Proof/Config.lean ====
section
/-! DEFINITION. The implementation parameters of 00_scope.md R6 as one record, with the reference values, and the free
values (constants without a body): the functions of `TRANSC`, the CPU draw, NaN payloads, the interleaving. -/

namespace Sys2Proof

/-- The seven parameters in SEL order (10_state.md R20, R28; 30_encoding.md R84). -/
inductive Param where
  | wetDryMix | decayTime | preDelay | crossFeed | roomSize | density | highFreqDamping
  deriving DecidableEq, Repr

/-- One value per parameter: the shape of `PT[0..6]`, `ST[0..6]`, `CUR[0..6]` and of a preset row. -/
structure PerParam (α : Type) where
  wetDryMix : α
  decayTime : α
  preDelay : α
  crossFeed : α
  roomSize : α
  density : α
  highFreqDamping : α
  deriving DecidableEq, Repr

/-- The five presets (30_encoding.md R85). -/
inductive Preset where
  | clean | vocalBooth | studio | cathedral | custom
  deriving DecidableEq, Repr

/-- The presets that bundle values: the rows of `PRESET_TABLE` (47_engine_facade.md R266; Custom has no values). -/
structure PresetTable where
  clean : PerParam F32
  vocalBooth : PerParam F32
  studio : PerParam F32
  cathedral : PerParam F32
  deriving DecidableEq, Repr

/-- The row a preset bundles; none for Custom (R262, R266). -/
def PresetTable.row? (t : PresetTable) : Preset → Option (PerParam F32)
  | .clean => some t.clean
  | .vocalBooth => some t.vocalBooth
  | .studio => some t.studio
  | .cathedral => some t.cathedral
  | .custom => none

/-- The parameters R6 asks a model to take as arguments. They stand in State, where no step changes them, so that every
statement about every state is a statement about every choice of them (log entry 1). `NUM_AP` is the length of `apLen`. The
parameters R6 marks "source" or "fixed" (`N`, `LEN_MIN`, `LEN_MAX_FACTOR`, `BLOCK_MAX`) are constants of the model. -/
structure Params where
  /-- `AP_LEN[0..NUM_AP-1]` -/
  apLen : List Nat
  /-- `AP_GAIN_SCALE` -/
  apGainScale : F32
  /-- `PRIME_BASIS[0..7]` -/
  primeBasis : Vector Nat 8
  /-- `IN_GAIN` -/
  inGain : F32
  /-- `WET_NORM_MONO` -/
  wetNormMono : F32
  /-- `WET_NORM_STEREO` -/
  wetNormStereo : F32
  /-- `SMOOTH_TIME` -/
  smoothTime : F64
  /-- `SMOOTH_EPS` -/
  smoothEps : F64
  /-- `FS_MAX` -/
  fsMax : F64
  /-- `PRESET_TABLE` -/
  presetTable : PresetTable
  /-- `POWERON_PRESET` -/
  poweronPreset : Preset
  /-- `Q_DEPTH` -/
  qDepth : Nat
  deriving DecidableEq, Repr

/-- `PRESET_TABLE` at its reference values (47_engine_facade.md R266, encodings in 95_test_vectors.md section 8.3). -/
def PresetTable.reference : PresetTable where
  clean := ⟨0x41200000, 0x3F000000, 0x00000000, 0x00000000, 0x3E4CCCCD, 0x3E99999A, 0x3E4CCCCD⟩
  vocalBooth := ⟨0x41A00000, 0x3F4CCCCD, 0x40A00000, 0x3E4CCCCD, 0x3E99999A, 0x3F19999A, 0x3F000000⟩
  studio := ⟨0x41F00000, 0x3FC00000, 0x41700000, 0x3E99999A, 0x3F000000, 0x3F333333, 0x3ECCCCCD⟩
  cathedral := ⟨0x42700000, 0x40C00000, 0x42200000, 0x3F000000, 0x3F800000, 0x3F666666, 0x3E99999A⟩

/-- The reference values of R6. R6 gives `Q_DEPTH` no reference value, only "≥ 3 each"; 16 is the model's choice
(log entry 2). -/
def Params.reference : Params where
  apLen := [89, 127, 191, 263]
  apGainScale := 0x3F333333
  primeBasis := #v[1009, 1103, 1201, 1301, 1409, 1511, 1601, 1709]
  inGain := 0x3E000000
  wetNormMono := 0x3E000000
  wetNormStereo := 0x3E800000
  smoothTime := 0x3FA999999999999A
  smoothEps := 0x3EB0C6F7A0B5ED8D
  fsMax := 0x4107700000000000
  presetTable := PresetTable.reference
  poweronPreset := .studio
  qDepth := 16

/-- The floating-point operations whose result can be a NaN (00_scope.md R10); they index the free NaN payloads. -/
inductive FpOp where
  | add32 | sub32 | mul32 | div32 | add64 | sub64 | mul64 | div64 | round32 | f64
  deriving DecidableEq, Repr

/-- FREE VALUE: the six functions of the parameter `TRANSC`, of which R13 assumes only that each is total (log entry 3). -/
opaque Config.pow64 : F64 → F64 → F64
@[inherit_doc Config.pow64] opaque Config.exp64 : F64 → F64
@[inherit_doc Config.pow64] opaque Config.ln64 : F64 → F64
@[inherit_doc Config.pow64] opaque Config.log10_64 : F64 → F64
@[inherit_doc Config.pow64] opaque Config.exp2_64 : F64 → F64
@[inherit_doc Config.pow64] opaque Config.sin64 : F64 → F64

/-- FREE VALUE: `CPU_DRAW`, any binary64; the n-th read of `CPU` returns `cpuDraw n` (10_state.md R34, 47_engine_facade.md
R274; log entry 4). -/
opaque Config.cpuDraw : Nat → F64

/-- FREE VALUE: sign and payload of the NaN an operation delivers on given operand encodings (60_exceptions.md R304,
93_implementation_defined.md section 2; log entry 5). -/
opaque Config.freeNaN : FpOp → Nat → Nat → Bool × Nat

/-- FREE VALUE: the integer that `floor` or `ceil` gives for an encoding that is no finite number, a case R8 leaves undefined
(log entry 6). -/
opaque Config.freeRound : Nat → Int

/-- FREE VALUE: which enabled agent moves next where the schedule names none (20_memory.md R68; log entry 7). -/
opaque Config.turn : Nat → Nat

end Sys2Proof
end

