-- ==== Sys2Proof/Syntax.lean ====
section
/-! DEFINITION. The command words of 30_encoding.md R87 as syntax: one constructor per row of the opcode map. -/

namespace Sys2Proof

/-- The two command ports (30_encoding.md R87): `A` is the AUDIO port, `C` the CTRL port. -/
inductive Port where
  | audio | ctrl
  deriving DecidableEq, Repr

/-- The 22 commands. `sel` and `cnt` are the command word's fields `SEL` and `CNT` (R80); the other operands are payload
words (R83). A selector out of its range is a term of this type, as it is a word of the stream: executing it raises BAD_SELECTOR
or BAD_CHANNELS (R84 to R86). NOP is one word valid on both ports (R88), so its constructor says which queue it stands in. -/
inductive Instr where
  /-- R251 -/
  | nop (port : Port)
  /-- R252: `CNT` = maxBlockSize, payload = sampleRate -/
  | init (maxBlk : BitVec 16) (fs : F64)
  /-- R254 -/
  | reset
  /-- R255 -/
  | clear
  /-- R253: `SEL` = numChannels, `CNT` = numFrames -/
  | proc (sel : BitVec 4) (cnt : BitVec 16)
  /-- 45_modulated_delay.md R205 -/
  | msetm (depth rate : F32)
  /-- 45_modulated_delay.md R206 -/
  | msetb (base : F32)
  /-- 45_modulated_delay.md R207: `CNT` = numFrames -/
  | mproc (cnt : BitVec 16)
  /-- 45_modulated_delay.md R208 -/
  | mclr
  /-- R256 -/
  | setp (sel : BitVec 4) (value : F32)
  /-- R257 -/
  | getp (sel : BitVec 4)
  /-- R258 -/
  | setpn (sel : BitVec 4) (x : F32)
  /-- R259 -/
  | getpn (sel : BitVec 4)
  /-- R260: `SEL[0]` = the bypass value -/
  | setbyp (sel : BitVec 4)
  /-- R261 -/
  | getbyp
  /-- R262: `SEL` = preset code -/
  | setpre (sel : BitVec 4)
  /-- R263 -/
  | getpre
  /-- R274 -/
  | getcpu
  /-- R264 -/
  | isinit
  /-- R265 -/
  | getstat
  /-- R267 -/
  | clrerr
  /-- R268 -/
  | issmooth (sel : BitVec 4)
  deriving DecidableEq, Repr

/-- The port whose queue the command stands in (R87, R88). -/
def Instr.port : Instr → Port
  | .nop p => p
  | .init _ _ | .reset | .clear | .proc _ _ | .msetm _ _ | .msetb _ | .mproc _ | .mclr => .audio
  | .setp _ _ | .getp _ | .setpn _ _ | .getpn _ | .setbyp _ | .getbyp | .setpre _ | .getpre | .getcpu | .isinit
  | .getstat | .clrerr | .issmooth _ => .ctrl

end Sys2Proof
end

