-- ==== Sys2Proof/Machine/State.lean ====
section
/-! DEFINITION. Every piece of state of 10_state.md as plain data, the reasons a run can end, and the power-on state. The registers
stand in one record per unit of the block: CTRL-owned (20_memory.md R66), AUDIO control, reverberation path, modulated-delay unit. -/

namespace Sys2Proof.Machine

/-- The cells of one delay buffer: the cells that do not hold +0.0, by strictly rising index (log entry 8). -/
abbrev CellMem := List (Nat × F32)

/-- A delay line (10_state.md R43, 40_delay_line.md R110). -/
structure DelayLine where
  /-- cells the buffer was sized to: 0 while no buffer exists, then `C` (R43, R60; log entry 13) -/
  size : Nat
  /-- `BUF_l` -/
  cells : CellMem
  /-- `W_l` -/
  w : Nat
  /-- `D_l` -/
  d : F32
  deriving DecidableEq, Repr

/-- The channel counts a PROC can have (30_encoding.md R86). -/
inductive Channels where
  | mono | stereo
  deriving DecidableEq, Repr

/-- The command in flight on the AUDIO port between its latch step and its last frame step, with the frames still to process (R47). -/
inductive InFlight where
  | proc (ch : Channels) (remaining : Nat)
  | mproc (remaining : Nat)
  deriving DecidableEq, Repr

/-- The registers the CTRL executor writes (20_memory.md R66), but for the shared `STICKY`. -/
structure CtrlRegs where
  /-- `PT[0..6]` (R28) -/
  pt : PerParam F32
  /-- `PRESET` (R29) -/
  preset : Preset
  /-- `BYPASS` (R30) -/
  bypass : Bool
  /-- `LASTERR_C` (R31) -/
  lasterrC : BitVec 8
  deriving DecidableEq, Repr

/-- The configuration, status and in-flight registers the AUDIO executor writes. -/
structure AudioRegs where
  /-- `INITF` (R23) -/
  initf : Bool
  /-- `FS` (R24) -/
  fs : F64
  /-- `MAXBLK` (R25) -/
  maxblk : BitVec 16
  /-- `C` (R26) -/
  cap : Nat
  /-- `K` (R27) -/
  k : F64
  /-- `LASTERR_A` (R31) -/
  lasterrA : BitVec 8
  /-- `BUSY` (R33; log entry 12) -/
  busy : Bool
  /-- the command in flight (R47) -/
  inflight : Option InFlight
  deriving DecidableEq, Repr

/-- The state of the reverberation path (R35 to R44). -/
structure Reverb where
  /-- `ST[0..6]` (R35) -/
  st : PerParam F32
  /-- `CUR[0..6]` (R36) -/
  cur : PerParam F64
  /-- `BYP_L` (R37) -/
  bypL : Bool
  /-- `AROOM` (R38) -/
  aroom : F32
  /-- `ADECAY` (R38) -/
  adecay : F32
  /-- `L[0..7]` (R39) -/
  len : Vector Nat 8
  /-- `DG` (R40) -/
  dg : F32
  /-- `M[0..7][0..7]` (R40) -/
  mat : Vector (Vector F32 8) 8
  /-- `DAMPC` (R41) -/
  dampc : F32
  /-- `APG` (R42) -/
  apg : F32
  /-- the pre-delay line `PRE` (R43) -/
  pre : DelayLine
  /-- the all-pass lines `AP[0..NUM_AP-1]` (R43) -/
  ap : List DelayLine
  /-- the network lines `FDN[0..7]` (R43) -/
  fdn : Vector DelayLine 8
  /-- the damping states `Z[0..7]` (R44) -/
  z : Vector F32 8
  deriving DecidableEq, Repr

/-- The modulated-delay unit (R45). -/
structure ModUnit where
  /-- `MBASE` -/
  base : F32
  /-- `MDEPTH` -/
  depth : F32
  /-- `MRATE` -/
  rate : F32
  /-- `MPHASE` -/
  phase : F64
  /-- the line `MODDL` (R43) -/
  line : DelayLine
  deriving DecidableEq, Repr

/-- The six word queues, oldest word first (R46). -/
structure Ports where
  /-- `CPORT` -/
  cport : List Word
  /-- `APORT` -/
  aport : List Word
  /-- `IN` -/
  inq : List Word
  /-- `OUT` -/
  outq : List Word
  /-- `CRESP` -/
  cresp : List Word
  /-- `ARESP` -/
  aresp : List Word
  deriving DecidableEq, Repr

/-- The agents whose atomic steps an execution interleaves (00_scope.md R5, 20_memory.md R68). -/
inductive Agent where
  | audio | ctrl | host
  deriving DecidableEq, Repr

/-- The atomic steps of the host (20_memory.md R66, R68) and its use of the reset pin (70_reset_and_hazards.md R330). -/
inductive HostAct where
  | pushCport (w : Word) | pushAport (w : Word) | pushIn (w : Word)
  | popCresp | popAresp | popOut
  /-- assert and release the `RST` pin -/
  | rst
  deriving DecidableEq, Repr

/-- The model's own fields: what the world outside the block does, and the counters of the free values (log entries 4, 7, 9). -/
structure Env where
  /-- the interleaving still to come: which agent takes the next steps (R68) -/
  sched : List Agent
  /-- what the host still does, in its order -/
  host : List HostAct
  /-- choices of the interleaving drawn so far: the index of the next `Config.turn` -/
  turns : Nat
  /-- the register `CPU` (R34): the index of the value its next read draws from `Config.cpuDraw` -/
  cpuDraws : Nat
  deriving DecidableEq, Repr

/-- The machine's state. -/
structure State where
  /-- the implementation parameters of 00_scope.md R6, changed by no step -/
  cfg : Params
  ctrl : CtrlRegs
  audio : AudioRegs
  /-- `STICKY` (R32), the one register both executors write -/
  sticky : BitVec 16
  reverb : Reverb
  modu : ModUnit
  ports : Ports
  env : Env
  deriving DecidableEq, Repr

/-- How a run of the model ends. The block itself has no fault and never halts (60_exceptions.md R308,
70_reset_and_hazards.md R355): no command and no frame step raises one of these (log entry 17). -/
inductive Fault where
  /-- raised by `step` when no agent has an enabled step and the run is not finished: a command stands incomplete or without room for its
  response, or a command in flight waits for its words, so an executor waits forever on the host (20_memory.md R72: "stuck, not
  finished"); or the host still has words to push behind an act that no step will enable. Safe: the hardware goes on waiting and
  changes nothing. -/
  | stuck
  /-- raised by `step` when no agent has an enabled step, both command queues are empty, no command is in flight and the host has nothing
  more to push: the run is finished (70_reset_and_hazards.md R355). Safe: the hardware waits and changes nothing. -/
  | finished
  deriving DecidableEq, Repr

/-- A command without a meaning in this model. -/
inductive Refusal where
  /-- raised by an arm of `exec` that has no meaning yet; safe; no arm of this model raises it. -/
  | notModelled (mnemonic : String)
  deriving DecidableEq, Repr

/-- The binary32 encodings of 0.0 and 1.0. -/
abbrev zero32 : F32 := 0x00000000
@[inherit_doc zero32] abbrev one32 : F32 := 0x3F800000
/-- The binary64 encodings of 0.0 and 1.0. -/
abbrev zero64 : F64 := 0x0000000000000000
@[inherit_doc zero64] abbrev one64 : F64 := 0x3FF0000000000000

/-- A delay line at power-on: no buffer, cursor 0, delay 1.0 (10_state.md section 6). -/
def DelayLine.powerOn : DelayLine := ⟨0, [], 0, one32⟩

/-- The target values that `POWERON_PRESET` gives (R28). A parameter choice of Custom, which has no values, is outside
`ParamsOk`; it is read as the Studio row (log entry 15). -/
def powerOnTargets (cfg : Params) : PerParam F32 := (cfg.presetTable.row? cfg.poweronPreset).getD cfg.presetTable.studio

/-- The power-on state (70_reset_and_hazards.md R330) under given parameters, with the model's own fields as given. -/
def State.powerOn (cfg : Params) (env : Env) : State where
  cfg := cfg
  ctrl := { pt := powerOnTargets cfg, preset := cfg.poweronPreset, bypass := false, lasterrC := 0 }
  audio := { initf := false, fs := zero64, maxblk := 0, cap := 2, k := zero64, lasterrA := 0, busy := false, inflight := none }
  sticky := 0
  reverb :=
    { st := powerOnTargets cfg
      cur := ⟨zero64, zero64, zero64, zero64, zero64, zero64, zero64⟩
      bypL := false
      aroom := zero32
      adecay := zero32
      len := Vector.replicate 8 100
      dg := zero32
      mat := Vector.replicate 8 (Vector.replicate 8 zero32)
      dampc := one32
      apg := zero32
      pre := DelayLine.powerOn
      ap := cfg.apLen.map fun _ => DelayLine.powerOn
      fdn := Vector.replicate 8 DelayLine.powerOn
      z := Vector.replicate 8 zero32 }
  modu := { base := one32, depth := zero32, rate := zero32, phase := zero64, line := DelayLine.powerOn }
  ports := { cport := [], aport := [], inq := [], outq := [], cresp := [], aresp := [] }
  env := env

/-- The machine right after reset: the power-on state (R330) with the reference parameters, nothing scheduled and a host that has
done nothing (log entries 1, 9). -/
def State.reset : State :=
  State.powerOn Params.reference { sched := [], host := [], turns := 0, cpuDraws := 0 }

end Sys2Proof.Machine
end

