-- ==== Sys2Proof/Machine/Float.lean ====
section
/-! DEFINITION. IEEE 754 binary32 and binary64 arithmetic as 00_scope.md R8 to R12 use it: exact on the integers that count a
format's smallest subnormal, then one rounding to nearest, ties to even (log entry 10). -/

namespace Sys2Proof.Machine

/-- A binary interchange format, by the widths of its fraction and exponent fields (R9). -/
structure Fmt where
  frac : Nat
  ebits : Nat
  deriving DecidableEq, Repr

/-- binary32: bit 31 sign, bits 30:23 exponent, bits 22:0 fraction (R9). -/
def fmt32 : Fmt := ⟨23, 8⟩
/-- binary64. -/
def fmt64 : Fmt := ⟨52, 11⟩

/-- 2 to the number of bits below the sign bit. -/
def Fmt.signBit (f : Fmt) : Nat := 2 ^ (f.ebits + f.frac)
/-- The encoding of +infinity. -/
def Fmt.infEnc (f : Fmt) : Nat := (2 ^ f.ebits - 1) * 2 ^ f.frac
/-- How many smallest subnormals make 1.0: 2^149 in binary32, 2^1074 in binary64. -/
def Fmt.one (f : Fmt) : Nat := 2 ^ (2 ^ (f.ebits - 1) - 2 + f.frac)

/-- A decoded value; a finite one is `± mag` smallest subnormals of its format. -/
inductive Fp where
  | nan
  | inf (neg : Bool)
  | fin (neg : Bool) (mag : Nat)
  deriving DecidableEq, Repr

/-- The magnitude that an encoding without its sign bit stands for, in smallest subnormals. -/
def Fmt.magOf (f : Fmt) (n : Nat) : Nat :=
  if n / 2 ^ f.frac = 0 then n else (2 ^ f.frac + n % 2 ^ f.frac) * 2 ^ (n / 2 ^ f.frac - 1)

/-- The value of an encoding. -/
def Fmt.unpack (f : Fmt) (n : Nat) : Fp :=
  let neg := n / f.signBit % 2 == 1
  let k := n % f.signBit
  if f.infEnc < k then .nan else if k = f.infEnc then .inf neg else .fin neg (f.magOf k)

/-- `num / den` rounded to an integer, to nearest, ties to even (R10). -/
def roundTiesEven (num den : Nat) : Nat :=
  let q := num / den
  let r := num % den
  if 2 * r < den then q else if den < 2 * r then q + 1 else q + q % 2

/-- The encoding (sign bit 0) of the magnitude `num / den` smallest subnormals, rounded once (R10); overflow gives infinity. The
step `2^j` is the spacing of the format's numbers at this magnitude; an encoding counts the format's numbers upward from 0. -/
def Fmt.roundMag (f : Fmt) (num den : Nat) : Nat :=
  let j := (num / den).log2 - f.frac
  min (j * 2 ^ f.frac + roundTiesEven num (den * 2 ^ j)) f.infEnc

/-- An encoding from a sign and the encoding of a magnitude. -/
def Fmt.signed (f : Fmt) (neg : Bool) (n : Nat) : Nat := (if neg then f.signBit else 0) + n

/-- The sum; `none` is a NaN result. An exact zero sum of opposite signs is +0 (round to nearest). -/
def Fmt.add (f : Fmt) : Fp → Fp → Option Nat
  | .nan, _ => none
  | .inf _, .nan => none
  | .inf s, .inf t => if s = t then some (f.signed s f.infEnc) else none
  | .inf s, .fin _ _ => some (f.signed s f.infEnc)
  | .fin _ _, .nan => none
  | .fin _ _, .inf t => some (f.signed t f.infEnc)
  | .fin s x, .fin t y =>
    if s = t then some (f.signed s (f.roundMag (x + y) 1))
    else if y < x then some (f.signed s (f.roundMag (x - y) 1))
    else if x < y then some (f.signed t (f.roundMag (y - x) 1))
    else some 0

/-- The product; `none` is a NaN result. -/
def Fmt.mul (f : Fmt) : Fp → Fp → Option Nat
  | .nan, _ => none
  | .inf _, .nan => none
  | .inf s, .inf t => some (f.signed (s != t) f.infEnc)
  | .inf s, .fin t y => if y = 0 then none else some (f.signed (s != t) f.infEnc)
  | .fin _ _, .nan => none
  | .fin s x, .inf t => if x = 0 then none else some (f.signed (s != t) f.infEnc)
  | .fin s x, .fin t y => some (f.signed (s != t) (f.roundMag (x * y) f.one))

/-- The quotient; `none` is a NaN result. -/
def Fmt.div (f : Fmt) : Fp → Fp → Option Nat
  | .nan, _ => none
  | .inf _, .nan => none
  | .inf _, .inf _ => none
  | .inf s, .fin t _ => some (f.signed (s != t) f.infEnc)
  | .fin _ _, .nan => none
  | .fin s _, .inf t => some (f.signed (s != t) 0)
  | .fin s x, .fin t y =>
    if y = 0 then (if x = 0 then none else some (f.signed (s != t) f.infEnc))
    else some (f.signed (s != t) (f.roundMag (x * f.one) y))

/-- The negated value. -/
def Fp.neg : Fp → Fp
  | .nan => .nan
  | .inf s => .inf (!s)
  | .fin s x => .fin (!s) x

/-- A NaN's encoding from the free value of a NaN-producing operation (60_exceptions.md R304): every NaN is one of these. -/
def Fmt.nanEnc (f : Fmt) (free : Bool × Nat) : Nat :=
  f.signed free.1 (f.infEnc + 1 + free.2 % (2 ^ f.frac - 1))

/-- An operation's result encoding, its free NaN where the result is a NaN. -/
def Fmt.finish (f : Fmt) (op : FpOp) (a b : Nat) (r : Option Nat) : Nat :=
  match r with
  | some n => n
  | none => f.nanEnc (Config.freeNaN op a b)

/-- `add32` (R10). -/
def add32 (a b : F32) : F32 :=
  BitVec.ofNat 32 (fmt32.finish .add32 a.toNat b.toNat (fmt32.add (fmt32.unpack a.toNat) (fmt32.unpack b.toNat)))
/-- `sub32` (R10): the sum with the negated second operand. -/
def sub32 (a b : F32) : F32 :=
  BitVec.ofNat 32 (fmt32.finish .sub32 a.toNat b.toNat (fmt32.add (fmt32.unpack a.toNat) (fmt32.unpack b.toNat).neg))
/-- `mul32` (R10). -/
def mul32 (a b : F32) : F32 :=
  BitVec.ofNat 32 (fmt32.finish .mul32 a.toNat b.toNat (fmt32.mul (fmt32.unpack a.toNat) (fmt32.unpack b.toNat)))
/-- `div32` (R10). -/
def div32 (a b : F32) : F32 :=
  BitVec.ofNat 32 (fmt32.finish .div32 a.toNat b.toNat (fmt32.div (fmt32.unpack a.toNat) (fmt32.unpack b.toNat)))
/-- `add64` (R10). -/
def add64 (a b : F64) : F64 :=
  BitVec.ofNat 64 (fmt64.finish .add64 a.toNat b.toNat (fmt64.add (fmt64.unpack a.toNat) (fmt64.unpack b.toNat)))
/-- `sub64` (R10). -/
def sub64 (a b : F64) : F64 :=
  BitVec.ofNat 64 (fmt64.finish .sub64 a.toNat b.toNat (fmt64.add (fmt64.unpack a.toNat) (fmt64.unpack b.toNat).neg))
/-- `mul64` (R10). -/
def mul64 (a b : F64) : F64 :=
  BitVec.ofNat 64 (fmt64.finish .mul64 a.toNat b.toNat (fmt64.mul (fmt64.unpack a.toNat) (fmt64.unpack b.toNat)))
/-- `div64` (R10). -/
def div64 (a b : F64) : F64 :=
  BitVec.ofNat 64 (fmt64.finish .div64 a.toNat b.toNat (fmt64.div (fmt64.unpack a.toNat) (fmt64.unpack b.toNat)))

/-- `neg(a)`: flips the sign bit (R10). -/
def neg32 (a : F32) : F32 := a ^^^ 0x80000000
@[inherit_doc neg32] def neg64 (a : F64) : F64 := a ^^^ 0x8000000000000000

/-- A value of one format rounded into another; `scale` says how many units of the source make one unit of the target
(`num`/`den`). -/
def Fmt.convert (f : Fmt) (num den : Nat) : Fp → Option Nat
  | .nan => none
  | .inf s => some (f.signed s f.infEnc)
  | .fin s x => some (f.signed s (f.roundMag (x * num) den))

/-- `round32(x)` (R10): one binary32 unit is 2^925 binary64 units. -/
def round32 (x : F64) : F32 :=
  BitVec.ofNat 32 (fmt32.finish .round32 x.toNat 0 (fmt32.convert 1 (2 ^ 925) (fmt64.unpack x.toNat)))
/-- `f64(a)` (R10), exact. -/
def f64 (a : F32) : F64 :=
  BitVec.ofNat 64 (fmt64.finish .f64 a.toNat 0 (fmt64.convert (2 ^ 925) 1 (fmt32.unpack a.toNat)))
/-- `float32(n)` (R10), exact for `n < 2^24`; every use is of a non-negative integer (log entry 14). -/
def float32 (n : Nat) : F32 := BitVec.ofNat 32 (fmt32.roundMag (n * fmt32.one) 1)
/-- An integer as a binary64 (exact for the basis values and for every `floor` of a finite binary64). -/
def float64 (n : Int) : F64 :=
  BitVec.ofNat 64 (fmt64.signed (decide (n < 0)) (fmt64.roundMag (n.natAbs * fmt64.one) 1))

/-- The mathematical floor of a finite value (R8); a free value otherwise (log entry 6). -/
def Fmt.floorInt (f : Fmt) (n : Nat) : Int :=
  match f.unpack n with
  | .fin false x => (x / f.one : Nat)
  | .fin true x => -((x + (f.one - 1)) / f.one : Nat)
  | .nan | .inf _ => Config.freeRound n
/-- The mathematical ceiling of a finite value (R8); a free value otherwise (log entry 6). -/
def Fmt.ceilInt (f : Fmt) (n : Nat) : Int :=
  match f.unpack n with
  | .fin false x => ((x + (f.one - 1)) / f.one : Nat)
  | .fin true x => -(x / f.one : Nat)
  | .nan | .inf _ => Config.freeRound n

/-- `floor` of a binary64 (R8). -/
def floor64 (x : F64) : Int := fmt64.floorInt x.toNat
/-- `ceil` of a binary32 (R8). -/
def ceil32 (a : F32) : Int := fmt32.ceilInt a.toNat

/-- The place of a non-NaN encoding in the IEEE order: numbers of one format are ordered as their encodings read as sign and
magnitude, and the two zeros are equal. -/
def Fmt.order (f : Fmt) (n : Nat) : Option Int :=
  let k := n % f.signBit
  if f.infEnc < k then none else some (if n / f.signBit % 2 = 1 then -(k : Int) else k)

/-- IEEE `a <= b` (R10): false when an operand is NaN. -/
def Fmt.le (f : Fmt) (a b : Nat) : Bool :=
  match f.order a, f.order b with
  | some x, some y => decide (x ≤ y)
  | some _, none | none, some _ | none, none => false
/-- IEEE `a < b` (R10). -/
def Fmt.lt (f : Fmt) (a b : Nat) : Bool :=
  match f.order a, f.order b with
  | some x, some y => decide (x < y)
  | some _, none | none, some _ | none, none => false
/-- IEEE `a == b` (R10). -/
def Fmt.eq (f : Fmt) (a b : Nat) : Bool :=
  match f.order a, f.order b with
  | some x, some y => decide (x = y)
  | some _, none | none, some _ | none, none => false

/-- IEEE comparisons of binary32 encodings (R10). -/
def le32 (a b : F32) : Bool := fmt32.le a.toNat b.toNat
@[inherit_doc le32] def eq32 (a b : F32) : Bool := fmt32.eq a.toNat b.toNat
/-- IEEE `!=`: true when an operand is NaN (R10). -/
def ne32 (a b : F32) : Bool := !eq32 a b
/-- IEEE comparisons of binary64 encodings (R10). -/
def le64 (a b : F64) : Bool := fmt64.le a.toNat b.toNat
@[inherit_doc le64] def lt64 (a b : F64) : Bool := fmt64.lt a.toNat b.toNat
@[inherit_doc le64] def eq64 (a b : F64) : Bool := fmt64.eq a.toNat b.toNat

/-- Whether an encoding is a NaN, and whether it is finite. -/
def isNaN32 (a : F32) : Bool := decide (fmt32.infEnc < a.toNat % fmt32.signBit)
@[inherit_doc isNaN32] def isNaN64 (x : F64) : Bool := decide (fmt64.infEnc < x.toNat % fmt64.signBit)
@[inherit_doc isNaN32] def isFinite32 (a : F32) : Bool := decide (a.toNat % fmt32.signBit < fmt32.infEnc)
@[inherit_doc isNaN32] def isFinite64 (x : F64) : Bool := decide (x.toNat % fmt64.signBit < fmt64.infEnc)

/-- Whether an encoding is a subnormal: exponent field 0, fraction not 0 (R12). -/
def isSubnormal32 (a : F32) : Bool :=
  decide (0 < a.toNat % fmt32.signBit ∧ a.toNat % fmt32.signBit < 2 ^ fmt32.frac)
@[inherit_doc isSubnormal32] def isSubnormal64 (x : F64) : Bool :=
  decide (0 < x.toNat % fmt64.signBit ∧ x.toNat % fmt64.signBit < 2 ^ fmt64.frac)

/-- `ftz32(v)`, `ftz64(v)`: a zero of the sign of `v` for a subnormal, else `v` (R12). -/
def ftz32 (v : F32) : F32 := if isSubnormal32 v then v &&& 0x80000000 else v
@[inherit_doc ftz32] def ftz64 (v : F64) : F64 := if isSubnormal64 v then v &&& 0x8000000000000000 else v

/-- The absolute value: clears the sign bit. -/
def abs64 (x : F64) : F64 := x &&& 0x7FFFFFFFFFFFFFFF

/-- `clamp(x, lo, hi)` on binary32 (R11): NaN gives `lo`, and `lo` wins when `lo > hi`. -/
def clamp32 (x lo hi : F32) : F32 :=
  if isNaN32 x then lo
  else
    let t := if le32 x hi then x else hi
    if le32 lo t then t else lo
/-- `clamp(x, lo, hi)` on integers (R11). -/
def clampInt (x lo hi : Int) : Int :=
  let t := if x ≤ hi then x else hi
  if lo ≤ t then t else lo

/-- `TWO_PI`, the binary64 nearest to 2π (R13). -/
def twoPi : F64 := 0x401921FB54442D18

end Sys2Proof.Machine
end

