-- ==== Sys2Proof/Machine/Ops.lean ====
section
/-! DEFINITION. The named operations over the state's memories and registers: vectors and parameter records, delay-buffer cells
(20_memory.md R60), response queues (R76), the last-error and sticky registers, and the one way a command ends with an error
(60_exceptions.md R302). -/

namespace Sys2Proof

/-- The record of a function of the parameter, in SEL order. -/
def perParam {α : Type} (f : Param → α) : PerParam α :=
  ⟨f .wetDryMix, f .decayTime, f .preDelay, f .crossFeed, f .roomSize, f .density, f .highFreqDamping⟩

/-- The entry of a parameter. -/
def PerParam.get {α : Type} (v : PerParam α) : Param → α
  | .wetDryMix => v.wetDryMix
  | .decayTime => v.decayTime
  | .preDelay => v.preDelay
  | .crossFeed => v.crossFeed
  | .roomSize => v.roomSize
  | .density => v.density
  | .highFreqDamping => v.highFreqDamping

/-- The record with one entry replaced. -/
def PerParam.set {α : Type} (v : PerParam α) (p : Param) (x : α) : PerParam α :=
  perParam fun q => if q = p then x else v.get q

end Sys2Proof

namespace Sys2Proof.Machine

/-- The eight-entry vector of a function of the index `0 .. N-1`, `N = 8` (00_scope.md R6). -/
def tab8 {α : Type} (f : Fin 8 → α) : Vector α 8 := #v[f 0, f 1, f 2, f 3, f 4, f 5, f 6, f 7]

/-- What a cell that is not listed holds: +0.0, as every cell does after INIT, RESET and CLEAR (10_state.md R43). -/
abbrev unlistedCell : F32 := 0x00000000

/-- `BufRead(l, k)` (R60). -/
def cellRead : CellMem → Nat → F32
  | [], _ => unlistedCell
  | (a, x) :: m, k => if a = k then x else cellRead m k

/-- `BufWrite(l, k, v)` (R60), keeping the canonical form: writing the unlisted value removes the entry. -/
def cellWrite : CellMem → Nat → F32 → CellMem
  | [], k, v => if v = unlistedCell then [] else [(k, v)]
  | (a, x) :: m, k, v =>
    if k < a then (if v = unlistedCell then (a, x) :: m else (k, v) :: (a, x) :: m)
    else if a = k then (if v = unlistedCell then m else (k, v) :: m)
    else (a, x) :: cellWrite m k v

/-- Indexes strictly rising from `lo`, all below `hi`, and no listed cell equal to the unlisted value. -/
def cellsFrom : Nat → Nat → CellMem → Bool
  | _, _, [] => true
  | lo, hi, (a, x) :: m => decide (lo ≤ a) && decide (a < hi) && decide (x ≠ unlistedCell) && cellsFrom (a + 1) hi m

/-- The canonical form of a buffer of `size` cells. -/
def CellMem.wf (size : Nat) (m : CellMem) : Bool := cellsFrom 0 size m

/-- The error codes 1 to 8 of 60_exceptions.md R300. -/
inductive ErrCode where
  | illegalOpcode | reservedBits | badSelector | notInit | badChannels | blockTooLarge | badInitArgs | wrongPort
  deriving DecidableEq, Repr

/-- The code column of R300. -/
def ErrCode.code : ErrCode → Nat
  | .illegalOpcode => 1
  | .reservedBits => 2
  | .badSelector => 3
  | .notInit => 4
  | .badChannels => 5
  | .blockTooLarge => 6
  | .badInitArgs => 7
  | .wrongPort => 8

/-- The response queue of a port: `ARESP` or `CRESP` (10_state.md R46). -/
def State.responses (s : State) : Port → List Word
  | .audio => s.ports.aresp
  | .ctrl => s.ports.cresp

/-- The last-error register of a port (R31). -/
def State.lasterr (s : State) : Port → BitVec 8
  | .audio => s.audio.lasterrA
  | .ctrl => s.ctrl.lasterrC

/-- Pushes response words to a port's response queue, in order (20_memory.md R76). -/
def State.pushResponses (s : State) (p : Port) (ws : List Word) : State :=
  match p with
  | .audio => { s with ports := { s.ports with aresp := s.ports.aresp ++ ws } }
  | .ctrl => { s with ports := { s.ports with cresp := s.ports.cresp ++ ws } }

/-- Writes a port's last-error register (R31). -/
def State.setLasterr (s : State) (p : Port) (code : BitVec 8) : State :=
  match p with
  | .audio => { s with audio := { s.audio with lasterrA := code } }
  | .ctrl => { s with ctrl := { s.ctrl with lasterrC := code } }

/-- `STICKY[e] <- 1` (R32, 60_exceptions.md R317). -/
def State.setSticky (s : State) (e : ErrCode) : State := { s with sticky := s.sticky ||| (1#16 <<< e.code) }

/-- `END_WITH_ERROR` (60_exceptions.md R302): the command's words are already consumed; `resp` is how many response words it defines
on this port (0 for ILLEGAL_OPCODE and WRONG_PORT). This is the block's whole error mechanism: it takes no trap (R308) and there is
nothing to return from (R309). -/
def State.endWithError (s : State) (p : Port) (e : ErrCode) (resp : Nat) : State :=
  ((s.setLasterr p (BitVec.ofNat 8 e.code)).setSticky e).pushResponses p (List.replicate resp 0)

end Sys2Proof.Machine
end

