-- ==== Sys2Proof/Machine/DelayLine.lean ====
section
/-! DEFINITION. The delay line's micro-operations DL.* (40_delay_line.md R110 to R117). `cap` is the register `C`. -/

namespace Sys2Proof.Machine

/-- `clamp(d, 1.0, float32(C - 1))`: a legal delay (R112). -/
def clampDelay (cap : Nat) (d : F32) : F32 := clamp32 d one32 (float32 (cap - 1))

/-- `DL.SETDELAY` (R112). -/
def dlSetDelay (cap : Nat) (l : DelayLine) (d : F32) : DelayLine := { l with d := clampDelay cap d }

/-- `k = ceil(D_l)` (R111). -/
def tapCeil (l : DelayLine) : Int := ceil32 l.d
/-- `frac = sub32(float32(k), D_l)` (R111). -/
def tapFrac (l : DelayLine) : F32 := sub32 (float32 (tapCeil l).toNat) l.d
/-- `i0 = (W_l - k) mod C`, the older neighbour (R111). -/
def tapOld (cap : Nat) (l : DelayLine) : Nat := (((l.w : Int) - tapCeil l) % (cap : Int)).toNat
/-- `i1 = (i0 + 1) mod C`, the newer neighbour (R111). -/
def tapNew (cap : Nat) (l : DelayLine) : Nat := (tapOld cap l + 1) % cap

/-- `DL.TAP` (R113): an integer delay reads one cell, bit for bit. -/
def dlTap (cap : Nat) (l : DelayLine) : F32 :=
  let a := cellRead l.cells (tapOld cap l)
  if eq32 (tapFrac l) zero32 then a
  else add32 (mul32 a (sub32 one32 (tapFrac l))) (mul32 (cellRead l.cells (tapNew cap l)) (tapFrac l))

/-- `BufWrite(l, W_l, ftz32(x))`. -/
def dlStore (l : DelayLine) (x : F32) : DelayLine := { l with cells := cellWrite l.cells l.w (ftz32 x) }
/-- `W_l <- (W_l + 1) mod C`. -/
def dlAdvance (cap : Nat) (l : DelayLine) : DelayLine := { l with w := (l.w + 1) % cap }

/-- `DL.PROCESS` (R114): write, tap, advance. -/
def dlProcess (cap : Nat) (l : DelayLine) (x : F32) : DelayLine × F32 :=
  let l' := dlStore l x
  (dlAdvance cap l', dlTap cap l')

/-- `DL.PEEK` (R115). -/
def dlPeek (cap : Nat) (l : DelayLine) : F32 := dlTap cap l

/-- `DL.PUSH` (R116). -/
def dlPush (cap : Nat) (l : DelayLine) (x : F32) : DelayLine := dlAdvance cap (dlStore l x)

/-- `DL.CLEAR` (R117): every cell +0.0, cursor 0, delay kept. -/
def dlClear (l : DelayLine) : DelayLine := { l with cells := [], w := 0 }

/-- A successful INIT sizes the buffer to `C` cells (47_engine_facade.md R252). -/
def dlResize (cap : Nat) (l : DelayLine) : DelayLine := { l with size := cap }

end Sys2Proof.Machine
end

