-- ==== Sys2Proof/Machine/AllPass.lean ====
section
/-! DEFINITION. The all-pass stages' micro-operations AP.* (41_allpass.md R130 to R133) and the diffusion cascade
(43_fdn_core.md R155). -/

namespace Sys2Proof.Machine

/-- `AP.PROCESS` (R131): the canonical form, one read and one write; `g` is the register `APG`. -/
def apProcess (cap : Nat) (g : F32) (l : DelayLine) (x : F32) : DelayLine × F32 :=
  let d := dlPeek cap l
  (dlPush cap l (add32 x (mul32 g d)), add32 (mul32 (neg32 g) x) d)

/-- The gain `AP.SETGAIN` stores (R132). -/
def apGain (cfg : Params) (density : F32) : F32 := mul32 cfg.apGainScale density

/-- `AP.CLEAR` (R133) of the stage of length `len`. -/
def apClear (cap len : Nat) (l : DelayLine) : DelayLine := dlSetDelay cap (dlClear l) (float32 len)

/-- The stages in index order, each stage's output the next stage's input (43_fdn_core.md R155). -/
def apCascade (cap : Nat) (g : F32) : List DelayLine → F32 → List DelayLine × F32
  | [], x => ([], x)
  | l :: ls, x =>
    let (l', y) := apProcess cap g l x
    let (ls', u) := apCascade cap g ls y
    (l' :: ls', u)

end Sys2Proof.Machine
end

