-- ==== Sys2Proof/Machine/Damping.lean ====
section
/-! DEFINITION. The damping filters' micro-operations DAMP.* (42_damping.md R140 to R142). -/

namespace Sys2Proof.Machine

/-- The coefficient `DAMP.SETDAMPING` stores in `DAMPC` (R140). -/
def dampCoeff (amount : F32) : F32 := sub32 one32 (clamp32 amount zero32 one32)

/-- `DAMP.PROCESS` (R141): the new state of a branch, which is also its output; `c` is the register `DAMPC`. -/
def dampProcess (c z x : F32) : F32 := ftz32 (add32 (mul32 c x) (mul32 (sub32 one32 c) z))

/-- `DAMP.CLEAR` (R142): the state a clear leaves. -/
def dampClear : F32 := zero32

end Sys2Proof.Machine
end

