-- ==== Sys2Proof/Machine/Matrix.lean ====
section
/-! DEFINITION. Delay lengths, decay gain and feedback matrix: MAT.* (44_feedback_matrix.md R180 to R185). -/

namespace Sys2Proof.Machine

/-- `LEN_MIN` (00_scope.md R6). -/
def lenMin : Nat := 100
/-- `LEN_MAX_FACTOR`, the binary64 nearest to 0.08 (R6). -/
def lenMaxFactor : F64 := 0x3FB47AE147AE147B
/-- The binary64 nearest to 0.001 (R183). -/
def milli64 : F64 := 0x3F50624DD2F1A9FC

/-- The upper bound `hi = floor(FS * 0.08 * room)` (R180). -/
def lengthHi (fs : F64) (room : F32) : Int := floor64 (mul64 (mul64 fs lenMaxFactor) (f64 room))
/-- The scaled basis value `floor(PRIME_BASIS[i] * room)` (R180). -/
def lengthScaled (prime : Nat) (room : F32) : Int := floor64 (mul64 (float64 prime) (f64 room))

/-- `MAT.LENGTHS` (R180). The integer clamp's low bound is 100, so the result is a natural number. -/
def matLengths (cfg : Params) (fs : F64) (room : F32) : Vector Nat 8 :=
  tab8 fun i => (clampInt (lengthScaled cfg.primeBasis[i] room) lenMin (lengthHi fs room)).toNat

/-- `MAT.DECAYGAIN` (R183). -/
def matDecayGain (fs : F64) (t : F32) : F32 :=
  round32 (Config.pow64 milli64 (div64 one64 (mul64 (mul64 (f64 t) fs) milli64)))

/-- `H[i][j]` (R182): -0.75 on the diagonal, 0.25 elsewhere. -/
def householder (i j : Fin 8) : F32 := if i = j then 0xBF400000 else 0x3E800000

/-- The scaled matrix `M[i][j] = DG * H[i][j]` (R184). -/
def matScale (dg : F32) : Vector (Vector F32 8) 8 := tab8 fun i => tab8 fun j => mul32 dg (householder i j)

/-- One row of `MAT.APPLY` (R185): accumulated from `j = 0` to `j = 7`, starting with the first product. -/
def matRow (row o : Vector F32 8) : F32 :=
  ([1, 2, 3, 4, 5, 6, 7] : List (Fin 8)).foldl (fun acc j => add32 acc (mul32 row[j] o[j])) (mul32 row[0] o[0])

/-- `MAT.APPLY` (R185). -/
def matApply (m : Vector (Vector F32 8) 8) (o : Vector F32 8) : Vector F32 8 := tab8 fun i => matRow m[i] o

end Sys2Proof.Machine
end

