-- ==== Sys2Proof/WellFormed.lean ====
section
/-! DEFINITION. Well-formed commands: every selector lies in the range its command gives it (30_encoding.md R84 to R86). -/

namespace Sys2Proof

/-- The check of step (4) of 60_exceptions.md R301: the command's selector is one the command accepts. A command that fails it is
still a decodable word; executing it ends with BAD_SELECTOR or BAD_CHANNELS. -/
def Instr.wellFormed : Instr → Bool
  | .setp sel _ | .getp sel | .setpn sel _ | .getpn sel | .issmooth sel => decide (sel.toNat ≤ 6)
  | .setpre sel => decide (sel.toNat ≤ 4)
  | .setbyp sel => decide (sel.toNat ≤ 1)
  | .proc sel _ => decide (sel.toNat = 1 ∨ sel.toNat = 2)
  | .nop _ | .init _ _ | .reset | .clear | .msetm _ _ | .msetb _ | .mproc _ | .mclr | .getbyp | .getpre | .getcpu
  | .isinit | .getstat | .clrerr => true

end Sys2Proof
end

