-- ==== Sys2Proof/Decode.lean ====
section
/-! DEFINITION. The decoder of command streams (30_encoding.md R80 to R94), total on every list of words, and the encoder
written from the same tables. -/

namespace Sys2Proof

/-- The four formats of R81. -/
inductive Format where
  | Z | S | K | SK
  deriving DecidableEq, Repr

/-- The assigned opcodes of R87. -/
inductive Opcode where
  | nop | init | reset | clear | proc | msetm | msetb | mproc | mclr | setp | getp | setpn | getpn | setbyp | getbyp
  | setpre | getpre | getcpu | isinit | getstat | clrerr | issmooth
  deriving DecidableEq, Repr

/-- `OPC = bits[31:24]` (R80). -/
def opcField (w : Word) : BitVec 8 := w.extractLsb' 24 8
/-- `SEL = bits[19:16]` (R80). -/
def selField (w : Word) : BitVec 4 := w.extractLsb' 16 4
/-- `CNT = bits[15:0]` (R80). -/
def cntField (w : Word) : BitVec 16 := w.extractLsb' 0 16

/-- A command word `{OPC, RSV = 0, SEL, CNT}` (R80). -/
def commandWord (opc : BitVec 8) (sel : BitVec 4) (cnt : BitVec 16) : Word := opc ++ (0#4 ++ (sel ++ cnt))

/-- The bits that must be 0 in a command word of the format (R81). -/
def Format.reservedMask : Format → Word
  | .Z => 0x00FFFFFF
  | .S => 0x00F0FFFF
  | .K => 0x00FF0000
  | .SK => 0x00F00000

/-- The OPC column of R87. -/
def Opcode.byte : Opcode → BitVec 8
  | .nop => 0x00 | .init => 0x01 | .reset => 0x02 | .clear => 0x03 | .proc => 0x04
  | .msetm => 0x08 | .msetb => 0x09 | .mproc => 0x0A | .mclr => 0x0B
  | .setp => 0x10 | .getp => 0x11 | .setpn => 0x12 | .getpn => 0x13 | .setbyp => 0x14 | .getbyp => 0x15
  | .setpre => 0x16 | .getpre => 0x17 | .getcpu => 0x18 | .isinit => 0x19 | .getstat => 0x1A | .clrerr => 0x1B
  | .issmooth => 0x1C

/-- The opcode an OPC value names; none for the reserved values of R89 and the custom space of R92. -/
def Opcode.ofByte (b : BitVec 8) : Option Opcode :=
  match b.toNat with
  | 0x00 => some .nop | 0x01 => some .init | 0x02 => some .reset | 0x03 => some .clear | 0x04 => some .proc
  | 0x08 => some .msetm | 0x09 => some .msetb | 0x0A => some .mproc | 0x0B => some .mclr
  | 0x10 => some .setp | 0x11 => some .getp | 0x12 => some .setpn | 0x13 => some .getpn
  | 0x14 => some .setbyp | 0x15 => some .getbyp | 0x16 => some .setpre | 0x17 => some .getpre
  | 0x18 => some .getcpu | 0x19 => some .isinit | 0x1A => some .getstat | 0x1B => some .clrerr
  | 0x1C => some .issmooth
  | _ => none

/-- The port column of R87; NOP is valid on both (R88). -/
def Opcode.validOn : Opcode → Port → Bool
  | .nop, _ => true
  | .init, p | .reset, p | .clear, p | .proc, p | .msetm, p | .msetb, p | .mproc, p | .mclr, p => p == .audio
  | .setp, p | .getp, p | .setpn, p | .getpn, p | .setbyp, p | .getbyp, p | .setpre, p | .getpre, p | .getcpu, p
  | .isinit, p | .getstat, p | .clrerr, p | .issmooth, p => p == .ctrl

/-- The format column of R87. -/
def Opcode.format : Opcode → Format
  | .nop | .reset | .clear | .msetm | .msetb | .mclr | .getbyp | .getpre | .getcpu | .isinit | .getstat | .clrerr => .Z
  | .setp | .getp | .setpn | .getpn | .setbyp | .setpre | .issmooth => .S
  | .init | .mproc => .K
  | .proc => .SK

/-- The payload column of R87: words after the command word. -/
def Opcode.payload : Opcode → Nat
  | .init | .msetm => 2
  | .msetb | .setp | .setpn => 1
  | .nop | .reset | .clear | .proc | .mproc | .mclr | .getp | .getpn | .setbyp | .getbyp | .setpre | .getpre | .getcpu
  | .isinit | .getstat | .clrerr | .issmooth => 0

/-- The resp column of R87: response words pushed. -/
def Opcode.resp : Opcode → Nat
  | .getcpu | .getstat => 2
  | .init | .getp | .getpn | .getbyp | .getpre | .isinit | .issmooth => 1
  | .nop | .reset | .clear | .proc | .msetm | .msetb | .mproc | .mclr | .setp | .setpn | .setbyp | .setpre | .clrerr => 0

/-- The opcode of a command. -/
def Instr.opcode : Instr → Opcode
  | .nop _ => .nop | .init _ _ => .init | .reset => .reset | .clear => .clear | .proc _ _ => .proc
  | .msetm _ _ => .msetm | .msetb _ => .msetb | .mproc _ => .mproc | .mclr => .mclr
  | .setp _ _ => .setp | .getp _ => .getp | .setpn _ _ => .setpn | .getpn _ => .getpn | .setbyp _ => .setbyp
  | .getbyp => .getbyp | .setpre _ => .setpre | .getpre => .getpre | .getcpu => .getcpu | .isinit => .isinit
  | .getstat => .getstat | .clrerr => .clrerr | .issmooth _ => .issmooth

/-- The command that an opcode, the fields of its command word and its payload make. `a` and `b` are the payload words in
order; a command with fewer payload words does not read them. A binary64 payload comes low word first (R83, 20_memory.md R64). -/
def Opcode.command (op : Opcode) (p : Port) (w a b : Word) : Instr :=
  match op with
  | .nop => .nop p
  | .init => .init (cntField w) (b ++ a)
  | .reset => .reset
  | .clear => .clear
  | .proc => .proc (selField w) (cntField w)
  | .msetm => .msetm a b
  | .msetb => .msetb a
  | .mproc => .mproc (cntField w)
  | .mclr => .mclr
  | .setp => .setp (selField w) a
  | .getp => .getp (selField w)
  | .setpn => .setpn (selField w) a
  | .getpn => .getpn (selField w)
  | .setbyp => .setbyp (selField w)
  | .getbyp => .getbyp
  | .setpre => .setpre (selField w)
  | .getpre => .getpre
  | .getcpu => .getcpu
  | .isinit => .isinit
  | .getstat => .getstat
  | .clrerr => .clrerr
  | .issmooth => .issmooth (selField w)

/-- Why a command that stands whole in its queue is no command of the executing port: the checks (1) to (3) of
60_exceptions.md R301, with the response words the command defines (R302). -/
inductive Reject where
  /-- R89, R92: the OPC is not assigned; one word is consumed -/
  | illegalOpcode
  /-- R88: the OPC belongs to the other port -/
  | wrongPort
  /-- R90: a bit under the reserved-zero mask is 1; `resp` is the opcode's response count -/
  | reservedBits (resp : Nat)
  deriving DecidableEq, Repr

/-- What stands at the head of a command queue. -/
inductive Decoded where
  /-- the queue does not hold the whole command yet (20_memory.md R72) -/
  | incomplete
  /-- a command of the executing port, and the words after it -/
  | command (i : Instr) (rest : List Word)
  /-- a refused command, and the words after its full length -/
  | rejected (r : Reject) (rest : List Word)
  deriving DecidableEq, Repr

/-- The command's length in words, from the OPC field alone (R82; 1 for an unassigned OPC, R89). -/
def commandLength (w : Word) : Nat :=
  match Opcode.ofByte (opcField w) with
  | none => 1
  | some op => 1 + op.payload

/-- The decoder of port `p` on the words of its queue (R82, R93), with the checks (1) to (3) of R301 in their order. -/
def decode (p : Port) (q : List Word) : Decoded :=
  match q with
  | [] => .incomplete
  | w :: after =>
    match Opcode.ofByte (opcField w) with
    | none => .rejected .illegalOpcode after
    | some op =>
      if after.length < op.payload then .incomplete
      else
        let rest := after.drop op.payload
        if op.validOn p = false then .rejected .wrongPort rest
        else if w &&& op.format.reservedMask ≠ 0 then .rejected (.reservedBits op.resp) rest
        else .command (op.command p w (after.getD 0 0) (after.getD 1 0)) rest

/-- The command word of a command (R80). -/
def Instr.head (i : Instr) : Word :=
  match i with
  | .init n _ | .mproc n => commandWord i.opcode.byte 0 n
  | .proc sel n => commandWord i.opcode.byte sel n
  | .setp sel _ | .getp sel | .setpn sel _ | .getpn sel | .setbyp sel | .setpre sel | .issmooth sel =>
    commandWord i.opcode.byte sel 0
  | .nop _ | .reset | .clear | .msetm _ _ | .msetb _ | .mclr | .getbyp | .getpre | .getcpu | .isinit | .getstat | .clrerr =>
    commandWord i.opcode.byte 0 0

/-- The low and high word of a binary64 (20_memory.md R64). -/
def lowWord (x : F64) : Word := x.extractLsb' 0 32
@[inherit_doc lowWord] def highWord (x : F64) : Word := x.extractLsb' 32 32

/-- The payload words of a command in stream order (R83). -/
def Instr.payloadWords : Instr → List Word
  | .init _ fs => [lowWord fs, highWord fs]
  | .msetm depth rate => [depth, rate]
  | .msetb base => [base]
  | .setp _ v => [v]
  | .setpn _ x => [x]
  | .nop _ | .reset | .clear | .proc _ _ | .mproc _ | .mclr | .getp _ | .getpn _ | .setbyp _ | .getbyp | .setpre _
  | .getpre | .getcpu | .isinit | .getstat | .clrerr | .issmooth _ => []

/-- The words of a command (R82). -/
def encode (i : Instr) : List Word := i.head :: i.payloadWords

/-- The port on which an opcode-table word is decoded: the AUDIO port where its opcode is valid there, else the CTRL port
(log entry 18). -/
def tableWordPort (w : Word) : Port :=
  match Opcode.ofByte (opcField w) with
  | none => .audio
  | some op => if op.validOn .audio then .audio else .ctrl

/-- The words of an opcode-table word of `nbits` bits, bit 0 the least significant bit of the first word; bits above `nbits` are
0, up to the longest command (three words). -/
def tableWords (nbits w : Nat) : List Word :=
  let v := w % 2 ^ nbits
  [BitVec.ofNat 32 v, BitVec.ofNat 32 (v / 2 ^ 32), BitVec.ofNat 32 (v / 2 ^ 64)]

/-- The command the decoder reads from an opcode-table word. -/
def decodeTableWord (nbits w : Nat) : Option Instr :=
  match decode (tableWordPort (BitVec.ofNat 32 (w % 2 ^ nbits))) (tableWords nbits w) with
  | .command i _ => some i
  | .incomplete | .rejected _ _ => none

end Sys2Proof
end

