-- ==== Sys2Proof/Machine/Operands.lean ====
section
/-! DEFINITION. The operand forms of the commands: selectors (30_encoding.md R84 to R86), the parameter table
(46_parameter_smoother.md R232), frames of sample words (20_memory.md R65). -/

namespace Sys2Proof.Machine

/-- The parameter a selector names; codes 7 to 15 name none (R84). -/
def paramOfSel (sel : BitVec 4) : Option Param :=
  match sel.toNat with
  | 0 => some .wetDryMix
  | 1 => some .decayTime
  | 2 => some .preDelay
  | 3 => some .crossFeed
  | 4 => some .roomSize
  | 5 => some .density
  | 6 => some .highFreqDamping
  | _ => none

/-- The preset a selector names; codes 5 to 15 name none (R85). -/
def presetOfSel (sel : BitVec 4) : Option Preset :=
  match sel.toNat with
  | 0 => some .clean
  | 1 => some .vocalBooth
  | 2 => some .studio
  | 3 => some .cathedral
  | 4 => some .custom
  | _ => none

/-- The 3-bit preset code (R85, 10_state.md R29). -/
def presetCode : Preset → BitVec 3
  | .clean => 0
  | .vocalBooth => 1
  | .studio => 2
  | .cathedral => 3
  | .custom => 4

/-- The channel count of PROC: 1 or 2 (R86). -/
def channelsOfSel (sel : BitVec 4) : Option Channels :=
  match sel.toNat with
  | 1 => some .mono
  | 2 => some .stereo
  | _ => none

/-- The number of words of a frame. -/
def Channels.count : Channels → Nat
  | .mono => 1
  | .stereo => 2

/-- The bypass value of SETBYP, `SEL[0]` (R86). -/
def bypassOfSel (sel : BitVec 4) : Bool := sel.getLsbD 0

/-- `LO[p]` (R232). -/
def paramLo : Param → F32
  | .decayTime => 0x3DCCCCCD
  | .wetDryMix | .preDelay | .crossFeed | .roomSize | .density | .highFreqDamping => 0x00000000

/-- `HI[p]` (R232). -/
def paramHi : Param → F32
  | .wetDryMix => 0x42C80000
  | .decayTime => 0x41200000
  | .preDelay => 0x43480000
  | .crossFeed | .roomSize | .density | .highFreqDamping => 0x3F800000

/-- One frame of samples, channel 0 (left) first (R65). -/
inductive Frame where
  | mono (x : F32)
  | stereo (l r : F32)
  deriving DecidableEq, Repr

/-- The words of a frame in channel order (R65). -/
def Frame.words : Frame → List Word
  | .mono x => [x]
  | .stereo l r => [l, r]

/-- The next frame of an input stream and the words after it; none when too few words are present (R65, R72). -/
def takeFrame (ch : Channels) (q : List Word) : Option (Frame × List Word) :=
  match ch, q with
  | .mono, x :: rest => some (.mono x, rest)
  | .stereo, l :: r :: rest => some (.stereo l r, rest)
  | .mono, [] | .stereo, [] | .stereo, [_] => none

end Sys2Proof.Machine
end

