-- ==== Sys2Proof/Machine/Smoother.lean ====
section
/-! DEFINITION. The parameter smoother SM.* and the value transforms (46_parameter_smoother.md R220 to R232). -/

namespace Sys2Proof.Machine

/-- `SM.COEFF` (R221). -/
def smCoeff (cfg : Params) (fs : F64) : F64 :=
  if le64 cfg.smoothTime zero64 then one64
  else sub64 one64 (Config.exp64 (neg64 (div64 one64 (mul64 cfg.smoothTime fs))))

/-- The new current of `SM.NEXT` (R222): immediate when `K` is exactly 1.0, else one exponential step. -/
def smStep (k : F64) (st : F32) (cur : F64) : F64 :=
  ftz64 (if eq64 k one64 then f64 st else add64 cur (mul64 k (sub64 (f64 st) cur)))
/-- The value `SM.NEXT` yields from the new current (R222). -/
def smValue (cur : F64) : F32 := ftz32 (round32 cur)

/-- `SM.ISSMOOTHING` (R223). -/
def smIsSmoothing (cfg : Params) (cur : F64) (t : F32) : Bool := lt64 cfg.smoothEps (abs64 (sub64 cur (f64 t)))

/-- The value `SM.SETTARGET` stores (R224). -/
def smTarget (p : Param) (v : F32) : F32 := clamp32 v (paramLo p) (paramHi p)

/-- The current `SM.SNAP` sets (R225). -/
def smSnap (st : F32) : F64 := f64 st

/-- `SM.LIN.TOVALUE` (R226). -/
def smLinToValue (p : Param) (x : F32) : F32 :=
  clamp32 (add32 (paramLo p) (mul32 (clamp32 x zero32 one32) (sub32 (paramHi p) (paramLo p)))) (paramLo p) (paramHi p)
/-- `SM.LIN.TONORM` (R226). -/
def smLinToNorm (p : Param) (v : F32) : F32 :=
  clamp32 (div32 (sub32 v (paramLo p)) (sub32 (paramHi p) (paramLo p))) zero32 one32

/-- The ratio `HI[p] / LO[p]` of the exponential mapping (R227). -/
def expRatio (p : Param) : F64 := div64 (f64 (paramHi p)) (f64 (paramLo p))
/-- `SM.EXP.TOVALUE` (R227). -/
def smExpToValue (p : Param) (x : F32) : F32 :=
  clamp32 (round32 (mul64 (f64 (paramLo p)) (Config.pow64 (expRatio p) (f64 (clamp32 x zero32 one32))))) (paramLo p) (paramHi p)
/-- `SM.EXP.TONORM` (R227). -/
def smExpToNorm (p : Param) (v : F32) : F32 :=
  clamp32 (round32 (div64 (Config.ln64 (div64 (f64 v) (f64 (paramLo p)))) (Config.ln64 (expRatio p)))) zero32 one32

/-- The value of a normalized value under the parameter's mapping (R232): exponential for decayTime, linear for the others. -/
def normToValue (p : Param) (x : F32) : F32 :=
  match p with
  | .decayTime => smExpToValue p x
  | .wetDryMix | .preDelay | .crossFeed | .roomSize | .density | .highFreqDamping => smLinToValue p x
/-- The normalized value of a value under the parameter's mapping (R232). -/
def valueToNorm (p : Param) (v : F32) : F32 :=
  match p with
  | .decayTime => smExpToNorm p v
  | .wetDryMix | .preDelay | .crossFeed | .roomSize | .density | .highFreqDamping => smLinToNorm p v

/-- The percentage's ratio accessor (R228): wetDryMix as the mix `m`. -/
def percentRatio (v : F32) : F32 := div32 v 0x42C80000

/-- `SM.DB.TOLINEAR` (R229); reached by no command, as are the transforms below (log entry 21). -/
def dbToLinear (db : F32) : F32 := round32 (Config.pow64 0x4024000000000000 (div64 (f64 db) 0x4034000000000000))
/-- `SM.DB.FROMLINEAR` (R229). -/
def dbFromLinear (g : F32) : F32 := round32 (mul64 0x4034000000000000 (Config.log10_64 (f64 g)))
/-- `SM.FREQ.FROMNOTE` (R230). -/
def freqFromNote (note : F32) : F32 :=
  round32 (mul64 0x407B800000000000 (Config.exp2_64 (div64 (sub64 (f64 note) 0x4051400000000000) 0x4028000000000000)))
/-- `SM.FREQ.TONOTE` (R230). -/
def freqToNote (hz : F32) : F32 :=
  round32 (add64 0x4051400000000000
    (mul64 0x4028000000000000 (div64 (Config.ln64 (div64 (f64 hz) 0x407B800000000000)) (Config.ln64 0x4000000000000000))))
/-- `SM.TIME.FROMNOTE` (R231). -/
def timeFromNote (noteValue bpm : F32) : F32 := round32 (div64 (mul64 (f64 noteValue) 0x406E000000000000) (f64 bpm))
/-- `SM.TIME.TONOTE` (R231). -/
def timeToNote (seconds bpm : F32) : F32 := round32 (div64 (mul64 (f64 seconds) (f64 bpm)) 0x406E000000000000)
/-- `SM.TIME.MS` (R231). -/
def timeMs (seconds : F32) : F32 := round32 (mul64 (f64 seconds) 0x408F400000000000)

end Sys2Proof.Machine
end

