-- ==== Sys2Proof/Machine/Fdn.lean ====
section
/-! DEFINITION. The reverberation path: parameter application, the network step and one processed frame, FDN.* (43_fdn_core.md
R150 to R167). -/

namespace Sys2Proof.Machine

/-- `FDN.PREDELAY` (R167): the binary64 constants are 1000.0 and 0.2. -/
def fdnPredelay (fs : F64) (pre : F32) : F32 :=
  let a := div64 (mul64 (f64 pre) fs) 0x408F400000000000
  let b := mul64 fs 0x3FC999999999999A
  round32 (if le64 a b then a else b)

/-- The delay-length part of `FDN.APPLY` (R152; 44_feedback_matrix.md R180, R181). -/
def applyRoom (cfg : Params) (fs : F64) (cap : Nat) (room : F32) (r : Reverb) : Reverb :=
  let len := matLengths cfg fs room
  { r with aroom := room, len := len, fdn := tab8 fun i => dlSetDelay cap r.fdn[i] (float32 len[i]) }

/-- The matrix part of `FDN.APPLY` (R152; 44_feedback_matrix.md R183, R184). -/
def applyDecay (fs : F64) (t : F32) (r : Reverb) : Reverb :=
  let dg := matDecayGain fs t
  { r with adecay := t, dg := dg, mat := matScale dg }

/-- The lengths are recomputed when forced or when roomSize differs from `AROOM` (R152). -/
def applyRoomIf (cfg : Params) (fs : F64) (cap : Nat) (room : F32) (force : Bool) (r : Reverb) : Reverb :=
  if force || ne32 room r.aroom then applyRoom cfg fs cap room r else r

/-- The matrix is recomputed when forced or when decayTime differs from `ADECAY` (R152). -/
def applyDecayIf (fs : F64) (t : F32) (force : Bool) (r : Reverb) : Reverb :=
  if force || ne32 t r.adecay then applyDecay fs t r else r

/-- The part of `FDN.APPLY` that every call does (R152): damping coefficient, all-pass gain, pre-delay length. -/
def applyAlways (cfg : Params) (fs : F64) (cap : Nat) (v : PerParam F32) (r : Reverb) : Reverb :=
  { r with
    dampc := dampCoeff v.highFreqDamping
    apg := apGain cfg v.density
    pre := dlSetDelay cap r.pre (fdnPredelay fs v.preDelay) }

/-- `FDN.APPLY` (R152). -/
def fdnApply (cfg : Params) (fs : F64) (cap : Nat) (v : PerParam F32) (force : Bool) (r : Reverb) : Reverb :=
  applyAlways cfg fs cap v (applyDecayIf fs v.decayTime force (applyRoomIf cfg fs cap v.roomSize force r))

/-- `FDN.MONOIN` (R153). -/
def fdnMonoIn (x0 x1 : F32) : F32 := mul32 (add32 x0 x1) 0x3F000000

/-- The wet outputs of a network step. -/
structure Wet where
  mono : F32
  left : F32
  right : F32
  deriving DecidableEq, Repr

/-- The wet outputs of the damped outputs `d[0..7]` (R160, R161): odd lines to the left, even lines to the right. -/
def wetOf (cfg : Params) (d : Vector F32 8) : Wet where
  mono := mul32 cfg.wetNormMono
    (add32 (add32 (add32 (add32 (add32 (add32 (add32 d[0] d[1]) d[2]) d[3]) d[4]) d[5]) d[6]) d[7])
  left := mul32 cfg.wetNormStereo (add32 (add32 (add32 d[1] d[3]) d[5]) d[7])
  right := mul32 cfg.wetNormStereo (add32 (add32 (add32 d[0] d[2]) d[4]) d[6])

/-- `FDN.STEP` (R154 to R161): pre-delay, diffusion, line reads, matrix, damping, write-back, wet sums. -/
def fdnStep (cfg : Params) (cap : Nat) (r : Reverb) (x : F32) : Reverb × Wet :=
  let (pre, p) := dlProcess cap r.pre x
  let (ap, u) := apCascade cap r.apg r.ap p
  let o : Vector F32 8 := tab8 fun i => dlPeek cap r.fdn[i]
  let mo := matApply r.mat o
  let d : Vector F32 8 := tab8 fun i => dampProcess r.dampc r.z[i] mo[i]
  let fdn := tab8 fun i => dlPush cap r.fdn[i] (add32 (mul32 cfg.inGain u) d[i])
  ({ r with pre := pre, ap := ap, fdn := fdn, z := d }, wetOf cfg d)

/-- The parameter pull (R151): every smoother advances one step; the values are `v[p]`. -/
def pullCurrents (k : F64) (r : Reverb) : Reverb :=
  { r with cur := perParam fun p => smStep k (r.st.get p) (r.cur.get p) }
@[inherit_doc pullCurrents] def pulledValues (r : Reverb) : PerParam F32 := perParam fun p => smValue (r.cur.get p)

/-- The mix of one channel (R162): `x * (1 - m) + w * m`. -/
def fdnMix (m x w : F32) : F32 := add32 (mul32 x (sub32 one32 m)) (mul32 w m)

/-- The network input of a frame (R153). -/
def Frame.input : Frame → F32
  | .mono x => x
  | .stereo l r => fdnMonoIn l r

/-- The output frame of a wet/dry mix (R162). -/
def Frame.mix (m : F32) (w : Wet) : Frame → Frame
  | .mono x => .mono (fdnMix m x w.mono)
  | .stereo l r => .stereo (fdnMix m l w.left) (fdnMix m r w.right)

/-- `FDN.FRAME` (R150) on the reverberation path: the new path state and the output frame. -/
def fdnFrame (cfg : Params) (fs : F64) (cap : Nat) (k : F64) (r : Reverb) (x : Frame) : Reverb × Frame :=
  let r1 := pullCurrents k r
  let v := pulledValues r1
  let (r2, w) := fdnStep cfg cap (fdnApply cfg fs cap v false r1) x.input
  (r2, x.mix (percentRatio v.wetDryMix) w)

/-- The path's part of `ENGINE.CLEARALL` (47_engine_facade.md R255): clear every line and filter, copy the targets `pt`, snap the
smoothers, apply the parameters with `force`. -/
def reverbClear (cfg : Params) (fs : F64) (cap : Nat) (pt : PerParam F32) (r : Reverb) : Reverb :=
  fdnApply cfg fs cap pt true
    { r with
      pre := dlClear r.pre
      ap := List.zipWith (apClear cap) cfg.apLen r.ap
      fdn := tab8 fun i => dlClear r.fdn[i]
      z := tab8 fun _ => dampClear
      st := pt
      cur := perParam fun p => smSnap (pt.get p) }

/-- The sizing of the path's buffers by INIT (47_engine_facade.md R252). -/
def reverbResize (cap : Nat) (r : Reverb) : Reverb :=
  { r with
    pre := dlResize cap r.pre
    ap := r.ap.map (dlResize cap)
    fdn := tab8 fun i => dlResize cap r.fdn[i] }

end Sys2Proof.Machine
end

