-- ==== Sys2Proof/Machine/Flags.lean ====
section
/-! DEFINITION. Errors and status: the state-dependent part of the check order (60_exceptions.md R301), the status word
(30_encoding.md R95), and the common execution of a decoded command (47_engine_facade.md R250). The block has no arithmetic flags
(10_state.md R22). -/

namespace Sys2Proof.Machine

/-- `INIT_ARGS_BAD` (47_engine_facade.md R252): the sample rate is not finite, not positive or above `FS_MAX`, or the block size is 0. -/
def initArgsBad (cfg : Params) (maxBlk : BitVec 16) (fs : F64) : Bool :=
  !(isFinite64 fs && lt64 zero64 fs && le64 fs cfg.fsMax) || maxBlk == 0

/-- The NOT_INIT check (R300). -/
def notInit (s : State) : Option ErrCode := if s.audio.initf then none else some .notInit
/-- The BLOCK_TOO_LARGE check (R300). -/
def tooLarge (s : State) (cnt : BitVec 16) : Option ErrCode := if s.audio.maxblk < cnt then some .blockTooLarge else none
/-- A selector check (R300). -/
def selectorError (ok : Bool) (e : ErrCode) : Option ErrCode := if ok then none else some e

/-- The checks (4) to (6) of R301, in their order; (1) to (3) are the decoder's. -/
def checkError (i : Instr) (s : State) : Option ErrCode :=
  match i with
  | .setp _ _ | .getp _ | .setpn _ _ | .getpn _ | .setpre _ | .setbyp _ => selectorError i.wellFormed .badSelector
  | .issmooth _ => selectorError i.wellFormed .badSelector <|> notInit s
  | .proc _ cnt => selectorError i.wellFormed .badChannels <|> notInit s <|> tooLarge s cnt
  | .mproc cnt => notInit s <|> tooLarge s cnt
  | .reset | .clear | .msetm _ _ | .msetb _ | .mclr => notInit s
  | .init maxBlk fs => if initArgsBad s.cfg maxBlk fs then some .badInitArgs else none
  | .nop _ | .getbyp | .getpre | .getcpu | .isinit | .getstat | .clrerr => none

/-- The execution of a decoded command whose words are consumed (R250): the first failing check ends it with its error (R302),
otherwise the command's own effect happens. -/
def runCommand (i : Instr) (s : State) (effect : State → State) : Host.Outcome State Fault Refusal :=
  match checkError i s with
  | some e => .next (s.endWithError i.port e i.opcode.resp)
  | none => .next (effect s)

/-- Word 0 of GETSTAT (R95). -/
def statusWord (s : State) : Word :=
  0#8 ++ (s.ctrl.lasterrC ++ (s.audio.lasterrA ++ (0#1 ++ (presetCode s.ctrl.preset ++
    (0#1 ++ (BitVec.ofBool s.audio.busy ++ (BitVec.ofBool s.ctrl.bypass ++ BitVec.ofBool s.audio.initf)))))))

/-- A Boolean response word: 1 for true, 0 for false (R95). -/
def boolWord (b : Bool) : Word := if b then 1 else 0

end Sys2Proof.Machine
end

