-- ==== Sys2Proof/Machine/Modulated.lean ====
section
/-! DEFINITION. The modulated-delay unit's micro-operations MOD.* (45_modulated_delay.md R200 to R204). -/

namespace Sys2Proof.Machine

/-- A non-finite operand is replaced by +0.0 (R201). -/
def finiteOrZero (x : F32) : F32 := if isFinite32 x then x else zero32

/-- `MOD.SETMOD` (R201). -/
def modSetMod (u : ModUnit) (depth rate : F32) : ModUnit := { u with depth := finiteOrZero depth, rate := finiteOrZero rate }

/-- `MOD.SETBASE` (R202). -/
def modSetBase (cap : Nat) (u : ModUnit) (d : F32) : ModUnit := { u with base := clampDelay cap d }

/-- The instantaneous delay, before its clamp (R203). -/
def modDelay (u : ModUnit) : F32 :=
  round32 (add64 (f64 u.base) (mul64 (f64 u.depth) (Config.sin64 u.phase)))

/-- A phase wrapped into `[0, TWO_PI)`, +0.0 where that fails (R203). -/
def wrapPhase (p : F64) : F64 :=
  let q := sub64 p (mul64 twoPi (float64 (floor64 (div64 p twoPi))))
  if le64 zero64 q && lt64 q twoPi then q else zero64

/-- The advanced phase (R203). -/
def modAdvance (fs : F64) (u : ModUnit) : F64 := wrapPhase (add64 u.phase (div64 (mul64 twoPi (f64 u.rate)) fs))

/-- `MOD.PROCESS` (R203). -/
def modProcess (fs : F64) (cap : Nat) (u : ModUnit) (x : F32) : ModUnit × F32 :=
  let (line, y) := dlProcess cap (dlSetDelay cap u.line (modDelay u)) x
  ({ u with line := line, phase := modAdvance fs u }, y)

/-- `MOD.CLEAR` (R204). -/
def modClear (cap : Nat) (u : ModUnit) : ModUnit :=
  { u with line := dlSetDelay cap (dlClear u.line) u.base, phase := zero64 }

/-- What INIT does to the unit before it clears it (47_engine_facade.md R252): the defaults, and the buffer's size. -/
def modInit (cap : Nat) (u : ModUnit) : ModUnit :=
  { u with base := one32, depth := zero32, rate := zero32, line := dlResize cap u.line }

end Sys2Proof.Machine
end

