-- ==== Sys2Proof/Machine/Engine.lean ====
section
/-! DEFINITION. The engine's shared operations: ENGINE.CLEARALL (47_engine_facade.md R255), the body of INIT (R252), the latch steps
of PROC and MPROC (R253, 45_modulated_delay.md R207) and their frame steps. -/

namespace Sys2Proof.Machine

/-- `ENGINE.CLEARALL` (R255). -/
def clearAll (s : State) : State :=
  { s with
    reverb := reverbClear s.cfg s.audio.fs s.audio.cap s.ctrl.pt s.reverb
    modu := modClear s.audio.cap s.modu }

/-- The capacity `C = max(2, floor(FS))` (00_scope.md R7). -/
def capacityOf (fs : F64) : Nat := max 2 (floor64 fs).toNat

/-- The configuration part of INIT (R252): `FS`, `MAXBLK`, `C`, `K`, the buffers' sizes and the modulated unit's defaults. -/
def configure (maxBlk : BitVec 16) (fs : F64) (s : State) : State :=
  { s with
    audio := { s.audio with fs := fs, maxblk := maxBlk, cap := capacityOf fs, k := smCoeff s.cfg fs }
    reverb := reverbResize (capacityOf fs) s.reverb
    modu := modInit (capacityOf fs) s.modu }

/-- The state part of a successful INIT (R252). -/
def initialise (maxBlk : BitVec 16) (fs : F64) (s : State) : State :=
  let s1 := clearAll (configure maxBlk fs s)
  { s1 with audio := { s1.audio with initf := true } }

/-- `BUSY <- 1` with a command in flight (R253, R207). -/
def launch (f : InFlight) (s : State) : State :=
  { s with audio := { s.audio with busy := true, inflight := some f } }

/-- The latch of PROC (R253): `ST <- PT`, `BYP_L <- BYPASS`. -/
def latchTargets (s : State) : State :=
  { s with reverb := { s.reverb with st := s.ctrl.pt, bypL := s.ctrl.bypass } }

/-- The command in flight after one frame step, from the frames that remain; none and `BUSY <- 0` after the last (R253). -/
def retire (f : Nat → InFlight) (remaining : Nat) (s : State) : State :=
  { s with
    audio := { s.audio with
      busy := decide (remaining ≠ 0)
      inflight := if remaining = 0 then none else some (f remaining) } }

/-- One processed or bypassed frame on the path (R253): FDN.FRAME when `BYP_L = 0`, else FDN.BYPASSFRAME (43_fdn_core.md R163). -/
def pathFrame (s : State) (x : Frame) : Reverb × Frame :=
  if s.reverb.bypL then (s.reverb, x)
  else fdnFrame s.cfg s.audio.fs s.audio.cap s.audio.k s.reverb x

/-- A frame step of PROC (R253); none while it is not enabled (20_memory.md R72). -/
def procFrameStep (ch : Channels) (remaining : Nat) (s : State) : Option State :=
  match takeFrame ch s.ports.inq with
  | none => none
  | some (x, rest) =>
    if s.ports.outq.length + ch.count ≤ s.cfg.qDepth then
      let (r, y) := pathFrame s x
      some (retire (.proc ch) (remaining - 1)
        { s with reverb := r, ports := { s.ports with inq := rest, outq := s.ports.outq ++ y.words } })
    else none

/-- A frame step of MPROC (45_modulated_delay.md R207); none while it is not enabled. -/
def mprocFrameStep (remaining : Nat) (s : State) : Option State :=
  match s.ports.inq with
  | [] => none
  | x :: rest =>
    if s.ports.outq.length + 1 ≤ s.cfg.qDepth then
      let (u, y) := modProcess s.audio.fs s.audio.cap s.modu x
      some (retire .mproc (remaining - 1)
        { s with modu := u, ports := { s.ports with inq := rest, outq := s.ports.outq ++ [y] } })
    else none

/-- The next frame step of the command in flight, "while remaining > 0" (R253, R207); none without one or while it is not enabled. -/
def frameStep (s : State) : Option State :=
  match s.audio.inflight with
  | none => none
  | some (.proc ch remaining) => if remaining = 0 then none else procFrameStep ch remaining s
  | some (.mproc remaining) => if remaining = 0 then none else mprocFrameStep remaining s

end Sys2Proof.Machine
end

