-- ==== Sys2Proof/Machine/AudioCommands.lean ====
section
/-! DEFINITION. The meanings of NOP and of the AUDIO-port commands INIT, RESET, CLEAR, PROC (47_engine_facade.md R251 to R255). Each
runs on a state from which the command's words are already consumed (R250). -/

namespace Sys2Proof.Machine

/-- `NOP` (R251). -/
def execNop (p : Port) (s : State) : Host.Outcome State Fault Refusal :=
  runCommand (.nop p) s fun s => s.setLasterr p 0

/-- `INIT` (R252). -/
def execInit (maxBlk : BitVec 16) (fs : F64) (s : State) : Host.Outcome State Fault Refusal :=
  runCommand (.init maxBlk fs) s fun s => ((initialise maxBlk fs s).setLasterr .audio 0).pushResponses .audio [1]

/-- `RESET` (R254). -/
def execReset (s : State) : Host.Outcome State Fault Refusal :=
  runCommand .reset s fun s => (clearAll s).setLasterr .audio 0

/-- `CLEAR` (R255). -/
def execClear (s : State) : Host.Outcome State Fault Refusal :=
  runCommand .clear s fun s => (clearAll s).setLasterr .audio 0

/-- `PROC` (R253): the latch step; the frame steps are `procFrameStep`. -/
def execProc (sel : BitVec 4) (cnt : BitVec 16) (s : State) : Host.Outcome State Fault Refusal :=
  runCommand (.proc sel cnt) s fun s =>
    let s1 := s.setLasterr .audio 0
    match channelsOfSel sel with
    | none => s1
    | some ch => if cnt = 0 then s1 else launch (.proc ch cnt.toNat) (latchTargets s1)

end Sys2Proof.Machine
end

