-- ==== Sys2Proof/Machine/CtrlCommands.lean ====
section
/-! DEFINITION. The meanings of the CTRL-port commands (47_engine_facade.md R256 to R268, R274). The selector checks have passed where an
effect runs, so the `none` arms of the selector matches are never reached. -/

namespace Sys2Proof.Machine

/-- Writes one target and sets `PRESET` to Custom (R256, R258). -/
def editTarget (p : Param) (v : F32) (s : State) : State :=
  { s with ctrl := { s.ctrl with pt := s.ctrl.pt.set p (smTarget p v), preset := .custom } }

/-- A CTRL command that succeeds with response words: pushes them and writes 0 to `LASTERR_C` (R250). -/
def answer (ws : List Word) (s : State) : State := (s.pushResponses .ctrl ws).setLasterr .ctrl 0

/-- `SETP` (R256). -/
def execSetp (sel : BitVec 4) (value : F32) (s : State) : Host.Outcome State Fault Refusal :=
  runCommand (.setp sel value) s fun s =>
    match paramOfSel sel with
    | none => s
    | some p => (editTarget p value s).setLasterr .ctrl 0

/-- `GETP` (R257). -/
def execGetp (sel : BitVec 4) (s : State) : Host.Outcome State Fault Refusal :=
  runCommand (.getp sel) s fun s =>
    match paramOfSel sel with
    | none => s
    | some p => answer [s.ctrl.pt.get p] s

/-- `SETPN` (R258). -/
def execSetpn (sel : BitVec 4) (x : F32) (s : State) : Host.Outcome State Fault Refusal :=
  runCommand (.setpn sel x) s fun s =>
    match paramOfSel sel with
    | none => s
    | some p => (editTarget p (normToValue p x) s).setLasterr .ctrl 0

/-- `GETPN` (R259). -/
def execGetpn (sel : BitVec 4) (s : State) : Host.Outcome State Fault Refusal :=
  runCommand (.getpn sel) s fun s =>
    match paramOfSel sel with
    | none => s
    | some p => answer [valueToNorm p (s.ctrl.pt.get p)] s

/-- `SETBYP` (R260). -/
def execSetbyp (sel : BitVec 4) (s : State) : Host.Outcome State Fault Refusal :=
  runCommand (.setbyp sel) s fun s =>
    { s with ctrl := { s.ctrl with bypass := bypassOfSel sel } }.setLasterr .ctrl 0

/-- `GETBYP` (R261): the request, not the latched value. -/
def execGetbyp (s : State) : Host.Outcome State Fault Refusal :=
  runCommand .getbyp s fun s => answer [boolWord s.ctrl.bypass] s

/-- The targets SETPRE leaves (R262): the preset's row, each entry through SM.SETTARGET; unchanged for Custom. -/
def presetTargets (cfg : Params) (c : Preset) (pt : PerParam F32) : PerParam F32 :=
  match cfg.presetTable.row? c with
  | none => pt
  | some row => perParam fun p => smTarget p (row.get p)

/-- `SETPRE` (R262). -/
def execSetpre (sel : BitVec 4) (s : State) : Host.Outcome State Fault Refusal :=
  runCommand (.setpre sel) s fun s =>
    match presetOfSel sel with
    | none => s
    | some c => { s with ctrl := { s.ctrl with pt := presetTargets s.cfg c s.ctrl.pt, preset := c } }.setLasterr .ctrl 0

/-- `GETPRE` (R263). -/
def execGetpre (s : State) : Host.Outcome State Fault Refusal :=
  runCommand .getpre s fun s => answer [(presetCode s.ctrl.preset).setWidth 32] s

/-- `GETCPU` (R274): the next draw of `CPU`, low word first (log entry 4). -/
def execGetcpu (s : State) : Host.Outcome State Fault Refusal :=
  runCommand .getcpu s fun s =>
    let u := Config.cpuDraw s.env.cpuDraws
    answer [lowWord u, highWord u] { s with env := { s.env with cpuDraws := s.env.cpuDraws + 1 } }

/-- `ISINIT` (R264). -/
def execIsinit (s : State) : Host.Outcome State Fault Refusal :=
  runCommand .isinit s fun s => answer [boolWord s.audio.initf] s

/-- `GETSTAT` (R265): keeps `LASTERR_C`. -/
def execGetstat (s : State) : Host.Outcome State Fault Refusal :=
  runCommand .getstat s fun s => s.pushResponses .ctrl [statusWord s, s.sticky.setWidth 32]

/-- `CLRERR` (R267). -/
def execClrerr (s : State) : Host.Outcome State Fault Refusal :=
  runCommand .clrerr s fun s => { s with sticky := 0 }.setLasterr .ctrl 0

/-- `ISSMOOTH` (R268): compares `CUR[p]` with the host-visible `PT[p]`. -/
def execIssmooth (sel : BitVec 4) (s : State) : Host.Outcome State Fault Refusal :=
  runCommand (.issmooth sel) s fun s =>
    match paramOfSel sel with
    | none => s
    | some p => answer [boolWord (smIsSmoothing s.cfg (s.reverb.cur.get p) (s.ctrl.pt.get p))] s

end Sys2Proof.Machine
end

