-- ==== Sys2Proof/Machine/ModCommands.lean ====
section
/-! DEFINITION. The meanings of the modulated-delay commands MSETM, MSETB, MPROC, MCLR (45_modulated_delay.md R205 to R208). -/

namespace Sys2Proof.Machine

/-- `MSETM` (R205). -/
def execMsetm (depth rate : F32) (s : State) : Host.Outcome State Fault Refusal :=
  runCommand (.msetm depth rate) s fun s => { s with modu := modSetMod s.modu depth rate }.setLasterr .audio 0

/-- `MSETB` (R206). -/
def execMsetb (base : F32) (s : State) : Host.Outcome State Fault Refusal :=
  runCommand (.msetb base) s fun s => { s with modu := modSetBase s.audio.cap s.modu base }.setLasterr .audio 0

/-- `MPROC` (R207): the latch step; the frame steps are `mprocFrameStep`. -/
def execMproc (cnt : BitVec 16) (s : State) : Host.Outcome State Fault Refusal :=
  runCommand (.mproc cnt) s fun s =>
    let s1 := s.setLasterr .audio 0
    if cnt = 0 then s1 else launch (.mproc cnt.toNat) s1

/-- `MCLR` (R208). -/
def execMclr (s : State) : Host.Outcome State Fault Refusal :=
  runCommand .mclr s fun s => { s with modu := modClear s.audio.cap s.modu }.setLasterr .audio 0

end Sys2Proof.Machine
end

