-- ==== Sys2Proof/Machine/Dispatch.lean ====
section
/-! DEFINITION. The meaning of every command of 30_encoding.md R87, one arm per constructor. -/

namespace Sys2Proof.Machine

def exec (i : Instr) (s : State) : Host.Outcome State Fault Refusal :=
  match i with
  | .nop port => Sys2Proof.Machine.execNop port s
  | .init maxBlk fs => Sys2Proof.Machine.execInit maxBlk fs s
  | .reset => Sys2Proof.Machine.execReset s
  | .clear => Sys2Proof.Machine.execClear s
  | .proc sel cnt => Sys2Proof.Machine.execProc sel cnt s
  | .msetm depth rate => Sys2Proof.Machine.execMsetm depth rate s
  | .msetb base => Sys2Proof.Machine.execMsetb base s
  | .mproc cnt => Sys2Proof.Machine.execMproc cnt s
  | .mclr => Sys2Proof.Machine.execMclr s
  | .setp sel value => Sys2Proof.Machine.execSetp sel value s
  | .getp sel => Sys2Proof.Machine.execGetp sel s
  | .setpn sel x => Sys2Proof.Machine.execSetpn sel x s
  | .getpn sel => Sys2Proof.Machine.execGetpn sel s
  | .setbyp sel => Sys2Proof.Machine.execSetbyp sel s
  | .getbyp => Sys2Proof.Machine.execGetbyp s
  | .setpre sel => Sys2Proof.Machine.execSetpre sel s
  | .getpre => Sys2Proof.Machine.execGetpre s
  | .getcpu => Sys2Proof.Machine.execGetcpu s
  | .isinit => Sys2Proof.Machine.execIsinit s
  | .getstat => Sys2Proof.Machine.execGetstat s
  | .clrerr => Sys2Proof.Machine.execClrerr s
  | .issmooth sel => Sys2Proof.Machine.execIssmooth sel s

end Sys2Proof.Machine
end

