-- ==== Sys2Proof/Machine/Fetch.lean ====
section
/-! DEFINITION. Taking a command from its queue (47_engine_facade.md R250): when the command step is enabled, what it consumes, and
the end of a command that the decoder rejects. -/

namespace Sys2Proof.Machine

/-- The command queue of a port (10_state.md R46). -/
def State.commands (s : State) : Port → List Word
  | .audio => s.ports.aport
  | .ctrl => s.ports.cport

/-- The state with a port's command queue replaced. -/
def State.setCommands (s : State) (p : Port) (q : List Word) : State :=
  match p with
  | .audio => { s with ports := { s.ports with aport := q } }
  | .ctrl => { s with ports := { s.ports with cport := q } }

/-- How many response words a rejected command pushes (60_exceptions.md R302; log entry 11). -/
def Reject.resp : Reject → Nat
  | .illegalOpcode | .wrongPort => 0
  | .reservedBits n => n

/-- The error code of a rejection (R301). -/
def Reject.err : Reject → ErrCode
  | .illegalOpcode => .illegalOpcode
  | .wrongPort => .wrongPort
  | .reservedBits _ => .reservedBits

/-- Whether a port's response queue has room for `n` response words (20_memory.md R72); a command without responses needs none. -/
def State.hasRoom (s : State) (p : Port) (n : Nat) : Bool := decide (n = 0 ∨ (s.responses p).length + n ≤ s.cfg.qDepth)

/-- A command taken whole from its queue: what it is, and the state without its words. -/
inductive Fetched where
  | command (i : Instr) (s : State)
  | rejected (r : Reject) (s : State)
  deriving DecidableEq, Repr

/-- Takes the command at the head of a port's queue; none while the command step is not enabled: the queue does not hold the whole
command, or the response queue has no room for its response words (R250, R72). -/
def fetch (p : Port) (s : State) : Option Fetched :=
  match decode p (s.commands p) with
  | .incomplete => none
  | .command i rest => if s.hasRoom p i.opcode.resp then some (.command i (s.setCommands p rest)) else none
  | .rejected r rest => if s.hasRoom p (Reject.resp r) then some (.rejected r (s.setCommands p rest)) else none

/-- The end of a rejected command (R302). -/
def endRejected (p : Port) (r : Reject) (s : State) : State := s.endWithError p (Reject.err r) (Reject.resp r)

end Sys2Proof.Machine
end

