-- ==== Sys2Proof/Machine/Executor.lean ====
section
/-! DEFINITION. The atomic steps of the three agents (00_scope.md R5, 20_memory.md R68), each `none` while it is not enabled (R72), and
the choice of the agent that moves. -/

namespace Sys2Proof.Machine

/-- A command step of port `p` (47_engine_facade.md R250). -/
def commandStep (p : Port) (s : State) : Option (Host.Outcome State Fault Refusal) :=
  match fetch p s with
  | none => none
  | some (.command i s') => some (exec i s')
  | some (.rejected r s') => some (.next (endRejected p r s'))

/-- A step of the AUDIO executor: the next frame step of the command in flight, or the next command when none is in flight (R253,
10_state.md R47). -/
def audioStep (s : State) : Option (Host.Outcome State Fault Refusal) :=
  match s.audio.inflight with
  | none => commandStep .audio s
  | some _ => (frameStep s).map .next

/-- A step of the CTRL executor: one whole command (R68). -/
def ctrlStep (s : State) : Option (Host.Outcome State Fault Refusal) := commandStep .ctrl s

/-- A queue with a word pushed; none when it is full (R72). -/
def pushWord (depth : Nat) (q : List Word) (w : Word) : Option (List Word) :=
  if q.length < depth then some (q ++ [w]) else none

/-- A queue with its oldest word popped; none when it is empty (R72). -/
def popWord : List Word → Option (List Word)
  | [] => none
  | _ :: q => some q

/-- One act of the host (R66) or of the reset pin (70_reset_and_hazards.md R330). -/
def hostAct (a : HostAct) (s : State) : Option State :=
  match a with
  | .pushCport w => (pushWord s.cfg.qDepth s.ports.cport w).map fun q => { s with ports := { s.ports with cport := q } }
  | .pushAport w => (pushWord s.cfg.qDepth s.ports.aport w).map fun q => { s with ports := { s.ports with aport := q } }
  | .pushIn w => (pushWord s.cfg.qDepth s.ports.inq w).map fun q => { s with ports := { s.ports with inq := q } }
  | .popCresp => (popWord s.ports.cresp).map fun q => { s with ports := { s.ports with cresp := q } }
  | .popAresp => (popWord s.ports.aresp).map fun q => { s with ports := { s.ports with aresp := q } }
  | .popOut => (popWord s.ports.outq).map fun q => { s with ports := { s.ports with outq := q } }
  | .rst => some (State.powerOn s.cfg s.env)

/-- A step of the host: its next act; an act that is not enabled stays the next one (log entry 16). -/
def hostStep (s : State) : Option (Host.Outcome State Fault Refusal) :=
  match s.env.host with
  | [] => none
  | a :: rest => (hostAct a { s with env := { s.env with host := rest } }).map .next

/-- The agent's next atomic step; none while it is not enabled. -/
def agentStep (a : Agent) (s : State) : Option (Host.Outcome State Fault Refusal) :=
  match a with
  | .audio => audioStep s
  | .ctrl => ctrlStep s
  | .host => hostStep s

/-- The agents whose next step is enabled. -/
def enabledAgents (s : State) : List Agent := [.audio, .ctrl, .host].filter fun a => (agentStep a s).isSome

/-- Whether an act pushes a word. -/
def HostAct.isPush : HostAct → Bool
  | .pushCport _ | .pushAport _ | .pushIn _ => true
  | .popCresp | .popAresp | .popOut | .rst => false

/-- What R355 (70_reset_and_hazards.md) asks of a state without an enabled step for the run to be finished: both command queues are
empty, no command is in flight, and the host has nothing more to push. -/
def State.finished (s : State) : Bool :=
  s.ports.cport.isEmpty && s.ports.aport.isEmpty && s.audio.inflight.isNone && !s.env.host.any HostAct.isPush

/-- A step of a scheduled agent; a step that is not enabled holds and changes nothing (R72; log entry 16). -/
def scheduledStep (a : Agent) (s : State) : Host.Outcome State Fault Refusal :=
  match agentStep a s with
  | some o => o
  | none => .next s

/-- A step where the schedule names no agent: the one enabled agent moves; of several, the free value `Config.turn` picks one
(R68: "The interleaving is free"; log entry 7); with none enabled the run is finished or stuck. -/
def unscheduledStep (s : State) : Host.Outcome State Fault Refusal :=
  match enabledAgents s with
  | [] => .fault (if s.finished then .finished else .stuck)
  | [a] => scheduledStep a s
  | a :: b :: rest =>
    scheduledStep ((a :: b :: rest).getD (Config.turn s.env.turns % (rest.length + 2)) a)
      { s with env := { s.env with turns := s.env.turns + 1 } }

/-- One atomic step of the interleaving (R68). -/
def interleavedStep (s : State) : Host.Outcome State Fault Refusal :=
  match s.env.sched with
  | a :: rest => scheduledStep a { s with env := { s.env with sched := rest } }
  | [] => unscheduledStep s

/-- The agent that executes a port's commands. -/
def Port.agent : Port → Agent
  | .audio => .audio
  | .ctrl => .ctrl

/-- The state with a port's response queue emptied. -/
def State.drainResponses (s : State) (p : Port) : State :=
  match p with
  | .audio => { s with ports := { s.ports with aresp := [] } }
  | .ctrl => { s with ports := { s.ports with cresp := [] } }

/-- The state in which `ws` stands at the head of port `p`'s command queue, that port's executor moves next and is free to take a
command (log entry 9): no frames are in flight on the AUDIO port, and the response queue is emptied if it has no room. -/
def State.placeCommand (s : State) (p : Port) (ws : List Word) : State :=
  let s1 := s.setCommands p (ws ++ s.commands p)
  let s2 := { s1 with env := { s1.env with sched := Port.agent p :: s1.env.sched } }
  let s3 := match p with
    | .audio => { s2 with audio := { s2.audio with busy := false, inflight := none } }
    | .ctrl => s2
  if (fetch p s3).isSome then s3 else s3.drainResponses p

end Sys2Proof.Machine
end

