-- ==== Sys2Proof/Machine/Step.lean ====
section
/-! DEFINITION. The step function: one atomic step of the interleaving of the AUDIO executor, the CTRL executor and the host. -/

namespace Sys2Proof.Machine

/-- One atomic step (20_memory.md R68). -/
def step (s : State) : Host.Outcome State Fault Refusal := interleavedStep s

/-- The state with an opcode-table word (its payload words 0) as the next command taken. -/
def State.withFetchWord (s : State) (nbits w : Nat) : State :=
  let ws := tableWords nbits w
  s.placeCommand (tableWordPort (ws.getD 0 0)) (ws.take (commandLength (ws.getD 0 0)))

end Sys2Proof.Machine
end

