-- ==== Sys2Proof/Machine/Assembler.lean ====
section
/-! DEFINITION. The assembler of 30_encoding.md R96, R97: from one text line to the acts of the host that it stands for. Decimal
literals are rounded once, to nearest, ties to even, into the payload's format. No step of the machine reads it (log entry 19). -/

namespace Sys2Proof.Machine

/-- Source text. -/
abbrev Text := List Char

/-- Whether a character separates words. -/
def isBlank (c : Char) : Bool := c == ' ' || c == '\t'

/-- Text without blanks at either end. -/
def trimBlanks (t : Text) : Text := ((t.dropWhile isBlank).reverse.dropWhile isBlank).reverse

/-- The fields that a separator cuts a text into: the separator opens a new field, any other character joins the field after it. -/
def fieldsAt (sep : Char) (t : Text) : List Text :=
  t.foldr (fun c fields => if c = sep then [] :: fields else fields.modifyHead (c :: ·)) [[]]

/-- The operands of a command: none for blank text, else the trimmed fields between commas. -/
def operandTexts (t : Text) : List Text :=
  if (trimBlanks t).isEmpty then [] else (fieldsAt ',' t).map trimBlanks

/-- The digits of base 16 in the order of their values; a base below 16 uses the first ones. -/
def digits : Text := "0123456789abcdef".toList

/-- The value of a digit in a base up to 16: its place among the digits; letters count in either case. -/
def digitValue (base : Nat) (c : Char) : Option Nat := (digits.take base).findIdx? (· == c.toLower)

/-- An unsigned number: at least one digit, the most significant first. -/
def readNat (base : Nat) (t : Text) : Option Nat :=
  if t.isEmpty then none else t.foldlM (fun acc c => (digitValue base c).map (acc * base + ·)) 0

/-- A sign, and the text after it. -/
def readSign : Text → Bool × Text
  | '-' :: t => (true, t)
  | '+' :: t => (false, t)
  | t => (false, t)

/-- An exponent with an optional sign. -/
def readExponent (t : Text) : Option Int :=
  let (neg, ds) := readSign t
  (readNat 10 ds).map fun n => if neg then -(n : Int) else n

/-- A decimal literal: `± digits * 10^exp`. -/
structure Decimal where
  neg : Bool
  digits : Nat
  exp : Int
  deriving DecidableEq, Repr

/-- Reads `[sign] digits [. digits] [e [sign] digits]`. -/
def readDecimal (t : Text) : Option Decimal :=
  let (neg, body) := readSign t
  let mantissa := body.takeWhile fun c => c != 'e' && c != 'E'
  let after := body.drop mantissa.length
  let exponent := if after.isEmpty then some 0 else readExponent (after.drop 1)
  match fieldsAt '.' mantissa, exponent with
  | [whole], some e => (readNat 10 whole).map fun n => ⟨neg, n, e⟩
  | [whole, fraction], some e => (readNat 10 (whole ++ fraction)).map fun n => ⟨neg, n, e - fraction.length⟩
  | _, _ => none

/-- A decimal literal rounded into a format. -/
def Decimal.encode (f : Fmt) (d : Decimal) : Nat :=
  f.signed d.neg (f.roundMag (d.digits * 10 ^ d.exp.toNat * f.one) (10 ^ (-d.exp).toNat))

/-- A floating-point literal: `0x` and exactly `hexDigits` digits of the encoding, or a decimal. -/
def readFloat (f : Fmt) (hexDigits : Nat) : Text → Option Nat
  | '0' :: 'x' :: t => if t.length = hexDigits then readNat 16 t else none
  | t => (readDecimal t).map (Decimal.encode f)

/-- A binary32 literal. -/
def readF32 (t : Text) : Option F32 := (readFloat fmt32 8 t).map (BitVec.ofNat 32)
/-- A binary64 literal. -/
def readF64 (t : Text) : Option F64 := (readFloat fmt64 16 t).map (BitVec.ofNat 64)

/-- An unsigned 16-bit count. -/
def readU16 (t : Text) : Option (BitVec 16) :=
  ((readNat 10 t).filter fun n => decide (n < 2 ^ 16)).map (BitVec.ofNat 16)

/-- A parameter name (R84) as its selector. -/
def readParam (t : Text) : Option (BitVec 4) :=
  match String.ofList t with
  | "wetDryMix" => some 0
  | "decayTime" => some 1
  | "preDelay" => some 2
  | "crossFeed" => some 3
  | "roomSize" => some 4
  | "density" => some 5
  | "highFreqDamping" => some 6
  | _ => none

/-- A preset name (R85) as its selector. -/
def readPreset (t : Text) : Option (BitVec 4) :=
  match String.ofList t with
  | "Clean" => some 0
  | "VocalBooth" => some 1
  | "Studio" => some 2
  | "Cathedral" => some 3
  | "Custom" => some 4
  | _ => none

/-- A digit of a given small set, as a selector. -/
def readSel (allowed : List Nat) (t : Text) : Option (BitVec 4) :=
  ((readNat 10 t).filter fun n => allowed.contains n).map (BitVec.ofNat 4)

/-- A command from its mnemonic and its operands (R96); a `nop` goes to port `p`. -/
def readCommand (p : Port) (mnemonic : Text) (ops : List Text) : Option Instr :=
  match String.ofList mnemonic, ops with
  | "nop", [] => some (.nop p)
  | "init", [fs, n] => (readF64 fs).bind fun x => (readU16 n).map fun k => .init k x
  | "reset", [] => some .reset
  | "clear", [] => some .clear
  | "proc", [ch, n] => (readSel [1, 2] ch).bind fun c => (readU16 n).map fun k => .proc c k
  | "msetm", [d, r] => (readF32 d).bind fun x => (readF32 r).map fun y => .msetm x y
  | "msetb", [b] => (readF32 b).map .msetb
  | "mproc", [n] => (readU16 n).map .mproc
  | "mclr", [] => some .mclr
  | "setp", [p, v] => (readParam p).bind fun s => (readF32 v).map fun x => .setp s x
  | "getp", [p] => (readParam p).map .getp
  | "setpn", [p, v] => (readParam p).bind fun s => (readF32 v).map fun x => .setpn s x
  | "getpn", [p] => (readParam p).map .getpn
  | "setbyp", [b] => (readSel [0, 1] b).map .setbyp
  | "getbyp", [] => some .getbyp
  | "setpre", [n] => (readPreset n).map .setpre
  | "getpre", [] => some .getpre
  | "getcpu", [] => some .getcpu
  | "isinit", [] => some .isinit
  | "getstat", [] => some .getstat
  | "clrerr", [] => some .clrerr
  | "issmooth", [p] => (readParam p).map .issmooth
  | _, _ => none

/-- The host's pushes of words to a command queue. -/
def pushesTo (p : Port) (ws : List Word) : List HostAct :=
  match p with
  | .audio => ws.map .pushAport
  | .ctrl => ws.map .pushCport

/-- A command sent to its own port. -/
def send (i : Instr) : List HostAct := pushesTo i.port (encode i)

/-- A pseudo-instruction (R97). -/
def readPseudo (name : Text) (ops : List Text) : Option (List HostAct) :=
  match String.ofList name, ops with
  | "bypass", [b] =>
    match String.ofList b with
    | "on" => some (send (.setbyp 1))
    | "off" => some (send (.setbyp 0))
    | _ => none
  | "proc.mono", [n] => (readU16 n).map fun k => send (.proc 1 k)
  | "proc.stereo", [n] => (readU16 n).map fun k => send (.proc 2 k)
  | "preset", [n] => (readPreset n).map fun s => send (.setpre s)
  | "mdelay", [d] => (readF32 d).map fun x => send (.msetm zero32 zero32) ++ send (.msetb x)
  | "sync.c", [] => some (send .getstat ++ [.popCresp, .popCresp])
  | _, _ => none

/-- The first word of a line, and the rest. -/
def splitWord (t : Text) : Text × Text :=
  let w := t.takeWhile fun c => !isBlank c
  (w, t.drop w.length)

/-- A command line that names a queue. -/
def assembleOn (p : Port) (t : Text) : Option (List HostAct) :=
  let (m, rest) := splitWord (trimBlanks t)
  (readCommand p m (operandTexts rest)).map fun i => pushesTo p (encode i)

/-- One line of source (R96): a command with or without its queue's prefix, words of the `IN` stream, or a pseudo-instruction. A command
without a prefix goes to its own port, an unprefixed `nop` to the AUDIO port. -/
def assembleLine (line : Text) : Option (List HostAct) :=
  match trimBlanks line with
  | 'A' :: ':' :: rest => assembleOn .audio rest
  | 'C' :: ':' :: rest => assembleOn .ctrl rest
  | 'I' :: 'N' :: ':' :: rest => ((operandTexts rest).mapM readF32).map fun ws => ws.map .pushIn
  | t =>
    let (m, rest) := splitWord t
    match readPseudo m (operandTexts rest) with
    | some acts => some acts
    | none => (readCommand .audio m (operandTexts rest)).map send

/-- The acts of a source program, line by line. -/
def assemble (lines : List Text) : Option (List HostAct) := (lines.mapM assembleLine).map List.flatten

/-- The state whose host goes on with the acts of a program. -/
def State.withProgram (s : State) (acts : List HostAct) : State :=
  { s with env := { s.env with host := s.env.host ++ acts } }

end Sys2Proof.Machine
end

