-- ==== Sys2Proof/Safety.lean ====
section
/-! DEFINITION. What claims call a well-kept state: the invariants that 10_state.md, 40_delay_line.md R110, 44_feedback_matrix.md
R186, 45_modulated_delay.md R200, 46_parameter_smoother.md R233 and 60_exceptions.md R317 state, and safe runs. -/

namespace Sys2Proof.Machine

/-- `LO[p] <= v <= HI[p]` (46_parameter_smoother.md R232). -/
def inRange (p : Param) (v : F32) : Bool := le32 (paramLo p) v && le32 v (paramHi p)

/-- The parameter choices R6 and R266 allow: queues deep enough for the longest command, all-pass lengths and the largest capacity
exact in binary32 (R10), a power-on preset that has values, and preset entries inside their ranges. -/
structure ParamsOk (cfg : Params) : Prop where
  depth : 3 ≤ cfg.qDepth
  apLen : ∀ n ∈ cfg.apLen, n < 2 ^ 24
  fsMaxFinite : isFinite64 cfg.fsMax = true
  fsMaxCap : floor64 cfg.fsMax ≤ 2 ^ 24
  poweron : cfg.poweronPreset ≠ .custom
  rows : ∀ c row, cfg.presetTable.row? c = some row → ∀ p, inRange p (row.get p) = true

/-- Every host target and every smoother target lies in its range (R233). -/
def TargetsInRange (s : State) : Prop :=
  ∀ p, inRange p (s.ctrl.pt.get p) = true ∧ inRange p (s.reverb.st.get p) = true

/-- The value a frame uses of a parameter: the advanced current, rounded and flushed (46_parameter_smoother.md R222). -/
def frameValue (r : Reverb) (p : Param) : F32 := ftz32 (round32 (r.cur.get p))

/-- Every current lies in its parameter's range and so does the value it yields, decayTime's at least `round32(0.1)` (R233): once the
block is initialised, where the coefficient lies in `[0, 1]`. Log entry 20 says why both conditions stand. -/
def SmoothersInRange (s : State) : Prop :=
  s.audio.initf = true → le64 zero64 s.audio.k = true → le64 s.audio.k one64 = true → ∀ p,
    le64 (f64 (paramLo p)) (s.reverb.cur.get p) = true ∧ le64 (s.reverb.cur.get p) (f64 (paramHi p)) = true ∧
      inRange p (frameValue s.reverb p) = true

/-- A delay line with a buffer of `size` cells under capacity `cap` (10_state.md R43, 40_delay_line.md R110): canonical cells, none of
them subnormal (00_scope.md R12), cursor in `[0, C)`, delay in `[1, C-1]`. -/
structure LineOk (cap size : Nat) (l : DelayLine) : Prop where
  sized : l.size = size
  cells : CellMem.wf size l.cells = true
  flushed : ∀ c ∈ l.cells, isSubnormal32 c.2 = false
  cursor : l.w < cap
  delayLo : le32 one32 l.d = true
  delayHi : le32 l.d (float32 (cap - 1)) = true

/-- The 14 delay lines of R43 (`1 + NUM_AP + N + 1` in general). -/
def State.lines (s : State) : List DelayLine :=
  s.reverb.pre :: s.modu.line :: (s.reverb.ap ++ s.reverb.fdn.toList)

/-- The number of cells every buffer has: none before the first successful INIT, then `C` (R43). -/
def State.bufferSize (s : State) : Nat := if s.audio.initf then s.audio.cap else 0

/-- Every line of the block is a legal line, the capacity is one that INIT can set (00_scope.md R7), and there is one all-pass line per
entry of `AP_LEN` (41_allpass.md R130). -/
structure LinesOk (s : State) : Prop where
  capLo : 2 ≤ s.audio.cap
  capHi : s.audio.cap ≤ 2 ^ 24
  stages : s.reverb.ap.length = s.cfg.apLen.length
  lines : ∀ l ∈ s.lines, LineOk s.audio.cap s.bufferSize l

/-- Once initialised, the lengths and the matrix in use are the functions R180, R183, R184 of `AROOM` and `ADECAY`
(44_feedback_matrix.md R186). -/
def MatrixCoherent (s : State) : Prop :=
  s.audio.initf = true →
    s.reverb.len = matLengths s.cfg s.audio.fs s.reverb.aroom ∧
    s.reverb.dg = matDecayGain s.audio.fs s.reverb.adecay ∧
    s.reverb.mat = matScale s.reverb.dg

/-- The frames still to process of a command in flight (10_state.md R47). -/
def InFlight.remaining : InFlight → Nat
  | .proc _ n => n
  | .mproc n => n

/-- The status registers (R23, R31, R32, R33, R47; 60_exceptions.md R317). -/
structure StatusOk (s : State) : Prop where
  sticky : ∀ i : Fin 16, (i.val = 0 ∨ 9 ≤ i.val) → s.sticky[i] = false
  lasterrC : s.ctrl.lasterrC.toNat ≤ 8
  lasterrA : s.audio.lasterrA.toNat ≤ 8
  busy : s.audio.busy = s.audio.inflight.isSome
  inflight : ∀ f, s.audio.inflight = some f →
    s.audio.initf = true ∧ 0 < f.remaining ∧ f.remaining ≤ s.audio.maxblk.toNat

/-- No queue holds more than `Q_DEPTH` words (R46). -/
structure PortsOk (s : State) : Prop where
  cport : s.ports.cport.length ≤ s.cfg.qDepth
  aport : s.ports.aport.length ≤ s.cfg.qDepth
  inq : s.ports.inq.length ≤ s.cfg.qDepth
  outq : s.ports.outq.length ≤ s.cfg.qDepth
  cresp : s.ports.cresp.length ≤ s.cfg.qDepth
  aresp : s.ports.aresp.length ≤ s.cfg.qDepth

/-- The modulated-delay unit (45_modulated_delay.md R200): base in `[1, C-1]`, finite depth and rate, phase in `[0, TWO_PI)`. -/
structure ModOk (s : State) : Prop where
  baseLo : le32 one32 s.modu.base = true
  baseHi : le32 s.modu.base (float32 (s.audio.cap - 1)) = true
  depth : isFinite32 s.modu.depth = true
  rate : isFinite32 s.modu.rate = true
  phaseLo : le64 zero64 s.modu.phase = true
  phaseHi : lt64 s.modu.phase twoPi = true

/-- No recirculating state is subnormal: damping states (R44) and smoother currents (R36). -/
structure Flushed (s : State) : Prop where
  z : ∀ i : Fin 8, isSubnormal32 s.reverb.z[i] = false
  cur : ∀ p, isSubnormal64 (s.reverb.cur.get p) = false

/-- All the invariants together. -/
structure Inv (s : State) : Prop where
  params : ParamsOk s.cfg
  targets : TargetsInRange s
  smoothers : SmoothersInRange s
  lines : LinesOk s
  matrix : MatrixCoherent s
  status : StatusOk s
  ports : PortsOk s
  modu : ModOk s
  flushed : Flushed s

/-! ### The terms that claims use -/

/-- The integer that a sign and a magnitude are. -/
def signedInt (neg : Bool) (x : Nat) : Int := if neg then -(x : Int) else x

/-- The sign of an exact sum `z` of two values with signs `s` and `t`: its own, and of a zero sum negative only where both are (IEEE 754,
log entry 10). -/
def sumSign (s t : Bool) (z : Int) : Bool := if z = 0 then s && t else decide (z < 0)

/-- How many response words the command with command word `w` defines on port `p` (30_encoding.md R87; none for an opcode that is not
assigned on this port, 20_memory.md R76). -/
def responseWords (p : Port) (w : Word) : Nat :=
  match Opcode.ofByte (opcField w) with
  | none => 0
  | some op => if op.validOn p then op.resp else 0

/-- The opcodes of a port, as the OPC column of 30_encoding.md R87 lists them. -/
def portOpcodes : Port → List Nat
  | .audio => [0x00, 0x01, 0x02, 0x03, 0x04, 0x08, 0x09, 0x0A, 0x0B]
  | .ctrl => [0x00, 0x10, 0x11, 0x12, 0x13, 0x14, 0x15, 0x16, 0x17, 0x18, 0x19, 0x1A, 0x1B, 0x1C]

/-- `RESERVED_MASK(FORMAT(op))` by opcode value (30_encoding.md R81, R87). -/
def reservedMaskOf (op : Nat) : Word :=
  if op ∈ [0x10, 0x11, 0x12, 0x13, 0x14, 0x16, 0x1C] then 0x00F0FFFF
  else if op ∈ [0x01, 0x0A] then 0x00FF0000
  else if op = 0x04 then 0x00F00000
  else 0x00FFFFFF

/-- The procedure `CHECK(port, words)` of 60_exceptions.md R301, line by line, on opcode values: the code of the first condition that
applies, 0 where none does. -/
def checkCode (s : State) (p : Port) (w : Word) (payload : List Word) : Nat :=
  let op := (opcField w).toNat
  let sel := (selField w).toNat
  if op ∉ portOpcodes .audio ∧ op ∉ portOpcodes .ctrl then 1
  else if op ∉ portOpcodes p then 8
  else if w &&& reservedMaskOf op ≠ 0 then 2
  else if op ∈ [0x10, 0x11, 0x12, 0x13, 0x1C] ∧ 6 < sel then 3
  else if op = 0x16 ∧ 4 < sel then 3
  else if op = 0x14 ∧ 1 < sel then 3
  else if op = 0x04 ∧ sel ≠ 1 ∧ sel ≠ 2 then 5
  else if op ∈ [0x02, 0x03, 0x04, 0x08, 0x09, 0x0A, 0x0B, 0x1C] ∧ s.audio.initf = false then 4
  else if op ∈ [0x04, 0x0A] ∧ s.audio.maxblk.toNat < (cntField w).toNat then 6
  else if op = 0x01 ∧ initArgsBad s.cfg (cntField w) (payload.getD 1 0 ++ payload.getD 0 0) = true then 7
  else 0

/-- What INIT, RESET and CLEAR leave of the reverberation path (47_engine_facade.md R255; 10_state.md section 6): every line empty with
its cursor at 0 and its delay set again, filters at +0.0, smoothers on the targets `pt`, every coefficient a function of `pt`. `old`
is the path before; only its lines' sizes and `BYP_L` are kept. -/
structure AfterClear (cfg : Params) (fs : F64) (cap : Nat) (pt : PerParam F32) (old r : Reverb) : Prop where
  st : r.st = pt
  cur : ∀ p, r.cur.get p = f64 (pt.get p)
  bypL : r.bypL = old.bypL
  aroom : r.aroom = pt.roomSize
  adecay : r.adecay = pt.decayTime
  len : r.len = matLengths cfg fs pt.roomSize
  dg : r.dg = matDecayGain fs pt.decayTime
  mat : r.mat = matScale (matDecayGain fs pt.decayTime)
  dampc : r.dampc = sub32 one32 (clamp32 pt.highFreqDamping zero32 one32)
  apg : r.apg = mul32 cfg.apGainScale pt.density
  /-- 43_fdn_core.md R167: the smaller of `pre * FS / 1000` and `FS * 0.2` -/
  pre :
    let a := div64 (mul64 (f64 pt.preDelay) fs) 0x408F400000000000
    let b := mul64 fs 0x3FC999999999999A
    r.pre = ⟨old.pre.size, [], 0, clamp32 (round32 (if le64 a b then a else b)) one32 (float32 (cap - 1))⟩
  ap : r.ap = List.zipWith (fun n l => ⟨l.size, [], 0, clamp32 (float32 n) one32 (float32 (cap - 1))⟩) cfg.apLen old.ap
  fdn : ∀ i : Fin 8,
    r.fdn[i] = ⟨old.fdn[i].size, [], 0, clamp32 (float32 (matLengths cfg fs pt.roomSize)[i]) one32 (float32 (cap - 1))⟩
  z : ∀ i : Fin 8, r.z[i] = zero32

/-- The state after `n` frame steps; none where one of them is not enabled. -/
def framesAfter : Nat → State → Option State
  | 0, s => some s
  | n + 1, s => (frameStep s).bind (framesAfter n)

/-- A whole block: the command and as many frame steps as its count; none where the command takes no next state or a frame step is not
enabled. -/
def runBlock (i : Instr) (n : Nat) (s : State) : Option State :=
  match exec i s with
  | .next t => framesAfter n t
  | .fault _ => none
  | .refused _ => none

/-- Lines that agree in size and delay and in every cell but the one at the old cursor, with the cursor moved on by one: what one push
does (40_delay_line.md R116). -/
structure PushedOnce (cap : Nat) (old new : DelayLine) : Prop where
  size : new.size = old.size
  cursor : new.w = (old.w + 1) % cap
  cells : ∀ k, k ≠ old.w → cellRead new.cells k = cellRead old.cells k

/-- The network input of a frame: the one channel, or the mean of the two (43_fdn_core.md R153). -/
def networkInput : Frame → F32
  | .mono x => x
  | .stereo l r => mul32 (add32 l r) 0x3F000000

/-- A sample after a list of all-pass stages: each stage's output is the next one's input (43_fdn_core.md R155). -/
def throughStages (cap : Nat) (g : F32) (ls : List DelayLine) (x : F32) : F32 := ls.foldl (fun y l => (apProcess cap g l y).2) x

/-- The pre-delayed sample of a frame (43_fdn_core.md R154). -/
def preDelayed (cap : Nat) (x : Frame) (old new : Reverb) : F32 :=
  (dlProcess cap { old.pre with d := new.pre.d } (networkInput x)).2

/-- The diffused input: the pre-delayed sample through all stages with the frame's gain (43_fdn_core.md R155). -/
def diffusedInput (cap : Nat) (x : Frame) (old new : Reverb) : F32 :=
  throughStages cap new.apg old.ap (preDelayed cap x old new)

/-- What one channel puts out: `x * (1 - m) + w * m` with the mix `m` of the frame's wetDryMix (43_fdn_core.md R162). -/
def channelOutput (new : Reverb) (x w : F32) : F32 :=
  let m := div32 (frameValue new .wetDryMix) 0x42C80000
  add32 (mul32 x (sub32 one32 m)) (mul32 w m)

/-- What one processed frame with input `x` and output `y` makes of the path `old` (43_fdn_core.md R150 to R162): every register and
line of `new`, each from `old` and the registers that the frame sets before it. -/
structure ProcessedPath (cfg : Params) (fs : F64) (cap : Nat) (k : F64) (x y : Frame) (old new : Reverb) : Prop where
  st : new.st = old.st
  bypL : new.bypL = old.bypL
  /-- 46_parameter_smoother.md R222 -/
  cur : ∀ p, new.cur.get p = ftz64 (if eq64 k one64 then f64 (old.st.get p)
    else add64 (old.cur.get p) (mul64 k (sub64 (f64 (old.st.get p)) (old.cur.get p))))
  /-- R152, the lengths' part -/
  room : if ne32 (frameValue new .roomSize) old.aroom then
      new.aroom = frameValue new .roomSize ∧ new.len = matLengths cfg fs (frameValue new .roomSize) ∧
        ∀ i : Fin 8, new.fdn[i].d = clamp32 (float32 new.len[i]) one32 (float32 (cap - 1))
    else new.aroom = old.aroom ∧ new.len = old.len ∧ ∀ i : Fin 8, new.fdn[i].d = old.fdn[i].d
  /-- R152, the matrix's part -/
  decay : if ne32 (frameValue new .decayTime) old.adecay then
      new.adecay = frameValue new .decayTime ∧ new.dg = matDecayGain fs (frameValue new .decayTime) ∧ new.mat = matScale new.dg
    else new.adecay = old.adecay ∧ new.dg = old.dg ∧ new.mat = old.mat
  dampc : new.dampc = sub32 one32 (clamp32 (frameValue new .highFreqDamping) zero32 one32)
  apg : new.apg = mul32 cfg.apGainScale (frameValue new .density)
  /-- R167: the smaller of `pre * FS / 1000` and `FS * 0.2` -/
  preDelay :
    let a := div64 (mul64 (f64 (frameValue new .preDelay)) fs) 0x408F400000000000
    let b := mul64 fs 0x3FC999999999999A
    new.pre.d = clamp32 (round32 (if le64 a b then a else b)) one32 (float32 (cap - 1))
  /-- 41_allpass.md R130 -/
  apDelay : new.ap.map DelayLine.d = old.ap.map DelayLine.d
  pre : new.pre = (dlProcess cap { old.pre with d := new.pre.d } (networkInput x)).1
  /-- R155: every stage works on what the stages before it put out -/
  ap : ∀ i (h : i < old.ap.length), new.ap[i]? =
    some (apProcess cap new.apg old.ap[i] (throughStages cap new.apg (old.ap.take i) (preDelayed cap x old new))).1
  /-- R156 to R158: line reads, matrix, damping -/
  z : ∀ i : Fin 8, new.z[i] = ftz32 (add32
    (mul32 new.dampc (matApply new.mat (tab8 fun j => dlPeek cap { old.fdn[j] with d := new.fdn[j].d }))[i])
    (mul32 (sub32 one32 new.dampc) old.z[i]))
  /-- R159 -/
  fdn : ∀ i : Fin 8, new.fdn[i] = dlPush cap { old.fdn[i] with d := new.fdn[i].d }
    (add32 (mul32 cfg.inGain (diffusedInput cap x old new)) new.z[i])
  /-- R160 to R162 -/
  out : match x with
    | .mono x0 => y = .mono (channelOutput new x0 (mul32 cfg.wetNormMono (add32 (add32 (add32 (add32 (add32 (add32
        (add32 new.z[0] new.z[1]) new.z[2]) new.z[3]) new.z[4]) new.z[5]) new.z[6]) new.z[7])))
    | .stereo l r => y = .stereo
        (channelOutput new l (mul32 cfg.wetNormStereo (add32 (add32 (add32 new.z[1] new.z[3]) new.z[5]) new.z[7])))
        (channelOutput new r (mul32 cfg.wetNormStereo (add32 (add32 (add32 new.z[0] new.z[2]) new.z[4]) new.z[6])))

/-- A run of `k` steps that ends in a state, neither stuck on the host nor finished (20_memory.md R72, 70_reset_and_hazards.md R355). -/
def RunsOn (k : Nat) (s : State) : Prop := ∃ t, Host.Core.run Sys2Proof.core k s = .next t

end Sys2Proof.Machine
end

