-- ==== Sys2Proof/Certificates/Slice0/Obligations.lean ====
section
/-! DEFINITION. The statements for the provers, in the order of the spec's files: encoding, steps and errors, ownership, commands,
micro-operations, frames, invariants, reset. -/

open Sys2Proof Sys2Proof.Machine

/-! ### Encoding -/

/-- 30_encoding.md R80 to R83: decoding the words of a command gives the command, with every operand, and leaves the words after it. -/
def Obligations.DecodeOfEncode : Prop :=
  ∀ (i : Instr) (rest : List Word), decode i.port (encode i ++ rest) = .command i rest

/-- 30_encoding.md R82, R87, R90: a queue decodes to a command only where it starts with exactly that command's words. -/
def Obligations.DecodedCommandIsItsEncoding : Prop :=
  ∀ (p : Port) (q : List Word) (i : Instr) (rest : List Word),
    decode p q = .command i rest → q = encode i ++ rest ∧ i.port = p

/-- The encoding examples under 30_encoding.md R97, and one word of each further shape from 45 and 47. -/
def Obligations.ExampleWordsDecode : Prop :=
  decode .audio [0x00000000] = .command (.nop .audio) [] ∧
  decode .ctrl [0x00000000] = .command (.nop .ctrl) [] ∧
  decode .audio [0x01000200, 0x00000000, 0x40E77000] = .command (.init 512 0x40E7700000000000) [] ∧
  decode .audio [0x02000000] = .command .reset [] ∧
  decode .audio [0x04020200] = .command (.proc 2 512) [] ∧
  decode .audio [0x04010080] = .command (.proc 1 128) [] ∧
  decode .audio [0x08000000, 0x40000000, 0x447A0000] = .command (.msetm 0x40000000 0x447A0000) [] ∧
  decode .audio [0x09000000, 0x40200000] = .command (.msetb 0x40200000) [] ∧
  decode .audio [0x0A000005] = .command (.mproc 5) [] ∧
  decode .ctrl [0x10040000, 0x3DCCCCCD] = .command (.setp 4 0x3DCCCCCD) [] ∧
  decode .ctrl [0x14010000] = .command (.setbyp 1) [] ∧
  decode .ctrl [0x16030000] = .command (.setpre 3) [] ∧
  decode .ctrl [0x1A000000] = .command .getstat [] ∧
  decode .ctrl [0x1C010000] = .command (.issmooth 1) []

/-- The rows of 30_encoding.md R87: OPC value, words after the command word, response words, reserved-zero mask (R81), and whether the
opcode is valid on the AUDIO and on the CTRL port. -/
def Obligations.OpcodeMapRows : Prop :=
  ([.nop, .init, .reset, .clear, .proc, .msetm, .msetb, .mproc, .mclr, .setp, .getp, .setpn, .getpn, .setbyp, .getbyp, .setpre,
      .getpre, .getcpu, .isinit, .getstat, .clrerr, .issmooth] : List Opcode).map
      (fun op => (op.byte.toNat, op.payload, op.resp, op.format.reservedMask.toNat, op.validOn .audio, op.validOn .ctrl)) =
    [(0x00, 0, 0, 0x00FFFFFF, true, true), (0x01, 2, 1, 0x00FF0000, true, false), (0x02, 0, 0, 0x00FFFFFF, true, false),
      (0x03, 0, 0, 0x00FFFFFF, true, false), (0x04, 0, 0, 0x00F00000, true, false), (0x08, 2, 0, 0x00FFFFFF, true, false),
      (0x09, 1, 0, 0x00FFFFFF, true, false), (0x0A, 0, 0, 0x00FF0000, true, false), (0x0B, 0, 0, 0x00FFFFFF, true, false),
      (0x10, 1, 0, 0x00F0FFFF, false, true), (0x11, 0, 1, 0x00F0FFFF, false, true), (0x12, 1, 0, 0x00F0FFFF, false, true),
      (0x13, 0, 1, 0x00F0FFFF, false, true), (0x14, 0, 0, 0x00F0FFFF, false, true), (0x15, 0, 1, 0x00FFFFFF, false, true),
      (0x16, 0, 0, 0x00F0FFFF, false, true), (0x17, 0, 1, 0x00FFFFFF, false, true), (0x18, 0, 2, 0x00FFFFFF, false, true),
      (0x19, 0, 1, 0x00FFFFFF, false, true), (0x1A, 0, 2, 0x00FFFFFF, false, true), (0x1B, 0, 0, 0x00FFFFFF, false, true),
      (0x1C, 0, 1, 0x00F0FFFF, false, true)] ∧
  ∀ op : Opcode, Opcode.ofByte op.byte = some op

/-- The selectors of 30_encoding.md R84 to R86 and the ranges of 46_parameter_smoother.md R232. -/
def Obligations.SelectorAndRangeTables : Prop :=
  (List.ofFn fun k : Fin 16 => paramOfSel (BitVec.ofNat 4 k)) =
    [some .wetDryMix, some .decayTime, some .preDelay, some .crossFeed, some .roomSize, some .density, some .highFreqDamping] ++
      List.replicate 9 none ∧
  (List.ofFn fun k : Fin 16 => presetOfSel (BitVec.ofNat 4 k)) =
    [some .clean, some .vocalBooth, some .studio, some .cathedral, some .custom] ++ List.replicate 11 none ∧
  (List.ofFn fun k : Fin 16 => channelsOfSel (BitVec.ofNat 4 k)) = [none, some .mono, some .stereo] ++ List.replicate 13 none ∧
  (∀ c, presetOfSel ((presetCode c).setWidth 4) = some c) ∧
  ([.wetDryMix, .decayTime, .preDelay, .crossFeed, .roomSize, .density, .highFreqDamping] : List Param).map
      (fun p => (paramLo p, paramHi p)) =
    [(0x00000000, 0x42C80000), (0x3DCCCCCD, 0x41200000), (0x00000000, 0x43480000), (0x00000000, 0x3F800000),
      (0x00000000, 0x3F800000), (0x00000000, 0x3F800000), (0x00000000, 0x3F800000)]

/-! ### Taking and ending commands -/

/-- 47_engine_facade.md R250, 30_encoding.md R82: a command step takes exactly the words of one command from the head of its queue and
touches nothing else by taking them; it is enabled exactly when they are all there and the response queue has room for the response words
the command defines on that port (a command that defines none needs no room). For a refused command that is the model's reading, log
entry 11: one refused for a reserved bit waits for room, one with an unassigned opcode or of the other port does not. -/
def Obligations.FetchTakesOneWholeCommand : Prop :=
  (∀ (p : Port) (s : State) (f : Fetched), fetch p s = some f →
    ∃ w rest, s.commands p = w :: rest ∧ commandLength w ≤ (s.commands p).length ∧
      match f with
      | .command i t => t = s.setCommands p ((s.commands p).drop (commandLength w)) ∧
          (s.commands p).take (commandLength w) = encode i ∧ i.port = p
      | .rejected _ t => t = s.setCommands p ((s.commands p).drop (commandLength w))) ∧
  (∀ (p : Port) (s : State), (fetch p s).isSome = true ↔
    ∃ w rest, s.commands p = w :: rest ∧ commandLength w ≤ (s.commands p).length ∧
      (responseWords p w = 0 ∨ (s.responses p).length + responseWords p w ≤ s.cfg.qDepth))

/-- 20_memory.md R68, 47_engine_facade.md R250: a step of a scheduled executor whose queue head is a command runs that command on the state
without its words and without the schedule's first entry. On the AUDIO port no frames are in flight (10_state.md R47). -/
def Obligations.StepRunsDecodedCommand : Prop :=
  ∀ (p : Port) (s : State) (later : List Agent) (i : Instr) (q : List Word),
    s.env.sched = Port.agent p :: later → (p = .audio → s.audio.inflight = none) → decode p (s.commands p) = .command i q →
    s.hasRoom p i.opcode.resp = true →
    step s = exec i (({ s with env := { s.env with sched := later } } : State).setCommands p q)

/-- 30_encoding.md R89, R92: a word whose OPC is assigned on neither port raises ILLEGAL_OPCODE on either port, consumes that one word and does
nothing else. -/
def Obligations.UnassignedOpcodeIsIllegal : Prop :=
  ∀ (p : Port) (s : State) (w : Word) (rest : List Word), s.commands p = w :: rest →
    (opcField w).toNat ∈ [0x05, 0x06, 0x07] ∨ (0x0C ≤ (opcField w).toNat ∧ (opcField w).toNat ≤ 0x0F) ∨
      0x1D ≤ (opcField w).toNat →
    commandStep p s = some (.next ((s.setCommands p rest).endWithError p .illegalOpcode 0))

/-- 30_encoding.md R88: NOP is valid on both ports; an assigned opcode of the other port raises WRONG_PORT, its whole command is consumed
and nothing else happens. -/
def Obligations.OtherPortsOpcodeIsWrongPort : Prop :=
  (∀ (p : Port) (rest : List Word), decode p (0x00000000 :: rest) = .command (.nop p) rest) ∧
  ∀ (p : Port) (s : State) (w : Word) (rest : List Word), s.commands p = w :: rest →
    (p = .ctrl ∧ (opcField w).toNat ∈ [0x01, 0x02, 0x03, 0x04, 0x08, 0x09, 0x0A, 0x0B]) ∨
      (p = .audio ∧ 0x10 ≤ (opcField w).toNat ∧ (opcField w).toNat ≤ 0x1C) →
    commandLength w ≤ rest.length + 1 →
    commandStep p s = some (.next ((s.setCommands p (rest.drop (commandLength w - 1))).endWithError p .wrongPort 0))

/-- 30_encoding.md R90: an assigned opcode of the executing port with a non-zero reserved bit raises RESERVED_BITS, its whole command is
consumed and nothing else happens, whatever the other fields say. -/
def Obligations.ReservedBitsAreRefused : Prop :=
  ∀ (p : Port) (s : State) (w : Word) (rest : List Word), s.commands p = w :: rest →
    (opcField w).toNat ∈ portOpcodes p → w &&& reservedMaskOf (opcField w).toNat ≠ 0 →
    commandLength w ≤ rest.length + 1 → s.hasRoom p (responseWords p w) = true →
    commandStep p s = some (.next
      ((s.setCommands p (rest.drop (commandLength w - 1))).endWithError p .reservedBits (responseWords p w)))

/-- 60_exceptions.md R301: where a command step is enabled, the code of the first condition that applies, in the order of the procedure CHECK,
is the one error the command ends with; where none applies the command runs and leaves code 0 (GETSTAT: the code it found). That an
illegal opcode or an opcode of the other port is taken without room for any response is the model's reading (log entry 11). -/
def Obligations.CheckOrderDecidesTheOutcome : Prop :=
  ∀ (p : Port) (s : State) (w : Word) (rest : List Word), s.commands p = w :: rest →
    commandLength w ≤ rest.length + 1 → s.hasRoom p (responseWords p w) = true →
    let t := s.setCommands p (rest.drop (commandLength w - 1))
    (checkCode s p w rest = 0 →
      ∃ i u, i.opcode.byte = opcField w ∧ commandStep p s = some (exec i t) ∧ exec i t = .next u ∧
        u.lasterr p = (if i = .getstat then s.lasterr p else 0) ∧ u.sticky = (if i = .clrerr then 0 else s.sticky)) ∧
    (checkCode s p w rest ≠ 0 →
      ∃ e : ErrCode, e.code = checkCode s p w rest ∧
        commandStep p s = some (.next (t.endWithError p e (responseWords p w))))

/-- 60_exceptions.md R302, 20_memory.md R76: a refused command writes its code to its port's last-error register and its bit to `STICKY`, pushes
its response words as zeros to its port's response queue, and changes nothing else. -/
def Obligations.ErrorChangesOnlyItsRecord : Prop :=
  (∀ (i : Instr) (s : State) (e : ErrCode), checkError i s = some e →
    exec i s = .next (s.endWithError i.port e i.opcode.resp)) ∧
  (∀ (s : State) (e : ErrCode) (n : Nat), s.endWithError .audio e n =
    { s with
      audio := { s.audio with lasterrA := BitVec.ofNat 8 e.code }
      sticky := s.sticky ||| BitVec.ofNat 16 (2 ^ e.code)
      ports := { s.ports with aresp := s.ports.aresp ++ List.replicate n 0 } }) ∧
  (∀ (s : State) (e : ErrCode) (n : Nat), s.endWithError .ctrl e n =
    { s with
      ctrl := { s.ctrl with lasterrC := BitVec.ofNat 8 e.code }
      sticky := s.sticky ||| BitVec.ofNat 16 (2 ^ e.code)
      ports := { s.ports with cresp := s.ports.cresp ++ List.replicate n 0 } }) ∧
  ([.illegalOpcode, .reservedBits, .badSelector, .notInit, .badChannels, .blockTooLarge, .badInitArgs, .wrongPort] :
    List ErrCode).map ErrCode.code = [1, 2, 3, 4, 5, 6, 7, 8]

/-- 60_exceptions.md R317: in one step a `STICKY` bit rises only as the error code that a port's last-error register then holds, which is one
of 1 to 8, and falls only with all the others, by CLRERR or the reset pin. -/
def Obligations.StickyBitsRiseByErrorsAndFallTogether : Prop :=
  ∀ (s t : State) (k : Fin 16), step s = .next t →
    (s.sticky[k] = false → t.sticky[k] = true →
      1 ≤ k.val ∧ k.val ≤ 8 ∧ ∃ p, t.lasterr p = BitVec.ofNat 8 k.val) ∧
    (s.sticky[k] = true → t.sticky[k] = false →
      t.sticky = 0 ∧
        ((∃ q, decode .ctrl s.ports.cport = .command .clrerr q) ∨ s.env.host.head? = some .rst))

/-- 70_reset_and_hazards.md R335: before the first successful INIT, the AUDIO port accepts NOP and INIT only, and the CTRL port accepts every
command but ISSMOOTH; the others end with NOT_INIT and change nothing else. Commands with an illegal selector fail their own check first
(60_exceptions.md R301) and are no part of this. -/
def Obligations.CommandsBeforeInit : Prop :=
  ∀ (i : Instr) (s : State), s.audio.initf = false → i.wellFormed = true →
    match i with
    | .reset | .clear | .proc _ _ | .msetm _ _ | .msetb _ | .mproc _ | .mclr =>
      exec i s = .next (s.endWithError .audio .notInit 0)
    | .issmooth _ => exec i s = .next (s.endWithError .ctrl .notInit 1)
    | .init n fs => initArgsBad s.cfg n fs = false → ∃ t, exec i s = .next t ∧ t.audio.initf = true ∧ t.audio.lasterrA = 0
    | .nop p => ∃ t, exec i s = .next t ∧ t.lasterr p = 0
    | .getstat => ∃ t, exec i s = .next t ∧ t.ctrl = s.ctrl
    | .setp _ _ | .getp _ | .setpn _ _ | .getpn _ | .setbyp _ | .getbyp | .setpre _ | .getpre | .getcpu | .isinit | .clrerr =>
      ∃ t, exec i s = .next t ∧ t.ctrl.lasterrC = 0

/-! ### Who writes what -/

/-- 47_engine_facade.md R270: a CTRL step is enabled whenever the words of a command are there and its response fits, whatever the AUDIO
executor is doing, and it writes CTRL-owned state (20_memory.md R66) and its own queues only. Which room a refused command needs is the
model's reading (log entry 11). -/
def Obligations.SettersNeverBlock : Prop :=
  (∀ s : State, (ctrlStep s).isSome = true ↔
    ∃ w rest, s.ports.cport = w :: rest ∧ commandLength w ≤ s.ports.cport.length ∧
      (responseWords .ctrl w = 0 ∨ s.ports.cresp.length + responseWords .ctrl w ≤ s.cfg.qDepth)) ∧
  ∀ s t : State, ctrlStep s = some (.next t) →
    t.cfg = s.cfg ∧ t.audio = s.audio ∧ t.reverb = s.reverb ∧ t.modu = s.modu ∧
    t.ports.aport = s.ports.aport ∧ t.ports.inq = s.ports.inq ∧ t.ports.outq = s.ports.outq ∧ t.ports.aresp = s.ports.aresp ∧
    t.env.sched = s.env.sched ∧ t.env.host = s.env.host

/-- 20_memory.md R66: an AUDIO step writes no CTRL-owned register and touches neither CTRL queue. -/
def Obligations.AudioStepsLeaveCtrlStateAlone : Prop :=
  ∀ s t : State, audioStep s = some (.next t) →
    t.cfg = s.cfg ∧ t.ctrl = s.ctrl ∧ t.ports.cport = s.ports.cport ∧ t.ports.cresp = s.ports.cresp ∧ t.env = s.env

/-- 20_memory.md R72: a step of one executor that is not enabled stays so across the other executor's steps: only the host can enable it. -/
def Obligations.OnlyTheHostEnables : Prop :=
  (∀ s t : State, ctrlStep s = none → audioStep s = some (.next t) → ctrlStep t = none) ∧
  (∀ s t : State, audioStep s = none → ctrlStep s = some (.next t) → audioStep t = none)

/-- 20_memory.md R72: a frame step is enabled exactly when its words are in `IN` and `OUT` has room for as many (a command in flight with no
frame left is no state of a run, log entry 12). The third clause is the model's choice (log entry 16): a scheduled agent whose step is
not enabled uses up its turn and changes nothing else. -/
def Obligations.FramesWaitForTheirWords : Prop :=
  (∀ (s : State) (ch : Channels) (n : Nat), s.audio.inflight = some (.proc ch n) → 0 < n →
    ((frameStep s).isSome = true ↔ ch.count ≤ s.ports.inq.length ∧ s.ports.outq.length + ch.count ≤ s.cfg.qDepth)) ∧
  (∀ (s : State) (n : Nat), s.audio.inflight = some (.mproc n) → 0 < n →
    ((frameStep s).isSome = true ↔ 1 ≤ s.ports.inq.length ∧ s.ports.outq.length + 1 ≤ s.cfg.qDepth)) ∧
  (∀ (s : State) (a : Agent) (later : List Agent), s.env.sched = a :: later →
    agentStep a { s with env := { s.env with sched := later } } = none →
    step s = .next { s with env := { s.env with sched := later } })

/-- 20_memory.md R69: the frames of a block in flight do not see what CTRL commands write after its latch step; the next latch step takes the
targets and the bypass request as they then are. The first clause compares two runs, so it rests on equal operations on equal operands
giving equal NaN bits, the model's choice (log entry 5). -/
def Obligations.FramesIgnoreLaterControlWrites : Prop :=
  (∀ (s : State) (c : CtrlRegs) (n : Nat),
    framesAfter n { s with ctrl := c } = (framesAfter n s).map fun t => { t with ctrl := c }) ∧
  (∀ (s : State) (sel : BitVec 4) (n : BitVec 16), checkError (.proc sel n) s = none → n ≠ 0 →
    ∃ t, exec (.proc sel n) s = .next t ∧ t.reverb.st = s.ctrl.pt ∧ t.reverb.bypL = s.ctrl.bypass)

/-- 47_engine_facade.md R263, R269, R256, R258, R262: `PRESET` changes only by SETP, SETPN and SETPRE, `BYPASS` only by SETBYP, the targets only by
SETP, SETPN and SETPRE; and in a step of the machine the block leaves its initialised state only by the reset pin. -/
def Obligations.WritersOfPresetBypassAndInit : Prop :=
  (∀ (i : Instr) (s t : State), exec i s = .next t →
    (t.ctrl.preset ≠ s.ctrl.preset ∨ t.ctrl.pt ≠ s.ctrl.pt →
      ∃ sel, (∃ v, i = .setp sel v) ∨ (∃ v, i = .setpn sel v) ∨ i = .setpre sel) ∧
    (t.ctrl.bypass ≠ s.ctrl.bypass → ∃ sel, i = .setbyp sel)) ∧
  (∀ s t : State, step s = .next t → s.audio.initf = true → t.audio.initf = false → s.env.host.head? = some .rst)

/-! ### The commands -/

/-- 47_engine_facade.md R251: NOP writes 0 to its port's last-error register and does nothing else. -/
def Obligations.NopWritesOnlyLasterr : Prop :=
  ∀ s : State,
    exec (.nop .audio) s = .next { s with audio := { s.audio with lasterrA := 0 } } ∧
    exec (.nop .ctrl) s = .next { s with ctrl := { s.ctrl with lasterrC := 0 } }

/-- 70_reset_and_hazards.md R331, 47_engine_facade.md R252, 46_parameter_smoother.md R221: an INIT with legal arguments, from any state, sets the
configuration and the smoothing coefficient, sizes and clears every line, applies the parameters from the targets, answers 1, and keeps
the host-visible state. A NaN among the values is the model's choice of bits (log entry 5). -/
def Obligations.InitConfiguresTheBlock : Prop :=
  ∀ (n : BitVec 16) (fs : F64) (s : State),
    isFinite64 fs = true → lt64 zero64 fs = true → le64 fs s.cfg.fsMax = true → n ≠ 0 →
    ∃ t, exec (.init n fs) s = .next t ∧
      t.audio = { s.audio with
        initf := true, fs := fs, maxblk := n, cap := max 2 (floor64 fs).toNat, lasterrA := 0
        k := if le64 s.cfg.smoothTime zero64 then 0x3FF0000000000000
          else sub64 0x3FF0000000000000
            (Config.exp64 (neg64 (div64 0x3FF0000000000000 (mul64 s.cfg.smoothTime fs)))) } ∧
      AfterClear s.cfg fs (max 2 (floor64 fs).toNat) s.ctrl.pt (reverbResize (max 2 (floor64 fs).toNat) s.reverb) t.reverb ∧
      (∀ l ∈ t.reverb.pre :: t.reverb.ap ++ t.reverb.fdn.toList, l.size = max 2 (floor64 fs).toNat) ∧
      t.modu =
        { base := one32, depth := zero32, rate := zero32, phase := zero64
          line := ⟨max 2 (floor64 fs).toNat, [], 0, clamp32 one32 one32 (float32 (max 2 (floor64 fs).toNat - 1))⟩ } ∧
      t.cfg = s.cfg ∧ t.ctrl = s.ctrl ∧ t.sticky = s.sticky ∧ t.env = s.env ∧
      t.ports = { s.ports with aresp := s.ports.aresp ++ [1] }

/-- 47_engine_facade.md R252, 70_reset_and_hazards.md R336: an INIT whose sample rate is not finite, not positive or above `FS_MAX`, or whose block
size is 0, answers 0, records BAD_INIT_ARGS and leaves the block exactly as it was. -/
def Obligations.FailedInitChangesOnlyItsRecord : Prop :=
  ∀ (n : BitVec 16) (fs : F64) (s : State),
    isFinite64 fs = false ∨ lt64 zero64 fs = false ∨ le64 fs s.cfg.fsMax = false ∨ n = 0 →
    exec (.init n fs) s = .next
      { s with
        audio := { s.audio with lasterrA := 7 }
        sticky := s.sticky ||| 0x0080
        ports := { s.ports with aresp := s.ports.aresp ++ [0] } }

/-- 70_reset_and_hazards.md R332, 47_engine_facade.md R254, R255: on an initialised block RESET and CLEAR do the same: they clear every line,
keep its size, restart filters, smoothers and LFO phase from the targets, and keep everything else. A NaN among the values is the
model's choice of bits (log entry 5). -/
def Obligations.ResetAndClearRestartTheAudioState : Prop :=
  ∀ s : State, s.audio.initf = true →
    ∃ t, exec .reset s = .next t ∧ exec .clear s = .next t ∧
      AfterClear s.cfg s.audio.fs s.audio.cap s.ctrl.pt s.reverb t.reverb ∧
      t.modu =
        { s.modu with
          phase := zero64
          line := ⟨s.modu.line.size, [], 0, clamp32 s.modu.base one32 (float32 (s.audio.cap - 1))⟩ } ∧
      t.audio = { s.audio with lasterrA := 0 } ∧
      t.cfg = s.cfg ∧ t.ctrl = s.ctrl ∧ t.sticky = s.sticky ∧ t.ports = s.ports ∧ t.env = s.env

/-- 47_engine_facade.md R253: the latch step of PROC, for every channel count and every frame count up to `MAXBLK`. -/
def Obligations.ProcLatchesTheTargets : Prop :=
  ∀ (sel : BitVec 4) (n : BitVec 16) (s : State), s.audio.initf = true → sel.toNat = 1 ∨ sel.toNat = 2 → n ≤ s.audio.maxblk →
    exec (.proc sel n) s = .next
      (if n = 0 then { s with audio := { s.audio with lasterrA := 0 } }
      else
        { s with
          audio := { s.audio with
            lasterrA := 0, busy := true
            inflight := some (.proc (if sel.toNat = 1 then .mono else .stereo) n.toNat) }
          reverb := { s.reverb with st := s.ctrl.pt, bypL := s.ctrl.bypass } })

/-- 45_modulated_delay.md R205 to R208: the modulated-delay commands on an initialised block. -/
def Obligations.ModulatedDelayCommands : Prop :=
  ∀ s : State, s.audio.initf = true →
    (∀ depth rate : F32, exec (.msetm depth rate) s = .next
      { s with
        audio := { s.audio with lasterrA := 0 }
        modu := { s.modu with
          depth := if isFinite32 depth then depth else zero32
          rate := if isFinite32 rate then rate else zero32 } }) ∧
    (∀ base : F32, exec (.msetb base) s = .next
      { s with
        audio := { s.audio with lasterrA := 0 }
        modu := { s.modu with base := clamp32 base one32 (float32 (s.audio.cap - 1)) } }) ∧
    (exec .mclr s = .next
      { s with
        audio := { s.audio with lasterrA := 0 }
        modu := { s.modu with
          phase := zero64
          line := ⟨s.modu.line.size, [], 0, clamp32 s.modu.base one32 (float32 (s.audio.cap - 1))⟩ } }) ∧
    (∀ n : BitVec 16, n ≤ s.audio.maxblk → exec (.mproc n) s = .next
      (if n = 0 then { s with audio := { s.audio with lasterrA := 0 } }
      else { s with audio := { s.audio with lasterrA := 0, busy := true, inflight := some (.mproc n.toNat) } }))

/-- 47_engine_facade.md R256, R258: the setters store the clamped value, or the clamped value of the normalized one, as the host-visible target,
for every encoding of the operand, and set `PRESET` to Custom. The mappings are those of 46_parameter_smoother.md R226 (linear) and
R227 (exponential, decayTime only). -/
def Obligations.SettersStoreClampedTargets : Prop :=
  ∀ (sel : BitVec 4) (p : Param) (v : F32) (s : State), paramOfSel sel = some p →
    let lo := paramLo p
    let hi := paramHi p
    let x := clamp32 v zero32 one32
    exec (.setp sel v) s = .next
      { s with ctrl := { s.ctrl with pt := s.ctrl.pt.set p (clamp32 v lo hi), preset := .custom, lasterrC := 0 } } ∧
    exec (.setpn sel v) s = .next
      { s with ctrl := { s.ctrl with
          pt := s.ctrl.pt.set p (clamp32
            (if p = .decayTime then
              clamp32 (round32 (mul64 (f64 lo) (Config.pow64 (div64 (f64 hi) (f64 lo)) (f64 x)))) lo hi
            else clamp32 (add32 lo (mul32 x (sub32 hi lo))) lo hi) lo hi)
          preset := .custom, lasterrC := 0 } }

/-- 47_engine_facade.md R257, R259: the getters answer the host-visible target, or its normalized value, and change nothing else. The mappings
are those of 46_parameter_smoother.md R226 (linear) and R227 (exponential, decayTime only). -/
def Obligations.GettersAnswerTheTargets : Prop :=
  ∀ (sel : BitVec 4) (p : Param) (s : State), paramOfSel sel = some p →
    let lo := paramLo p
    let hi := paramHi p
    let v := s.ctrl.pt.get p
    exec (.getp sel) s = .next
      { s with
        ctrl := { s.ctrl with lasterrC := 0 }
        ports := { s.ports with cresp := s.ports.cresp ++ [v] } } ∧
    exec (.getpn sel) s = .next
      { s with
        ctrl := { s.ctrl with lasterrC := 0 }
        ports := { s.ports with cresp := s.ports.cresp ++
          [if p = .decayTime then
            clamp32 (round32 (div64 (Config.ln64 (div64 (f64 v) (f64 lo))) (Config.ln64 (div64 (f64 hi) (f64 lo))))) zero32 one32
          else clamp32 (div32 (sub32 v lo) (sub32 hi lo)) zero32 one32] } }

/-- 47_engine_facade.md R260, R261: SETBYP stores `SEL[0]` as the bypass request and nothing else; GETBYP answers the request, not the value the
block in flight latched. -/
def Obligations.BypassCommands : Prop :=
  ∀ s : State,
    (∀ sel : BitVec 4, sel.toNat ≤ 1 → exec (.setbyp sel) s = .next
      { s with ctrl := { s.ctrl with bypass := decide (sel.toNat = 1), lasterrC := 0 } }) ∧
    exec .getbyp s = .next
      { s with
        ctrl := { s.ctrl with lasterrC := 0 }
        ports := { s.ports with cresp := s.ports.cresp ++ [if s.ctrl.bypass then 1 else 0] } }

/-- 47_engine_facade.md R262, R263: SETPRE writes all seven targets of its preset, each clamped, and the preset register in one step; for Custom no
target changes. GETPRE answers the preset code. -/
def Obligations.PresetCommands : Prop :=
  ∀ s : State,
    (∀ (c : Preset) (sel : BitVec 4), presetOfSel sel = some c → exec (.setpre sel) s = .next
      { s with ctrl := { s.ctrl with
          pt := match s.cfg.presetTable.row? c with
            | some row => perParam fun p => clamp32 (row.get p) (paramLo p) (paramHi p)
            | none => s.ctrl.pt
          preset := c, lasterrC := 0 } }) ∧
    exec .getpre s = .next
      { s with
        ctrl := { s.ctrl with lasterrC := 0 }
        ports := { s.ports with cresp := s.ports.cresp ++
          [match s.ctrl.preset with | .clean => 0 | .vocalBooth => 1 | .studio => 2 | .cathedral => 3 | .custom => 4] } }

/-- 47_engine_facade.md R264, R274, R267: ISINIT answers `INITF`; GETCPU answers some binary64, low word first, and draws afresh the next time (the
drawn value is free, log entry 4); CLRERR clears `STICKY` and keeps `LASTERR_A`. -/
def Obligations.InitFlagCpuAndClrerrCommands : Prop :=
  ∀ s : State,
    exec .isinit s = .next
      { s with
        ctrl := { s.ctrl with lasterrC := 0 }
        ports := { s.ports with cresp := s.ports.cresp ++ [if s.audio.initf then 1 else 0] } } ∧
    (∃ u : F64, exec .getcpu s = .next
      { s with
        ctrl := { s.ctrl with lasterrC := 0 }
        ports := { s.ports with cresp := s.ports.cresp ++ [u.extractLsb' 0 32, u.extractLsb' 32 32] }
        env := { s.env with cpuDraws := s.env.cpuDraws + 1 } }) ∧
    exec .clrerr s = .next { s with ctrl := { s.ctrl with lasterrC := 0 }, sticky := 0 }

/-- 47_engine_facade.md R265, 30_encoding.md R95: GETSTAT answers the status word, field by field, and `STICKY`, and changes nothing else, not
even `LASTERR_C`. -/
def Obligations.GetstatAnswersTheStatus : Prop :=
  ∀ s : State, ∃ w : Word,
    exec .getstat s = .next { s with ports := { s.ports with cresp := s.ports.cresp ++ [w, s.sticky.zeroExtend 32] } } ∧
    w.getLsbD 0 = s.audio.initf ∧ w.getLsbD 1 = s.ctrl.bypass ∧ w.getLsbD 2 = s.audio.busy ∧ w.getLsbD 3 = false ∧
    w.extractLsb' 4 3 = presetCode s.ctrl.preset ∧ w.getLsbD 7 = false ∧
    w.extractLsb' 8 8 = s.audio.lasterrA ∧ w.extractLsb' 16 8 = s.ctrl.lasterrC ∧ w.extractLsb' 24 8 = 0

/-- 47_engine_facade.md R268, 46_parameter_smoother.md R223: ISSMOOTH compares the smoother's current value with the host-visible target. -/
def Obligations.IssmoothComparesWithTheHostTarget : Prop :=
  ∀ (sel : BitVec 4) (p : Param) (s : State), paramOfSel sel = some p → s.audio.initf = true →
    exec (.issmooth sel) s = .next
      { s with
        ctrl := { s.ctrl with lasterrC := 0 }
        ports := { s.ports with cresp := s.ports.cresp ++
          [if lt64 s.cfg.smoothEps (abs64 (sub64 (s.reverb.cur.get p) (f64 (s.ctrl.pt.get p)))) then 1 else 0] } }

/-! ### Arithmetic, memory and the units -/

/-- 00_scope.md R9, R10, R12, 60_exceptions.md R303: an encoding's value is that of its fields; an exact value is rounded to a nearest number of
the format, the even one of two that are equally near, and from half a step above the largest number on to infinity; every sum,
difference, product, quotient by a number that is not zero, and `round32`, of finite operands is its exact result rounded once, with the
result's sign; `f64`, `float32` below `2^24` and integers below `2^53` as binary64 are exact; flushing makes of a subnormal a zero of its sign and keeps every other encoding. The sign of a zero result
is IEEE 754's, which the spec names without spelling it out (log entry 10). -/
def Obligations.RoundingIsToNearestTiesToEven : Prop :=
  (fmt32.infEnc = 0x7F800000 ∧ fmt64.infEnc = 0x7FF0000000000000 ∧ fmt32.one = 2 ^ 149 ∧ fmt64.one = 2 ^ 1074) ∧
  (∀ f : Fmt, f = fmt32 ∨ f = fmt64 →
    (∀ e m : Nat, m < 2 ^ f.frac →
      f.magOf m = m ∧ f.magOf ((e + 1) * 2 ^ f.frac + m) = (2 ^ f.frac + m) * 2 ^ e) ∧
    (∀ (s : Bool) (n : Nat), n ≤ f.infEnc →
      f.unpack (f.signed s n) = if n = f.infEnc then .inf s else .fin s (f.magOf n)) ∧
    (∀ num den n : Nat, 0 < den → f.roundMag num den < f.infEnc → n < f.infEnc →
      let near : Int := (f.magOf (f.roundMag num den) : Int) * den - num
      let other : Int := (f.magOf n : Int) * den - num
      near.natAbs ≤ other.natAbs ∧ (near.natAbs = other.natAbs → n = f.roundMag num den ∨ f.roundMag num den % 2 = 0)) ∧
    (∀ num den : Nat, 0 < den →
      (2 * num < (f.magOf (f.infEnc - 1) + f.magOf f.infEnc) * den → f.roundMag num den < f.infEnc) ∧
      ((f.magOf (f.infEnc - 1) + f.magOf f.infEnc) * den ≤ 2 * num → f.roundMag num den = f.infEnc))) ∧
  (∀ (a b : F32) (s t : Bool) (x y : Nat), fmt32.unpack a.toNat = .fin s x → fmt32.unpack b.toNat = .fin t y →
    let sum := signedInt s x + signedInt t y
    let diff := signedInt s x - signedInt t y
    add32 a b = BitVec.ofNat 32 (fmt32.signed (sumSign s t sum) (fmt32.roundMag sum.natAbs 1)) ∧
    sub32 a b = BitVec.ofNat 32 (fmt32.signed (sumSign s (!t) diff) (fmt32.roundMag diff.natAbs 1)) ∧
    mul32 a b = BitVec.ofNat 32 (fmt32.signed (s != t) (fmt32.roundMag (x * y) fmt32.one)) ∧
    (y ≠ 0 → div32 a b = BitVec.ofNat 32 (fmt32.signed (s != t) (fmt32.roundMag (x * fmt32.one) y)))) ∧
  (∀ (a b : F64) (s t : Bool) (x y : Nat), fmt64.unpack a.toNat = .fin s x → fmt64.unpack b.toNat = .fin t y →
    let sum := signedInt s x + signedInt t y
    let diff := signedInt s x - signedInt t y
    add64 a b = BitVec.ofNat 64 (fmt64.signed (sumSign s t sum) (fmt64.roundMag sum.natAbs 1)) ∧
    sub64 a b = BitVec.ofNat 64 (fmt64.signed (sumSign s (!t) diff) (fmt64.roundMag diff.natAbs 1)) ∧
    mul64 a b = BitVec.ofNat 64 (fmt64.signed (s != t) (fmt64.roundMag (x * y) fmt64.one)) ∧
    (y ≠ 0 → div64 a b = BitVec.ofNat 64 (fmt64.signed (s != t) (fmt64.roundMag (x * fmt64.one) y)))) ∧
  (∀ (x : F64) (s : Bool) (m : Nat), fmt64.unpack x.toNat = .fin s m →
    round32 x = BitVec.ofNat 32 (fmt32.signed s (fmt32.roundMag m (2 ^ 925)))) ∧
  (∀ (a : F32) (s : Bool) (m : Nat), fmt32.unpack a.toNat = .fin s m → fmt64.unpack (f64 a).toNat = .fin s (m * 2 ^ 925)) ∧
  (∀ n : Nat, n < 2 ^ 24 → fmt32.unpack (float32 n).toNat = .fin false (n * fmt32.one)) ∧
  (∀ n : Int, n.natAbs < 2 ^ 53 → fmt64.unpack (float64 n).toNat = .fin (decide (n < 0)) (n.natAbs * fmt64.one)) ∧
  (∀ v : F32, ftz32 v =
    if 0 < v.toNat % 2 ^ 31 ∧ v.toNat % 2 ^ 31 < 2 ^ 23 then (if v.msb then 0x80000000 else 0x00000000) else v) ∧
  ∀ v : F64, ftz64 v =
    if 0 < v.toNat % 2 ^ 63 ∧ v.toNat % 2 ^ 63 < 2 ^ 52 then (if v.msb then 0x8000000000000000 else 0x0000000000000000) else v

/-- 00_scope.md R10: comparisons of finite operands are those of their values, an infinity bounds every number, and with a NaN operand every
comparison but `!=` is false. R11: the clamp's result, for every operand and every pair of bounds that are no NaN, and the same on
integers. -/
def Obligations.ClampFollowsItsLaw : Prop :=
  (∀ (a b : F32) (s t : Bool) (x y : Nat), fmt32.unpack a.toNat = .fin s x → fmt32.unpack b.toNat = .fin t y →
    (le32 a b = true ↔ signedInt s x ≤ signedInt t y) ∧ (eq32 a b = true ↔ signedInt s x = signedInt t y)) ∧
  (∀ (a b : F64) (s t : Bool) (x y : Nat), fmt64.unpack a.toNat = .fin s x → fmt64.unpack b.toNat = .fin t y →
    (le64 a b = true ↔ signedInt s x ≤ signedInt t y) ∧ (lt64 a b = true ↔ signedInt s x < signedInt t y) ∧
    (eq64 a b = true ↔ signedInt s x = signedInt t y)) ∧
  (∀ a : F32, isNaN32 a = false → le32 0xFF800000 a = true ∧ le32 a 0x7F800000 = true) ∧
  (∀ a b : F32, isNaN32 a = true ∨ isNaN32 b = true → le32 a b = false ∧ eq32 a b = false ∧ ne32 a b = true) ∧
  (∀ a b : F64, isNaN64 a = true ∨ isNaN64 b = true → le64 a b = false ∧ lt64 a b = false ∧ eq64 a b = false) ∧
  (∀ x lo hi : Int, (hi < lo → clampInt x lo hi = lo) ∧ (lo ≤ hi → clampInt x lo hi = max lo (min x hi))) ∧
  ∀ x lo hi : F32, isNaN32 lo = false → isNaN32 hi = false →
    (isNaN32 x = true → clamp32 x lo hi = lo) ∧
    (le32 lo hi = false → clamp32 x lo hi = lo) ∧
    (isNaN32 x = false → le32 lo hi = true → le32 lo x = false → clamp32 x lo hi = lo) ∧
    (isNaN32 x = false → le32 lo hi = true → le32 x hi = false → clamp32 x lo hi = hi) ∧
    (le32 lo x = true → le32 x hi = true → clamp32 x lo hi = x)

/-- 20_memory.md R60: in a buffer in canonical form a read gives the value last written to its cell and every other cell keeps its value; a
write inside the buffer keeps the canonical form; equal contents are equal data. -/
def Obligations.CellReadsGiveTheLastWrite : Prop :=
  ∀ (size : Nat) (m : CellMem), CellMem.wf size m = true →
    (∀ (k j : Nat) (v : F32), k < size →
      cellRead (cellWrite m k v) j = (if j = k then v else cellRead m j) ∧ CellMem.wf size (cellWrite m k v) = true) ∧
    (∀ m' : CellMem, CellMem.wf size m' = true → (∀ k, cellRead m k = cellRead m' k) → m = m')

/-- 40_delay_line.md R112: DL.SETDELAY clamps every operand into `[1, C-1]` and touches neither buffer nor cursor. -/
def Obligations.DelaysAreClampedIntoRange : Prop :=
  ∀ (cap : Nat) (l : DelayLine) (d : F32), 2 ≤ cap →
    let t := dlSetDelay cap l d
    le32 one32 t.d = true ∧ le32 t.d (float32 (cap - 1)) = true ∧
    (isNaN32 d = true ∨ le32 one32 d = false → t.d = one32) ∧
    (isNaN32 d = false → le32 d (float32 (cap - 1)) = false → t.d = float32 (cap - 1)) ∧
    (le32 one32 d = true → le32 d (float32 (cap - 1)) = true → t.d = d) ∧
    t.cells = l.cells ∧ t.w = l.w ∧ t.size = l.size

/-- 40_delay_line.md R118: PROCESS equals PEEK then PUSH, bit for bit, for every legal line of a block (capacity at most `2^24`, beyond the
largest capacity of 00_scope.md R7). Where the tap is a NaN this rests on equal operations on equal operands giving equal NaN bits,
the model's choice (log entry 5). -/
def Obligations.ProcessIsPeekThenPush : Prop :=
  ∀ (cap : Nat) (l : DelayLine) (x : F32), cap ≤ 2 ^ 24 → l.w < cap →
    le32 one32 l.d = true → le32 l.d (float32 (cap - 1)) = true →
    dlProcess cap l x = (dlPush cap l x, dlPeek cap l)

/-- 40_delay_line.md R119: with an integer delay `d`, the output is the value pushed `d` pushes ago (a subnormal as a zero of its sign, R116), or
+0.0 if fewer than `d` pushes have happened since the line was cleared. R111, R113, R120: with any legal delay `D` and `k = ceil(D)`,
`frac = k - D`, the tap reads the cell `k` before the cursor where `frac` is 0, else weights it by `1 - frac` and the cell after it by
`frac`: the values pushed `k` and `k - 1` pushes ago. A NaN among the values is the model's choice of bits (log entry 5). -/
def Obligations.IntegerDelayIsPure : Prop :=
  (∀ (cap d : Nat) (l : DelayLine), cap ≤ 2 ^ 24 → 1 ≤ d → d ≤ cap - 1 → l.d = float32 d → l.w < cap → CellMem.wf cap l.cells = true →
    (∀ (x : F32) (ys : List F32), ys.length + 1 = d →
      dlPeek cap (ys.foldl (dlPush cap) (dlPush cap l x)) = ftz32 x) ∧
    (∀ ys : List F32, ys.length < d → dlPeek cap (ys.foldl (dlPush cap) (dlClear l)) = zero32)) ∧
  ∀ (cap : Nat) (l : DelayLine), cap ≤ 2 ^ 24 → l.w < cap → le32 one32 l.d = true → le32 l.d (float32 (cap - 1)) = true →
    let k := (ceil32 l.d).toNat
    let frac := sub32 (float32 k) l.d
    let older := (l.w + cap - k) % cap
    let newer := (older + 1) % cap
    (1 ≤ k ∧ k ≤ cap - 1 ∧ le32 l.d (float32 k) = true ∧ le32 l.d (float32 (k - 1)) = false) ∧
    dlPeek cap l = (if eq32 frac zero32 then cellRead l.cells older
      else add32 (mul32 (cellRead l.cells older) (sub32 one32 frac)) (mul32 (cellRead l.cells newer) frac)) ∧
    ∀ (x y : F32) (ys : List F32), CellMem.wf cap l.cells = true → ys.length + 2 = k →
      dlPeek cap (ys.foldl (dlPush cap) (dlPush cap (dlPush cap l x) y)) =
        if eq32 frac zero32 then ftz32 x else add32 (mul32 (ftz32 x) (sub32 one32 frac)) (mul32 (ftz32 y) frac)

/-- 41_allpass.md R131: AP.PROCESS of a stage puts out `-g * x + d` with `d` the stage's current tap, which is `d - g * x` bit for bit wherever that
is no NaN (a NaN's bits are the model's choice, log entry 5); its one push stores `x + g * d`, flushed, in the cell at the cursor, and it
keeps every other cell, the delay (R130) and the size. -/
def Obligations.AllPassSubtractionForm : Prop :=
  ∀ (cap : Nat) (g x : F32) (l : DelayLine),
    let d := dlPeek cap l
    let r := apProcess cap g l x
    r.2 = add32 (mul32 (neg32 g) x) d ∧
    (isNaN32 (sub32 d (mul32 g x)) = false → r.2 = sub32 d (mul32 g x)) ∧
    PushedOnce cap l r.1 ∧ r.1.d = l.d ∧
    ∀ size, CellMem.wf size l.cells = true → cellRead r.1.cells l.w = ftz32 (add32 x (mul32 g d))

/-- 42_damping.md R140, R141, R144: the coefficient is `1 - amount` of the clamped amount; with coefficient +0.0 a finite, non-zero,
non-subnormal state is kept whatever finite input comes, and with coefficient 1.0 a finite input replaces it. -/
def Obligations.DampingAtItsCorners : Prop :=
  (∀ a : F32, isNaN32 a = true ∨ le32 a zero32 = true → dampCoeff a = one32) ∧
  (∀ a : F32, le32 one32 a = true → dampCoeff a = zero32) ∧
  (∀ z x : F32, isFinite32 z = true → isFinite32 x = true → isSubnormal32 z = false → z ≠ zero32 → z ≠ 0x80000000 →
    dampProcess zero32 z x = z) ∧
  (∀ z x : F32, isFinite32 z = true → isFinite32 x = true → isSubnormal32 x = false → x ≠ zero32 → x ≠ 0x80000000 →
    dampProcess one32 z x = x)

/-- 44_feedback_matrix.md R180: every delay length is the scaled basis value `floor(PRIME_BASIS[i] * room)` clamped between `LEN_MIN` and the
bound `floor(FS * 0.08 * room)`, where `LEN_MIN` wins over a smaller bound. 00_scope.md R8: `floor` of a finite number is the largest
integer that is not above it. -/
def Obligations.LengthsLieBetweenTheirBounds : Prop :=
  (∀ (x : F64) (s : Bool) (m : Nat), fmt64.unpack x.toNat = .fin s m →
    floor64 x * fmt64.one ≤ signedInt s m ∧ signedInt s m < (floor64 x + 1) * fmt64.one) ∧
  ∀ (cfg : Params) (fs : F64) (room : F32) (i : Fin 8),
    let hi := floor64 (mul64 (mul64 fs 0x3FB47AE147AE147B) (f64 room))
    let a := floor64 (mul64 (float64 cfg.primeBasis[i]) (f64 room))
    100 ≤ (matLengths cfg fs room)[i] ∧ ((matLengths cfg fs room)[i] : Int) ≤ max 100 hi ∧
    (hi ≤ 100 → (matLengths cfg fs room)[i] = 100) ∧
    (a ≤ 100 → (matLengths cfg fs room)[i] = 100) ∧
    (100 ≤ a → a ≤ hi → ((matLengths cfg fs room)[i] : Int) = a) ∧
    (100 ≤ hi → hi ≤ a → ((matLengths cfg fs room)[i] : Int) = hi)

/-- 44_feedback_matrix.md R182, R184, R187: the entries of `H` are -3/4 on the diagonal and 1/4 elsewhere, `H` is its own inverse, and every entry
of the scaled matrix is the gain times that entry, rounded. -/
def Obligations.HouseholderIsItsOwnInverse : Prop :=
  let quarter : Fin 8 → Fin 8 → Int := fun i j => if i = j then -3 else 1
  (∀ i j : Fin 8, fmt32.unpack (householder i j).toNat =
    .fin (decide (quarter i j < 0)) ((quarter i j).natAbs * 2 ^ 147)) ∧
  fmt32.one = 4 * 2 ^ 147 ∧
  (∀ i j : Fin 8, ((List.finRange 8).map fun k => quarter i k * quarter k j).sum = if i = j then 16 else 0) ∧
  ∀ (dg : F32) (i j : Fin 8), (matScale dg)[i][j] = mul32 dg (if i = j then 0xBF400000 else 0x3E800000)

/-- 44_feedback_matrix.md R185: MAT.APPLY accumulates the products of a row from `j = 0` to `j = 7`; a unit vector picks out its column (an entry
that is no zero, in a row of finite entries); a NaN in any line output reaches every matrix output. -/
def Obligations.NaNReachesEveryMatrixOutput : Prop :=
  ∀ m : Vector (Vector F32 8) 8,
    (∀ (o : Vector F32 8) (i : Fin 8), (matApply m o)[i] =
      add32 (add32 (add32 (add32 (add32 (add32 (add32 (mul32 m[i][0] o[0]) (mul32 m[i][1] o[1])) (mul32 m[i][2] o[2]))
        (mul32 m[i][3] o[3])) (mul32 m[i][4] o[4])) (mul32 m[i][5] o[5])) (mul32 m[i][6] o[6])) (mul32 m[i][7] o[7])) ∧
    (∀ i j : Fin 8, (∀ k : Fin 8, isFinite32 m[i][k] = true) → m[i][j] ≠ zero32 → m[i][j] ≠ 0x80000000 →
      (matApply m (tab8 fun k => if k = j then one32 else zero32))[i] = m[i][j]) ∧
    ∀ (o : Vector F32 8) (j : Fin 8), isNaN32 o[j] = true → ∀ i : Fin 8, isNaN32 (matApply m o)[i] = true

/-- 70_reset_and_hazards.md R343: once a damping state is a NaN, it stays one through every processed frame, and the wet signal of each such
frame is a NaN on the mono output and on the side its line belongs to (43_fdn_core.md R161), at every parameter setting. -/
def Obligations.NaNStateStays : Prop :=
  ∀ (cfg : Params) (fs : F64) (cap : Nat) (k : F64) (r : Reverb) (x : Frame) (i : Fin 8), isNaN32 r.z[i] = true →
    isNaN32 (fdnFrame cfg fs cap k r x).1.z[i] = true ∧
    match (fdnFrame cfg fs cap k r x).2 with
    | .mono y => isNaN32 y = true
    | .stereo y1 y2 => if i.val % 2 = 1 then isNaN32 y1 = true else isNaN32 y2 = true

/-- 45_modulated_delay.md R203: the phase that MOD.PROCESS leaves lies in `[0, TWO_PI)` for every unit state and every sample rate. -/
def Obligations.PhaseStaysInRange : Prop :=
  ∀ (fs : F64) (cap : Nat) (u : ModUnit) (x : F32),
    le64 zero64 (modProcess fs cap u x).1.phase = true ∧ lt64 (modProcess fs cap u x).1.phase 0x401921FB54442D18 = true

/-! ### Frames and blocks -/

/-- 47_engine_facade.md R253, 20_memory.md R65, 43_fdn_core.md R150 to R162: a processed frame takes its words from `IN`, puts as many on `OUT`,
counts one frame off and drops `BUSY` after the last; every register and line of the path and the words put out are those of
FDN.FRAME (`ProcessedPath`: SM.NEXT, FDN.APPLY, FDN.STEP with its stages in index order, mix); in every delay line it stores only to the cell at that line's cursor;
all state outside the path and these queues is left alone. A NaN among the values is the model's choice of bits (log entry 5). -/
def Obligations.ProcessedFrameStoresAtTheCursors : Prop :=
  ∀ (s t : State) (ch : Channels) (n : Nat), s.audio.inflight = some (.proc ch (n + 1)) → s.reverb.bypL = false →
    frameStep s = some t →
    ∃ x y : Frame, x.words.length = ch.count ∧ y.words.length = ch.count ∧
      s.ports.inq = x.words ++ t.ports.inq ∧
      t.ports = { s.ports with inq := t.ports.inq, outq := s.ports.outq ++ y.words } ∧
      t.audio = { s.audio with busy := decide (n ≠ 0), inflight := if n = 0 then none else some (.proc ch n) } ∧
      t.cfg = s.cfg ∧ t.ctrl = s.ctrl ∧ t.sticky = s.sticky ∧ t.modu = s.modu ∧ t.env = s.env ∧
      ProcessedPath s.cfg s.audio.fs s.audio.cap s.audio.k x y s.reverb t.reverb ∧
      PushedOnce s.audio.cap s.reverb.pre t.reverb.pre ∧
      t.reverb.ap.length = s.reverb.ap.length ∧ (∀ l ∈ s.reverb.ap.zip t.reverb.ap, PushedOnce s.audio.cap l.1 l.2) ∧
      ∀ i : Fin 8, PushedOnce s.audio.cap s.reverb.fdn[i] t.reverb.fdn[i]

/-- 45_modulated_delay.md R207, R203: a frame of MPROC takes one word and gives one, whatever the bypass; the line's delay becomes
`base + depth * sin(phase)`, clamped, the word goes through the line, and the phase moves on by `2 pi * rate / FS`, wrapped; it stores
only to the cell at the cursor of the modulated line and leaves all other state alone. A NaN among the values is the model's choice of
bits (log entry 5). -/
def Obligations.ModulatedFrameStoresAtItsCursor : Prop :=
  ∀ (s t : State) (n : Nat), s.audio.inflight = some (.mproc (n + 1)) → frameStep s = some t →
    let u := s.modu
    let delay := clamp32 (round32 (add64 (f64 u.base) (mul64 (f64 u.depth) (Config.sin64 u.phase)))) one32
      (float32 (s.audio.cap - 1))
    let p := add64 u.phase (div64 (mul64 0x401921FB54442D18 (f64 u.rate)) s.audio.fs)
    let q := sub64 p (mul64 0x401921FB54442D18 (float64 (floor64 (div64 p 0x401921FB54442D18))))
    ∃ x y : Word, s.ports.inq = x :: t.ports.inq ∧
      t.ports = { s.ports with inq := t.ports.inq, outq := s.ports.outq ++ [y] } ∧
      t.audio = { s.audio with busy := decide (n ≠ 0), inflight := if n = 0 then none else some (.mproc n) } ∧
      t.cfg = s.cfg ∧ t.ctrl = s.ctrl ∧ t.sticky = s.sticky ∧ t.reverb = s.reverb ∧ t.env = s.env ∧
      t.modu = { u with phase := t.modu.phase, line := t.modu.line } ∧
      t.modu.phase = (if le64 zero64 q && lt64 q 0x401921FB54442D18 then q else zero64) ∧
      (t.modu.line, y) = dlProcess s.audio.cap { u.line with d := delay } x ∧
      PushedOnce s.audio.cap u.line t.modu.line

/-- 47_engine_facade.md R271, 43_fdn_core.md R163: a block whose latched bypass is 1 copies its input words to `OUT` bit for bit and advances
nothing, however many of its frames have run. -/
def Obligations.BypassedFramesCopyTheirWords : Prop :=
  ∀ (s t : State) (ch : Channels) (m k : Nat), s.audio.inflight = some (.proc ch (m + k)) → s.reverb.bypL = true →
    framesAfter k s = some t →
    ∃ ws : List Word, ws.length = k * ch.count ∧ s.ports.inq = ws ++ t.ports.inq ∧
      t = { s with
        audio := { s.audio with
          busy := if k = 0 then s.audio.busy else decide (m ≠ 0)
          inflight := if k = 0 then s.audio.inflight else if m = 0 then none else some (.proc ch m) }
        ports := { s.ports with inq := t.ports.inq, outq := s.ports.outq ++ ws } }

/-- 43_fdn_core.md R166: a block of `a + b` frames and two blocks of `a` and `b` frames on the same words end in the same state, outputs included,
and hold on the host alike, where nothing changes the targets or the bypass in between. Where outputs are NaNs this rests on equal
operations on equal operands giving equal NaN bits, the model's choice (log entry 5). -/
def Obligations.BlocksSplitAnywhere : Prop :=
  ∀ (s : State) (sel : BitVec 4) (a b : BitVec 16), a.toNat + b.toNat < 2 ^ 16 → s.audio.initf = true →
    sel.toNat = 1 ∨ sel.toNat = 2 → a.toNat + b.toNat ≤ s.audio.maxblk.toNat →
    runBlock (.proc sel (a + b)) (a.toNat + b.toNat) s =
      (runBlock (.proc sel a) a.toNat s).bind (runBlock (.proc sel b) b.toNat)

/-- 43_fdn_core.md R164: no output depends on crossFeed: two blocks that differ only in the crossFeed smoother's target and current value put out
the same words and keep differing only there. Where outputs are NaNs this rests on equal operations on equal operands giving equal NaN
bits, the model's choice (log entry 5). -/
def Obligations.CrossFeedReachesNoOutput : Prop :=
  ∀ (s : State) (n : Nat) (v : F32) (c : F64),
    let with' : State → F32 → F64 → State := fun u v c =>
      { u with reverb := { u.reverb with st := { u.reverb.st with crossFeed := v }, cur := { u.reverb.cur with crossFeed := c } } }
    (framesAfter n s = none → framesAfter n (with' s v c) = none) ∧
    (∀ t, framesAfter n s = some t → ∃ c', framesAfter n (with' s v c) = some (with' t v c'))

/-- 43_fdn_core.md R165, 45_modulated_delay.md R209: the modulated-delay unit is not in the path: frames of a PROC run the same whatever its state
is and leave it alone, and no frame of an MPROC reads or writes the path. Where outputs are NaNs this rests on equal operations on
equal operands giving equal NaN bits, the model's choice (log entry 5). -/
def Obligations.ModulatedUnitIsNotInThePath : Prop :=
  (∀ (s : State) (u : ModUnit) (ch : Channels) (m k : Nat), s.audio.inflight = some (.proc ch (m + k)) →
    framesAfter k { s with modu := u } = (framesAfter k s).map fun t => { t with modu := u }) ∧
  (∀ (s : State) (r : Reverb) (m k : Nat), s.audio.inflight = some (.mproc (m + k)) →
    framesAfter k { s with reverb := r } = (framesAfter k s).map fun t => { t with reverb := r })

/-- 47_engine_facade.md R272, 43_fdn_core.md R162: with a mix of exactly 0, a finite wet signal and an input that is no NaN and no -0.0, the output
is the input, and with a mix of exactly 1 a finite input does not reach it. -/
def Obligations.MixAtItsEnds : Prop :=
  (∀ x w : F32, isNaN32 x = false → x ≠ 0x80000000 → isFinite32 w = true → fdnMix zero32 x w = x) ∧
  (∀ x w : F32, isFinite32 x = true → isNaN32 w = false → w ≠ zero32 → w ≠ 0x80000000 → fdnMix one32 x w = w)

/-! ### Invariants and the life of the block -/

/-- The invariants of Safety.lean hold right after reset. The one on the smoothers' currents (46_parameter_smoother.md R233) speaks of an
initialised block only (log entry 20). -/
def Obligations.ResetMeetsTheInvariant : Prop := Inv State.reset

/-- Every step, from every state that meets the invariant, keeps it: queue bounds, status registers, the ranges of targets, currents and
frame values (46_parameter_smoother.md R233; of currents and values on an initialised block whose coefficient lies in `[0, 1]`, log
entry 20), legal delay lines in canonical form (40_delay_line.md R110), lengths and matrix (44_feedback_matrix.md R186), the modulated
unit (45_modulated_delay.md R200), no subnormal recirculating state (00_scope.md R12). -/
def Obligations.StepKeepsTheInvariant : Prop := ∀ s t : State, Inv s → step s = .next t → Inv t

/-- 44_feedback_matrix.md R183, R184, R186: the lengths and the matrix in use are always those of `AROOM` and `ADECAY`; a frame recomputes the lengths
exactly when its roomSize value differs from `AROOM`, and the gain and the matrix exactly when its decayTime value differs from
`ADECAY`. -/
def Obligations.LengthsAndMatrixFollowTheirParameters : Prop :=
  (∀ s t : State, MatrixCoherent s → step s = .next t → MatrixCoherent t) ∧
  ∀ (cfg : Params) (fs : F64) (cap : Nat) (v : PerParam F32) (r : Reverb),
    let t := fdnApply cfg fs cap v false r
    (eq32 v.roomSize r.aroom = true → t.aroom = r.aroom ∧ t.len = r.len ∧ t.fdn = r.fdn) ∧
    (eq32 v.roomSize r.aroom = false → t.aroom = v.roomSize ∧ t.len = matLengths cfg fs v.roomSize ∧
      ∀ i : Fin 8, t.fdn[i] = dlSetDelay cap r.fdn[i] (float32 (matLengths cfg fs v.roomSize)[i])) ∧
    (eq32 v.decayTime r.adecay = true → t.adecay = r.adecay ∧ t.dg = r.dg ∧ t.mat = r.mat) ∧
    (eq32 v.decayTime r.adecay = false →
      t.adecay = v.decayTime ∧ t.dg = matDecayGain fs v.decayTime ∧ t.mat = matScale (matDecayGain fs v.decayTime) ∧
      t.dg = round32 (Config.pow64 0x3F50624DD2F1A9FC
        (div64 0x3FF0000000000000 (mul64 (mul64 (f64 v.decayTime) fs) 0x3F50624DD2F1A9FC))) ∧
      ∀ i j : Fin 8, t.mat[i][j] = mul32 t.dg (if i = j then 0xBF400000 else 0x3E800000))

/-- 70_reset_and_hazards.md R330, 10_state.md section 6: the power-on values, at the reset pin from any state (the pin's effect in the model is one
step of the host's script, log entry 9; that the parameters and the script itself are kept is the model's choice). -/
def Obligations.ResetPinGivesPowerOnValues : Prop :=
  ∀ (s : State) (acts : List HostAct) (later : List Agent), s.env.host = .rst :: acts → s.env.sched = .host :: later →
    ∃ t, step s = .next t ∧
      t.audio = { initf := false, fs := 0, maxblk := 0, cap := 2, k := 0, lasterrA := 0, busy := false, inflight := none } ∧
      t.ctrl = { pt := powerOnTargets s.cfg, preset := s.cfg.poweronPreset, bypass := false, lasterrC := 0 } ∧ t.sticky = 0 ∧
      t.ports = { cport := [], aport := [], inq := [], outq := [], cresp := [], aresp := [] } ∧
      t.reverb.st = powerOnTargets s.cfg ∧ (∀ p, t.reverb.cur.get p = 0) ∧ t.reverb.bypL = false ∧
      t.reverb.aroom = 0 ∧ t.reverb.adecay = 0 ∧ (∀ i : Fin 8, t.reverb.len[i] = 100) ∧ t.reverb.dg = 0 ∧
      (∀ i j : Fin 8, t.reverb.mat[i][j] = 0) ∧ t.reverb.dampc = 0x3F800000 ∧ t.reverb.apg = 0 ∧
      (∀ i : Fin 8, t.reverb.z[i] = 0) ∧ (∀ l ∈ t.lines, l = ⟨0, [], 0, 0x3F800000⟩) ∧
      t.modu.base = 0x3F800000 ∧ t.modu.depth = 0 ∧ t.modu.rate = 0 ∧ t.modu.phase = 0 ∧
      t.cfg = s.cfg ∧ t.env = { s.env with host := acts, sched := later }

/-- 70_reset_and_hazards.md R330, R334 and the Studio row of 47_engine_facade.md R266: the state after reset with the reference parameters, and a
first INIT taken from it. -/
def Obligations.ResetStateRunsItsFirstInit : Prop :=
  State.reset.ctrl.pt = ⟨0x41F00000, 0x3FC00000, 0x41700000, 0x3E99999A, 0x3F000000, 0x3F333333, 0x3ECCCCCD⟩ ∧
  State.reset.ctrl.preset = .studio ∧ State.reset.audio.initf = false ∧ State.reset.audio.cap = 2 ∧
  statusWord State.reset = 0x00000020 ∧
  ∃ t, step (State.reset.withFetchWord 96 0x40E770000000000001000200) = .next t ∧
    t.audio.initf = true ∧ t.audio.fs = 0x40E7700000000000 ∧ t.audio.maxblk = 512 ∧ t.audio.cap = 48000 ∧ t.ports.aresp = [1] ∧
    t.reverb.len = #v[504, 551, 600, 650, 704, 755, 800, 854]

/-- 70_reset_and_hazards.md R355, 20_memory.md R72: an unscheduled step ends the run exactly when no agent has an enabled step, and the run is
then finished exactly when the command queues are empty, no command is in flight and the host has no word left to push. That the end
of a run is a fault of `step` is the model's choice (log entry 17). -/
def Obligations.RunsEndFinishedOrStuck : Prop :=
  ∀ s : State, s.env.sched = [] →
    ((∃ f, step s = .fault f) ↔ audioStep s = none ∧ ctrlStep s = none ∧ hostStep s = none) ∧
    (step s = .fault .finished ↔
      s.ports.cport = [] ∧ s.ports.aport = [] ∧ s.audio.inflight = none ∧ hostStep s = none ∧
        ∀ w, .pushCport w ∉ s.env.host ∧ .pushAport w ∉ s.env.host ∧ .pushIn w ∉ s.env.host) ∧
    (∀ r, step s ≠ .refused r)

/-- 30_encoding.md R96, R97: the acts of the host that source lines stand for: a command with its queue's prefix as its words on that queue, words
of the `IN` stream, and every pseudo-instruction, which R97 writes without a prefix, as its expansion. -/
def Obligations.PseudoInstructionsExpand : Prop :=
  assembleLine "A: init 48000.0, 512".toList = some [.pushAport 0x01000200, .pushAport 0x00000000, .pushAport 0x40E77000] ∧
  assembleLine "C: setp roomSize, 0.1".toList = some [.pushCport 0x10040000, .pushCport 0x3DCCCCCD] ∧
  assembleLine "C: nop".toList = some [.pushCport 0x00000000] ∧
  assembleLine "IN: 1.0, 0x7FC00001".toList = some [.pushIn 0x3F800000, .pushIn 0x7FC00001] ∧
  assembleLine "bypass on".toList = some [.pushCport 0x14010000] ∧
  assembleLine "bypass off".toList = some [.pushCport 0x14000000] ∧
  assembleLine "proc.mono 128".toList = some [.pushAport 0x04010080] ∧
  assembleLine "proc.stereo 512".toList = some [.pushAport 0x04020200] ∧
  assembleLine "preset Cathedral".toList = some [.pushCport 0x16030000] ∧
  assembleLine "mdelay 2.5".toList = some
    [.pushAport 0x08000000, .pushAport 0x00000000, .pushAport 0x00000000, .pushAport 0x09000000, .pushAport 0x40200000] ∧
  assembleLine "sync.c".toList = some [.pushCport 0x1A000000, .popCresp, .popCresp]
end

