-- ==== Sys2Proof/Laws/State.lean ====
section
/-! SUPPORT. What every named update of the state leaves alone and what it writes, one lemma per field and update, so that no proof
unfolds a record update. -/

namespace Sys2Proof

variable {α : Type}

@[simp] theorem PerParam.get_perParam (f : Param → α) (p : Param) : (perParam f).get p = f p := by cases p <;> rfl

theorem PerParam.ext_get {v w : PerParam α} (h : ∀ p, v.get p = w.get p) : v = w := by
  cases v; cases w
  have := h .wetDryMix; have := h .decayTime; have := h .preDelay; have := h .crossFeed; have := h .roomSize; have := h .density
  have := h .highFreqDamping
  simp_all [PerParam.get]

@[simp] theorem PerParam.get_set (v : PerParam α) (p q : Param) (x : α) :
    (v.set p x).get q = if q = p then x else v.get q := by simp [PerParam.set]

@[simp] theorem PerParam.perParam_get (v : PerParam α) : perParam v.get = v := PerParam.ext_get (by simp)

end Sys2Proof

namespace Sys2Proof.Machine

@[simp] theorem tab8_getElem {α : Type} (f : Fin 8 → α) (n : Nat) (h : n < 8) : (tab8 f)[n] = f ⟨n, h⟩ := by
  unfold tab8
  interval_cases n <;> rfl

theorem tab8_toList {α : Type} (f : Fin 8 → α) : (tab8 f).toList = [f 0, f 1, f 2, f 3, f 4, f 5, f 6, f 7] := rfl

theorem vector8_ext {α : Type} {v w : Vector α 8} (h : ∀ i : Fin 8, v[i] = w[i]) : v = w :=
  Vector.ext fun i hi => h ⟨i, hi⟩

@[simp] theorem tab8_self {α : Type} (v : Vector α 8) : (tab8 fun i => v[i]) = v := vector8_ext fun i => by simp

/-! `State.setLasterr` -/

@[simp] theorem State.setLasterr_cfg (s : State) (p : Port) (c : BitVec 8) : (s.setLasterr p c).cfg = s.cfg := by cases p <;> rfl
@[simp] theorem State.setLasterr_sticky (s : State) (p : Port) (c : BitVec 8) : (s.setLasterr p c).sticky = s.sticky := by cases p <;> rfl
@[simp] theorem State.setLasterr_reverb (s : State) (p : Port) (c : BitVec 8) : (s.setLasterr p c).reverb = s.reverb := by cases p <;> rfl
@[simp] theorem State.setLasterr_modu (s : State) (p : Port) (c : BitVec 8) : (s.setLasterr p c).modu = s.modu := by cases p <;> rfl
@[simp] theorem State.setLasterr_ports (s : State) (p : Port) (c : BitVec 8) : (s.setLasterr p c).ports = s.ports := by cases p <;> rfl
@[simp] theorem State.setLasterr_env (s : State) (p : Port) (c : BitVec 8) : (s.setLasterr p c).env = s.env := by cases p <;> rfl
@[simp] theorem State.setLasterr_audio_initf (s : State) (p : Port) (c : BitVec 8) :
    (s.setLasterr p c).audio.initf = s.audio.initf := by cases p <;> rfl
@[simp] theorem State.setLasterr_audio_fs (s : State) (p : Port) (c : BitVec 8) :
    (s.setLasterr p c).audio.fs = s.audio.fs := by cases p <;> rfl
@[simp] theorem State.setLasterr_audio_maxblk (s : State) (p : Port) (c : BitVec 8) :
    (s.setLasterr p c).audio.maxblk = s.audio.maxblk := by cases p <;> rfl
@[simp] theorem State.setLasterr_audio_cap (s : State) (p : Port) (c : BitVec 8) :
    (s.setLasterr p c).audio.cap = s.audio.cap := by cases p <;> rfl
@[simp] theorem State.setLasterr_audio_k (s : State) (p : Port) (c : BitVec 8) :
    (s.setLasterr p c).audio.k = s.audio.k := by cases p <;> rfl
@[simp] theorem State.setLasterr_audio_busy (s : State) (p : Port) (c : BitVec 8) :
    (s.setLasterr p c).audio.busy = s.audio.busy := by cases p <;> rfl
@[simp] theorem State.setLasterr_audio_inflight (s : State) (p : Port) (c : BitVec 8) :
    (s.setLasterr p c).audio.inflight = s.audio.inflight := by cases p <;> rfl
@[simp] theorem State.setLasterr_ctrl_pt (s : State) (p : Port) (c : BitVec 8) :
    (s.setLasterr p c).ctrl.pt = s.ctrl.pt := by cases p <;> rfl
@[simp] theorem State.setLasterr_ctrl_preset (s : State) (p : Port) (c : BitVec 8) :
    (s.setLasterr p c).ctrl.preset = s.ctrl.preset := by cases p <;> rfl
@[simp] theorem State.setLasterr_ctrl_bypass (s : State) (p : Port) (c : BitVec 8) :
    (s.setLasterr p c).ctrl.bypass = s.ctrl.bypass := by cases p <;> rfl
@[simp] theorem State.setLasterr_audio_ctrl (s : State) (c : BitVec 8) : (s.setLasterr .ctrl c).audio = s.audio := rfl
@[simp] theorem State.setLasterr_ctrl_audio (s : State) (c : BitVec 8) : (s.setLasterr .audio c).ctrl = s.ctrl := rfl
@[simp] theorem State.setLasterr_lasterrA (s : State) (c : BitVec 8) : (s.setLasterr .audio c).audio.lasterrA = c := rfl
@[simp] theorem State.setLasterr_lasterrC (s : State) (c : BitVec 8) : (s.setLasterr .ctrl c).ctrl.lasterrC = c := rfl
@[simp] theorem State.setLasterr_lasterr (s : State) (p : Port) (c : BitVec 8) : (s.setLasterr p c).lasterr p = c := by cases p <;> rfl

/-! `State.setSticky` -/

@[simp] theorem State.setSticky_cfg (s : State) (e : ErrCode) : (s.setSticky e).cfg = s.cfg := rfl
@[simp] theorem State.setSticky_ctrl (s : State) (e : ErrCode) : (s.setSticky e).ctrl = s.ctrl := rfl
@[simp] theorem State.setSticky_audio (s : State) (e : ErrCode) : (s.setSticky e).audio = s.audio := rfl
@[simp] theorem State.setSticky_reverb (s : State) (e : ErrCode) : (s.setSticky e).reverb = s.reverb := rfl
@[simp] theorem State.setSticky_modu (s : State) (e : ErrCode) : (s.setSticky e).modu = s.modu := rfl
@[simp] theorem State.setSticky_ports (s : State) (e : ErrCode) : (s.setSticky e).ports = s.ports := rfl
@[simp] theorem State.setSticky_env (s : State) (e : ErrCode) : (s.setSticky e).env = s.env := rfl
@[simp] theorem State.setSticky_sticky (s : State) (e : ErrCode) : (s.setSticky e).sticky = s.sticky ||| (1#16 <<< e.code) := rfl

/-! `State.pushResponses` -/

@[simp] theorem State.pushResponses_cfg (s : State) (p : Port) (ws : List Word) : (s.pushResponses p ws).cfg = s.cfg := by cases p <;> rfl
@[simp] theorem State.pushResponses_ctrl (s : State) (p : Port) (ws : List Word) :
    (s.pushResponses p ws).ctrl = s.ctrl := by cases p <;> rfl
@[simp] theorem State.pushResponses_audio (s : State) (p : Port) (ws : List Word) :
    (s.pushResponses p ws).audio = s.audio := by cases p <;> rfl
@[simp] theorem State.pushResponses_sticky (s : State) (p : Port) (ws : List Word) :
    (s.pushResponses p ws).sticky = s.sticky := by cases p <;> rfl
@[simp] theorem State.pushResponses_reverb (s : State) (p : Port) (ws : List Word) :
    (s.pushResponses p ws).reverb = s.reverb := by cases p <;> rfl
@[simp] theorem State.pushResponses_modu (s : State) (p : Port) (ws : List Word) :
    (s.pushResponses p ws).modu = s.modu := by cases p <;> rfl
@[simp] theorem State.pushResponses_env (s : State) (p : Port) (ws : List Word) : (s.pushResponses p ws).env = s.env := by cases p <;> rfl
@[simp] theorem State.pushResponses_ports_cport (s : State) (p : Port) (ws : List Word) :
    (s.pushResponses p ws).ports.cport = s.ports.cport := by cases p <;> rfl
@[simp] theorem State.pushResponses_ports_aport (s : State) (p : Port) (ws : List Word) :
    (s.pushResponses p ws).ports.aport = s.ports.aport := by cases p <;> rfl
@[simp] theorem State.pushResponses_ports_inq (s : State) (p : Port) (ws : List Word) :
    (s.pushResponses p ws).ports.inq = s.ports.inq := by cases p <;> rfl
@[simp] theorem State.pushResponses_ports_outq (s : State) (p : Port) (ws : List Word) :
    (s.pushResponses p ws).ports.outq = s.ports.outq := by cases p <;> rfl
@[simp] theorem State.pushResponses_responses (s : State) (p : Port) (ws : List Word) :
    (s.pushResponses p ws).responses p = s.responses p ++ ws := by cases p <;> rfl
@[simp] theorem State.pushResponses_aresp (s : State) (ws : List Word) :
    (s.pushResponses .audio ws).ports.aresp = s.ports.aresp ++ ws := rfl
@[simp] theorem State.pushResponses_cresp (s : State) (ws : List Word) :
    (s.pushResponses .ctrl ws).ports.cresp = s.ports.cresp ++ ws := rfl
@[simp] theorem State.pushResponses_aresp_ctrl (s : State) (ws : List Word) :
    (s.pushResponses .ctrl ws).ports.aresp = s.ports.aresp := rfl
@[simp] theorem State.pushResponses_cresp_audio (s : State) (ws : List Word) :
    (s.pushResponses .audio ws).ports.cresp = s.ports.cresp := rfl
@[simp] theorem State.pushResponses_nil (s : State) (p : Port) : s.pushResponses p [] = s := by cases p <;> simp [State.pushResponses]

/-! `State.setCommands` -/

@[simp] theorem State.setCommands_cfg (s : State) (p : Port) (q : List Word) : (s.setCommands p q).cfg = s.cfg := by cases p <;> rfl
@[simp] theorem State.setCommands_ctrl (s : State) (p : Port) (q : List Word) : (s.setCommands p q).ctrl = s.ctrl := by cases p <;> rfl
@[simp] theorem State.setCommands_audio (s : State) (p : Port) (q : List Word) : (s.setCommands p q).audio = s.audio := by cases p <;> rfl
@[simp] theorem State.setCommands_sticky (s : State) (p : Port) (q : List Word) :
    (s.setCommands p q).sticky = s.sticky := by cases p <;> rfl
@[simp] theorem State.setCommands_reverb (s : State) (p : Port) (q : List Word) :
    (s.setCommands p q).reverb = s.reverb := by cases p <;> rfl
@[simp] theorem State.setCommands_modu (s : State) (p : Port) (q : List Word) : (s.setCommands p q).modu = s.modu := by cases p <;> rfl
@[simp] theorem State.setCommands_env (s : State) (p : Port) (q : List Word) : (s.setCommands p q).env = s.env := by cases p <;> rfl
@[simp] theorem State.setCommands_ports_inq (s : State) (p : Port) (q : List Word) :
    (s.setCommands p q).ports.inq = s.ports.inq := by cases p <;> rfl
@[simp] theorem State.setCommands_ports_outq (s : State) (p : Port) (q : List Word) :
    (s.setCommands p q).ports.outq = s.ports.outq := by cases p <;> rfl
@[simp] theorem State.setCommands_ports_cresp (s : State) (p : Port) (q : List Word) :
    (s.setCommands p q).ports.cresp = s.ports.cresp := by cases p <;> rfl
@[simp] theorem State.setCommands_ports_aresp (s : State) (p : Port) (q : List Word) :
    (s.setCommands p q).ports.aresp = s.ports.aresp := by cases p <;> rfl
@[simp] theorem State.setCommands_commands (s : State) (p : Port) (q : List Word) :
    (s.setCommands p q).commands p = q := by cases p <;> rfl
@[simp] theorem State.setCommands_aport (s : State) (q : List Word) : (s.setCommands .audio q).ports.aport = q := rfl
@[simp] theorem State.setCommands_cport (s : State) (q : List Word) : (s.setCommands .ctrl q).ports.cport = q := rfl
@[simp] theorem State.setCommands_aport_ctrl (s : State) (q : List Word) : (s.setCommands .ctrl q).ports.aport = s.ports.aport := rfl
@[simp] theorem State.setCommands_cport_audio (s : State) (q : List Word) : (s.setCommands .audio q).ports.cport = s.ports.cport := rfl
@[simp] theorem State.setCommands_responses (s : State) (p : Port) (q : List Word) :
    (s.setCommands p q).responses p = s.responses p := by cases p <;> rfl

/-! `State.endWithError` -/

@[simp] theorem State.endWithError_cfg (s : State) (p : Port) (e : ErrCode) (n : Nat) :
    (s.endWithError p e n).cfg = s.cfg := by cases p <;> rfl
@[simp] theorem State.endWithError_reverb (s : State) (p : Port) (e : ErrCode) (n : Nat) :
    (s.endWithError p e n).reverb = s.reverb := by cases p <;> rfl
@[simp] theorem State.endWithError_modu (s : State) (p : Port) (e : ErrCode) (n : Nat) :
    (s.endWithError p e n).modu = s.modu := by cases p <;> rfl
@[simp] theorem State.endWithError_env (s : State) (p : Port) (e : ErrCode) (n : Nat) :
    (s.endWithError p e n).env = s.env := by cases p <;> rfl
@[simp] theorem State.endWithError_audio_initf (s : State) (p : Port) (e : ErrCode) (n : Nat) :
    (s.endWithError p e n).audio.initf = s.audio.initf := by cases p <;> rfl
@[simp] theorem State.endWithError_audio_fs (s : State) (p : Port) (e : ErrCode) (n : Nat) :
    (s.endWithError p e n).audio.fs = s.audio.fs := by cases p <;> rfl
@[simp] theorem State.endWithError_audio_maxblk (s : State) (p : Port) (e : ErrCode) (n : Nat) :
    (s.endWithError p e n).audio.maxblk = s.audio.maxblk := by cases p <;> rfl
@[simp] theorem State.endWithError_audio_cap (s : State) (p : Port) (e : ErrCode) (n : Nat) :
    (s.endWithError p e n).audio.cap = s.audio.cap := by cases p <;> rfl
@[simp] theorem State.endWithError_audio_k (s : State) (p : Port) (e : ErrCode) (n : Nat) :
    (s.endWithError p e n).audio.k = s.audio.k := by cases p <;> rfl
@[simp] theorem State.endWithError_audio_busy (s : State) (p : Port) (e : ErrCode) (n : Nat) :
    (s.endWithError p e n).audio.busy = s.audio.busy := by cases p <;> rfl
@[simp] theorem State.endWithError_audio_inflight (s : State) (p : Port) (e : ErrCode) (n : Nat) :
    (s.endWithError p e n).audio.inflight = s.audio.inflight := by cases p <;> rfl
@[simp] theorem State.endWithError_ctrl_pt (s : State) (p : Port) (e : ErrCode) (n : Nat) :
    (s.endWithError p e n).ctrl.pt = s.ctrl.pt := by cases p <;> rfl
@[simp] theorem State.endWithError_ctrl_preset (s : State) (p : Port) (e : ErrCode) (n : Nat) :
    (s.endWithError p e n).ctrl.preset = s.ctrl.preset := by cases p <;> rfl
@[simp] theorem State.endWithError_ctrl_bypass (s : State) (p : Port) (e : ErrCode) (n : Nat) :
    (s.endWithError p e n).ctrl.bypass = s.ctrl.bypass := by cases p <;> rfl
@[simp] theorem State.endWithError_ports_cport (s : State) (p : Port) (e : ErrCode) (n : Nat) :
    (s.endWithError p e n).ports.cport = s.ports.cport := by cases p <;> rfl
@[simp] theorem State.endWithError_ports_aport (s : State) (p : Port) (e : ErrCode) (n : Nat) :
    (s.endWithError p e n).ports.aport = s.ports.aport := by cases p <;> rfl
@[simp] theorem State.endWithError_ports_inq (s : State) (p : Port) (e : ErrCode) (n : Nat) :
    (s.endWithError p e n).ports.inq = s.ports.inq := by cases p <;> rfl
@[simp] theorem State.endWithError_ports_outq (s : State) (p : Port) (e : ErrCode) (n : Nat) :
    (s.endWithError p e n).ports.outq = s.ports.outq := by cases p <;> rfl
@[simp] theorem State.endWithError_sticky (s : State) (p : Port) (e : ErrCode) (n : Nat) :
    (s.endWithError p e n).sticky = s.sticky ||| (1#16 <<< e.code) := by cases p <;> rfl
@[simp] theorem State.endWithError_lasterr (s : State) (p : Port) (e : ErrCode) (n : Nat) :
    (s.endWithError p e n).lasterr p = BitVec.ofNat 8 e.code := by cases p <;> rfl
@[simp] theorem State.endWithError_responses (s : State) (p : Port) (e : ErrCode) (n : Nat) :
    (s.endWithError p e n).responses p = s.responses p ++ List.replicate n 0 := by cases p <;> rfl
@[simp] theorem State.endWithError_audio_ctrl (s : State) (e : ErrCode) (n : Nat) : (s.endWithError .ctrl e n).audio = s.audio := rfl
@[simp] theorem State.endWithError_ctrl_audio (s : State) (e : ErrCode) (n : Nat) : (s.endWithError .audio e n).ctrl = s.ctrl := rfl
@[simp] theorem State.endWithError_aresp_ctrl (s : State) (e : ErrCode) (n : Nat) :
    (s.endWithError .ctrl e n).ports.aresp = s.ports.aresp := rfl
@[simp] theorem State.endWithError_cresp_audio (s : State) (e : ErrCode) (n : Nat) :
    (s.endWithError .audio e n).ports.cresp = s.ports.cresp := rfl

/-! `launch`, `latchTargets`, `retire` -/

@[simp] theorem launch_cfg (f : InFlight) (s : State) : (launch f s).cfg = s.cfg := rfl
@[simp] theorem launch_ctrl (f : InFlight) (s : State) : (launch f s).ctrl = s.ctrl := rfl
@[simp] theorem launch_sticky (f : InFlight) (s : State) : (launch f s).sticky = s.sticky := rfl
@[simp] theorem launch_reverb (f : InFlight) (s : State) : (launch f s).reverb = s.reverb := rfl
@[simp] theorem launch_modu (f : InFlight) (s : State) : (launch f s).modu = s.modu := rfl
@[simp] theorem launch_ports (f : InFlight) (s : State) : (launch f s).ports = s.ports := rfl
@[simp] theorem launch_env (f : InFlight) (s : State) : (launch f s).env = s.env := rfl
@[simp] theorem launch_audio_initf (f : InFlight) (s : State) : (launch f s).audio.initf = s.audio.initf := rfl
@[simp] theorem launch_audio_fs (f : InFlight) (s : State) : (launch f s).audio.fs = s.audio.fs := rfl
@[simp] theorem launch_audio_maxblk (f : InFlight) (s : State) : (launch f s).audio.maxblk = s.audio.maxblk := rfl
@[simp] theorem launch_audio_cap (f : InFlight) (s : State) : (launch f s).audio.cap = s.audio.cap := rfl
@[simp] theorem launch_audio_k (f : InFlight) (s : State) : (launch f s).audio.k = s.audio.k := rfl
@[simp] theorem launch_audio_lasterrA (f : InFlight) (s : State) : (launch f s).audio.lasterrA = s.audio.lasterrA := rfl
@[simp] theorem launch_audio_busy (f : InFlight) (s : State) : (launch f s).audio.busy = true := rfl
@[simp] theorem launch_audio_inflight (f : InFlight) (s : State) : (launch f s).audio.inflight = some f := rfl
@[simp] theorem latchTargets_cfg (s : State) : (latchTargets s).cfg = s.cfg := rfl
@[simp] theorem latchTargets_ctrl (s : State) : (latchTargets s).ctrl = s.ctrl := rfl
@[simp] theorem latchTargets_audio (s : State) : (latchTargets s).audio = s.audio := rfl
@[simp] theorem latchTargets_sticky (s : State) : (latchTargets s).sticky = s.sticky := rfl
@[simp] theorem latchTargets_modu (s : State) : (latchTargets s).modu = s.modu := rfl
@[simp] theorem latchTargets_ports (s : State) : (latchTargets s).ports = s.ports := rfl
@[simp] theorem latchTargets_env (s : State) : (latchTargets s).env = s.env := rfl
@[simp] theorem latchTargets_reverb_cur (s : State) : (latchTargets s).reverb.cur = s.reverb.cur := rfl
@[simp] theorem latchTargets_reverb_aroom (s : State) : (latchTargets s).reverb.aroom = s.reverb.aroom := rfl
@[simp] theorem latchTargets_reverb_adecay (s : State) : (latchTargets s).reverb.adecay = s.reverb.adecay := rfl
@[simp] theorem latchTargets_reverb_len (s : State) : (latchTargets s).reverb.len = s.reverb.len := rfl
@[simp] theorem latchTargets_reverb_dg (s : State) : (latchTargets s).reverb.dg = s.reverb.dg := rfl
@[simp] theorem latchTargets_reverb_mat (s : State) : (latchTargets s).reverb.mat = s.reverb.mat := rfl
@[simp] theorem latchTargets_reverb_dampc (s : State) : (latchTargets s).reverb.dampc = s.reverb.dampc := rfl
@[simp] theorem latchTargets_reverb_apg (s : State) : (latchTargets s).reverb.apg = s.reverb.apg := rfl
@[simp] theorem latchTargets_reverb_pre (s : State) : (latchTargets s).reverb.pre = s.reverb.pre := rfl
@[simp] theorem latchTargets_reverb_ap (s : State) : (latchTargets s).reverb.ap = s.reverb.ap := rfl
@[simp] theorem latchTargets_reverb_fdn (s : State) : (latchTargets s).reverb.fdn = s.reverb.fdn := rfl
@[simp] theorem latchTargets_reverb_z (s : State) : (latchTargets s).reverb.z = s.reverb.z := rfl
@[simp] theorem latchTargets_reverb_st (s : State) : (latchTargets s).reverb.st = s.ctrl.pt := rfl
@[simp] theorem latchTargets_reverb_bypL (s : State) : (latchTargets s).reverb.bypL = s.ctrl.bypass := rfl
@[simp] theorem retire_cfg (f : Nat → InFlight) (n : Nat) (s : State) : (retire f n s).cfg = s.cfg := rfl
@[simp] theorem retire_ctrl (f : Nat → InFlight) (n : Nat) (s : State) : (retire f n s).ctrl = s.ctrl := rfl
@[simp] theorem retire_sticky (f : Nat → InFlight) (n : Nat) (s : State) : (retire f n s).sticky = s.sticky := rfl
@[simp] theorem retire_reverb (f : Nat → InFlight) (n : Nat) (s : State) : (retire f n s).reverb = s.reverb := rfl
@[simp] theorem retire_modu (f : Nat → InFlight) (n : Nat) (s : State) : (retire f n s).modu = s.modu := rfl
@[simp] theorem retire_ports (f : Nat → InFlight) (n : Nat) (s : State) : (retire f n s).ports = s.ports := rfl
@[simp] theorem retire_env (f : Nat → InFlight) (n : Nat) (s : State) : (retire f n s).env = s.env := rfl
@[simp] theorem retire_audio_initf (f : Nat → InFlight) (n : Nat) (s : State) : (retire f n s).audio.initf = s.audio.initf := rfl
@[simp] theorem retire_audio_fs (f : Nat → InFlight) (n : Nat) (s : State) : (retire f n s).audio.fs = s.audio.fs := rfl
@[simp] theorem retire_audio_maxblk (f : Nat → InFlight) (n : Nat) (s : State) : (retire f n s).audio.maxblk = s.audio.maxblk := rfl
@[simp] theorem retire_audio_cap (f : Nat → InFlight) (n : Nat) (s : State) : (retire f n s).audio.cap = s.audio.cap := rfl
@[simp] theorem retire_audio_k (f : Nat → InFlight) (n : Nat) (s : State) : (retire f n s).audio.k = s.audio.k := rfl
@[simp] theorem retire_audio_lasterrA (f : Nat → InFlight) (n : Nat) (s : State) : (retire f n s).audio.lasterrA = s.audio.lasterrA := rfl
@[simp] theorem retire_audio_busy (f : Nat → InFlight) (n : Nat) (s : State) : (retire f n s).audio.busy = decide (n ≠ 0) := rfl
@[simp] theorem retire_audio_inflight (f : Nat → InFlight) (n : Nat) (s : State) :
    (retire f n s).audio.inflight = if n = 0 then none else some (f n) := rfl

/-! `clearAll`, `configure`, `initialise` -/

@[simp] theorem clearAll_cfg (s : State) : (clearAll s).cfg = s.cfg := rfl
@[simp] theorem clearAll_ctrl (s : State) : (clearAll s).ctrl = s.ctrl := rfl
@[simp] theorem clearAll_audio (s : State) : (clearAll s).audio = s.audio := rfl
@[simp] theorem clearAll_sticky (s : State) : (clearAll s).sticky = s.sticky := rfl
@[simp] theorem clearAll_ports (s : State) : (clearAll s).ports = s.ports := rfl
@[simp] theorem clearAll_env (s : State) : (clearAll s).env = s.env := rfl
@[simp] theorem configure_cfg (n : BitVec 16) (fs : F64) (s : State) : (configure n fs s).cfg = s.cfg := rfl
@[simp] theorem configure_ctrl (n : BitVec 16) (fs : F64) (s : State) : (configure n fs s).ctrl = s.ctrl := rfl
@[simp] theorem configure_sticky (n : BitVec 16) (fs : F64) (s : State) : (configure n fs s).sticky = s.sticky := rfl
@[simp] theorem configure_ports (n : BitVec 16) (fs : F64) (s : State) : (configure n fs s).ports = s.ports := rfl
@[simp] theorem configure_env (n : BitVec 16) (fs : F64) (s : State) : (configure n fs s).env = s.env := rfl
@[simp] theorem configure_audio_initf (n : BitVec 16) (fs : F64) (s : State) : (configure n fs s).audio.initf = s.audio.initf := rfl
@[simp] theorem configure_audio_lasterrA (n : BitVec 16) (fs : F64) (s : State) :
    (configure n fs s).audio.lasterrA = s.audio.lasterrA := rfl
@[simp] theorem configure_audio_busy (n : BitVec 16) (fs : F64) (s : State) : (configure n fs s).audio.busy = s.audio.busy := rfl
@[simp] theorem configure_audio_inflight (n : BitVec 16) (fs : F64) (s : State) :
    (configure n fs s).audio.inflight = s.audio.inflight := rfl
@[simp] theorem configure_audio_fs (n : BitVec 16) (fs : F64) (s : State) : (configure n fs s).audio.fs = fs := rfl
@[simp] theorem configure_audio_maxblk (n : BitVec 16) (fs : F64) (s : State) : (configure n fs s).audio.maxblk = n := rfl
@[simp] theorem configure_audio_cap (n : BitVec 16) (fs : F64) (s : State) : (configure n fs s).audio.cap = capacityOf fs := rfl
@[simp] theorem configure_audio_k (n : BitVec 16) (fs : F64) (s : State) : (configure n fs s).audio.k = smCoeff s.cfg fs := rfl
@[simp] theorem initialise_cfg (n : BitVec 16) (fs : F64) (s : State) : (initialise n fs s).cfg = s.cfg := rfl
@[simp] theorem initialise_ctrl (n : BitVec 16) (fs : F64) (s : State) : (initialise n fs s).ctrl = s.ctrl := rfl
@[simp] theorem initialise_sticky (n : BitVec 16) (fs : F64) (s : State) : (initialise n fs s).sticky = s.sticky := rfl
@[simp] theorem initialise_ports (n : BitVec 16) (fs : F64) (s : State) : (initialise n fs s).ports = s.ports := rfl
@[simp] theorem initialise_env (n : BitVec 16) (fs : F64) (s : State) : (initialise n fs s).env = s.env := rfl
@[simp] theorem initialise_audio_lasterrA (n : BitVec 16) (fs : F64) (s : State) :
    (initialise n fs s).audio.lasterrA = s.audio.lasterrA := rfl
@[simp] theorem initialise_audio_busy (n : BitVec 16) (fs : F64) (s : State) : (initialise n fs s).audio.busy = s.audio.busy := rfl
@[simp] theorem initialise_audio_inflight (n : BitVec 16) (fs : F64) (s : State) :
    (initialise n fs s).audio.inflight = s.audio.inflight := rfl
@[simp] theorem initialise_audio_initf (n : BitVec 16) (fs : F64) (s : State) : (initialise n fs s).audio.initf = true := rfl
@[simp] theorem initialise_audio_fs (n : BitVec 16) (fs : F64) (s : State) : (initialise n fs s).audio.fs = fs := rfl
@[simp] theorem initialise_audio_maxblk (n : BitVec 16) (fs : F64) (s : State) : (initialise n fs s).audio.maxblk = n := rfl
@[simp] theorem initialise_audio_cap (n : BitVec 16) (fs : F64) (s : State) : (initialise n fs s).audio.cap = capacityOf fs := rfl
@[simp] theorem initialise_audio_k (n : BitVec 16) (fs : F64) (s : State) : (initialise n fs s).audio.k = smCoeff s.cfg fs := rfl

/-! `editTarget`, `answer` -/

@[simp] theorem editTarget_cfg (p : Param) (v : F32) (s : State) : (editTarget p v s).cfg = s.cfg := rfl
@[simp] theorem editTarget_audio (p : Param) (v : F32) (s : State) : (editTarget p v s).audio = s.audio := rfl
@[simp] theorem editTarget_sticky (p : Param) (v : F32) (s : State) : (editTarget p v s).sticky = s.sticky := rfl
@[simp] theorem editTarget_reverb (p : Param) (v : F32) (s : State) : (editTarget p v s).reverb = s.reverb := rfl
@[simp] theorem editTarget_modu (p : Param) (v : F32) (s : State) : (editTarget p v s).modu = s.modu := rfl
@[simp] theorem editTarget_ports (p : Param) (v : F32) (s : State) : (editTarget p v s).ports = s.ports := rfl
@[simp] theorem editTarget_env (p : Param) (v : F32) (s : State) : (editTarget p v s).env = s.env := rfl
@[simp] theorem editTarget_ctrl_bypass (p : Param) (v : F32) (s : State) : (editTarget p v s).ctrl.bypass = s.ctrl.bypass := rfl
@[simp] theorem editTarget_ctrl_lasterrC (p : Param) (v : F32) (s : State) : (editTarget p v s).ctrl.lasterrC = s.ctrl.lasterrC := rfl
@[simp] theorem editTarget_ctrl_preset (p : Param) (v : F32) (s : State) : (editTarget p v s).ctrl.preset = .custom := rfl
@[simp] theorem editTarget_ctrl_pt (p : Param) (v : F32) (s : State) : (editTarget p v s).ctrl.pt = s.ctrl.pt.set p (smTarget p v) := rfl
@[simp] theorem answer_cfg (ws : List Word) (s : State) : (answer ws s).cfg = s.cfg := rfl
@[simp] theorem answer_audio (ws : List Word) (s : State) : (answer ws s).audio = s.audio := rfl
@[simp] theorem answer_sticky (ws : List Word) (s : State) : (answer ws s).sticky = s.sticky := rfl
@[simp] theorem answer_reverb (ws : List Word) (s : State) : (answer ws s).reverb = s.reverb := rfl
@[simp] theorem answer_modu (ws : List Word) (s : State) : (answer ws s).modu = s.modu := rfl
@[simp] theorem answer_env (ws : List Word) (s : State) : (answer ws s).env = s.env := rfl
@[simp] theorem answer_ctrl_pt (ws : List Word) (s : State) : (answer ws s).ctrl.pt = s.ctrl.pt := rfl
@[simp] theorem answer_ctrl_preset (ws : List Word) (s : State) : (answer ws s).ctrl.preset = s.ctrl.preset := rfl
@[simp] theorem answer_ctrl_bypass (ws : List Word) (s : State) : (answer ws s).ctrl.bypass = s.ctrl.bypass := rfl
@[simp] theorem answer_ctrl_lasterrC (ws : List Word) (s : State) : (answer ws s).ctrl.lasterrC = 0 := rfl
@[simp] theorem answer_ports_cport (ws : List Word) (s : State) : (answer ws s).ports.cport = s.ports.cport := rfl
@[simp] theorem answer_ports_aport (ws : List Word) (s : State) : (answer ws s).ports.aport = s.ports.aport := rfl
@[simp] theorem answer_ports_inq (ws : List Word) (s : State) : (answer ws s).ports.inq = s.ports.inq := rfl
@[simp] theorem answer_ports_outq (ws : List Word) (s : State) : (answer ws s).ports.outq = s.ports.outq := rfl
@[simp] theorem answer_ports_aresp (ws : List Word) (s : State) : (answer ws s).ports.aresp = s.ports.aresp := rfl
@[simp] theorem answer_ports_cresp (ws : List Word) (s : State) : (answer ws s).ports.cresp = s.ports.cresp ++ ws := rfl

/-! Micro-operations on one delay line -/

@[simp] theorem dlSetDelay_size (cap : Nat) (l : DelayLine) (d : F32) : (dlSetDelay cap l d).size = l.size := rfl
@[simp] theorem dlSetDelay_cells (cap : Nat) (l : DelayLine) (d : F32) : (dlSetDelay cap l d).cells = l.cells := rfl
@[simp] theorem dlSetDelay_w (cap : Nat) (l : DelayLine) (d : F32) : (dlSetDelay cap l d).w = l.w := rfl
@[simp] theorem dlStore_size (l : DelayLine) (x : F32) : (dlStore l x).size = l.size := rfl
@[simp] theorem dlStore_w (l : DelayLine) (x : F32) : (dlStore l x).w = l.w := rfl
@[simp] theorem dlStore_d (l : DelayLine) (x : F32) : (dlStore l x).d = l.d := rfl
@[simp] theorem dlAdvance_size (cap : Nat) (l : DelayLine) : (dlAdvance cap l).size = l.size := rfl
@[simp] theorem dlAdvance_cells (cap : Nat) (l : DelayLine) : (dlAdvance cap l).cells = l.cells := rfl
@[simp] theorem dlAdvance_d (cap : Nat) (l : DelayLine) : (dlAdvance cap l).d = l.d := rfl
@[simp] theorem dlPush_size (cap : Nat) (l : DelayLine) (x : F32) : (dlPush cap l x).size = l.size := rfl
@[simp] theorem dlPush_d (cap : Nat) (l : DelayLine) (x : F32) : (dlPush cap l x).d = l.d := rfl
@[simp] theorem dlClear_size (l : DelayLine) : (dlClear l).size = l.size := rfl
@[simp] theorem dlClear_d (l : DelayLine) : (dlClear l).d = l.d := rfl
@[simp] theorem dlResize_cells (cap : Nat) (l : DelayLine) : (dlResize cap l).cells = l.cells := rfl
@[simp] theorem dlResize_w (cap : Nat) (l : DelayLine) : (dlResize cap l).w = l.w := rfl
@[simp] theorem dlResize_d (cap : Nat) (l : DelayLine) : (dlResize cap l).d = l.d := rfl
@[simp] theorem dlSetDelay_d (cap : Nat) (l : DelayLine) (d : F32) : (dlSetDelay cap l d).d = clampDelay cap d := rfl
@[simp] theorem dlStore_cells (l : DelayLine) (x : F32) : (dlStore l x).cells = cellWrite l.cells l.w (ftz32 x) := rfl
@[simp] theorem dlAdvance_w (cap : Nat) (l : DelayLine) : (dlAdvance cap l).w = (l.w + 1) % cap := rfl
@[simp] theorem dlPush_w (cap : Nat) (l : DelayLine) (x : F32) : (dlPush cap l x).w = (l.w + 1) % cap := rfl
@[simp] theorem dlPush_cells (cap : Nat) (l : DelayLine) (x : F32) : (dlPush cap l x).cells = cellWrite l.cells l.w (ftz32 x) := rfl
@[simp] theorem dlClear_w (l : DelayLine) : (dlClear l).w = 0 := rfl
@[simp] theorem dlClear_cells (l : DelayLine) : (dlClear l).cells = [] := rfl
@[simp] theorem dlResize_size (cap : Nat) (l : DelayLine) : (dlResize cap l).size = cap := rfl

/-! Parameter application and frames on the reverberation path -/

@[simp] theorem applyRoom_st (cfg : Params) (fs : F64) (cap : Nat) (x : F32) (r : Reverb) : (applyRoom cfg fs cap x r).st = r.st := rfl
@[simp] theorem applyRoom_cur (cfg : Params) (fs : F64) (cap : Nat) (x : F32) (r : Reverb) : (applyRoom cfg fs cap x r).cur = r.cur := rfl
@[simp] theorem applyRoom_bypL (cfg : Params) (fs : F64) (cap : Nat) (x : F32) (r : Reverb) :
    (applyRoom cfg fs cap x r).bypL = r.bypL := rfl
@[simp] theorem applyRoom_adecay (cfg : Params) (fs : F64) (cap : Nat) (x : F32) (r : Reverb) :
    (applyRoom cfg fs cap x r).adecay = r.adecay := rfl
@[simp] theorem applyRoom_dg (cfg : Params) (fs : F64) (cap : Nat) (x : F32) (r : Reverb) : (applyRoom cfg fs cap x r).dg = r.dg := rfl
@[simp] theorem applyRoom_mat (cfg : Params) (fs : F64) (cap : Nat) (x : F32) (r : Reverb) : (applyRoom cfg fs cap x r).mat = r.mat := rfl
@[simp] theorem applyRoom_dampc (cfg : Params) (fs : F64) (cap : Nat) (x : F32) (r : Reverb) :
    (applyRoom cfg fs cap x r).dampc = r.dampc := rfl
@[simp] theorem applyRoom_apg (cfg : Params) (fs : F64) (cap : Nat) (x : F32) (r : Reverb) : (applyRoom cfg fs cap x r).apg = r.apg := rfl
@[simp] theorem applyRoom_pre (cfg : Params) (fs : F64) (cap : Nat) (x : F32) (r : Reverb) : (applyRoom cfg fs cap x r).pre = r.pre := rfl
@[simp] theorem applyRoom_ap (cfg : Params) (fs : F64) (cap : Nat) (x : F32) (r : Reverb) : (applyRoom cfg fs cap x r).ap = r.ap := rfl
@[simp] theorem applyRoom_z (cfg : Params) (fs : F64) (cap : Nat) (x : F32) (r : Reverb) : (applyRoom cfg fs cap x r).z = r.z := rfl
@[simp] theorem applyRoom_aroom (cfg : Params) (fs : F64) (cap : Nat) (x : F32) (r : Reverb) : (applyRoom cfg fs cap x r).aroom = x := rfl
@[simp] theorem applyRoom_len (cfg : Params) (fs : F64) (cap : Nat) (x : F32) (r : Reverb) :
    (applyRoom cfg fs cap x r).len = matLengths cfg fs x := rfl
@[simp] theorem applyDecay_st (fs : F64) (t : F32) (r : Reverb) : (applyDecay fs t r).st = r.st := rfl
@[simp] theorem applyDecay_cur (fs : F64) (t : F32) (r : Reverb) : (applyDecay fs t r).cur = r.cur := rfl
@[simp] theorem applyDecay_bypL (fs : F64) (t : F32) (r : Reverb) : (applyDecay fs t r).bypL = r.bypL := rfl
@[simp] theorem applyDecay_aroom (fs : F64) (t : F32) (r : Reverb) : (applyDecay fs t r).aroom = r.aroom := rfl
@[simp] theorem applyDecay_len (fs : F64) (t : F32) (r : Reverb) : (applyDecay fs t r).len = r.len := rfl
@[simp] theorem applyDecay_dampc (fs : F64) (t : F32) (r : Reverb) : (applyDecay fs t r).dampc = r.dampc := rfl
@[simp] theorem applyDecay_apg (fs : F64) (t : F32) (r : Reverb) : (applyDecay fs t r).apg = r.apg := rfl
@[simp] theorem applyDecay_pre (fs : F64) (t : F32) (r : Reverb) : (applyDecay fs t r).pre = r.pre := rfl
@[simp] theorem applyDecay_ap (fs : F64) (t : F32) (r : Reverb) : (applyDecay fs t r).ap = r.ap := rfl
@[simp] theorem applyDecay_fdn (fs : F64) (t : F32) (r : Reverb) : (applyDecay fs t r).fdn = r.fdn := rfl
@[simp] theorem applyDecay_z (fs : F64) (t : F32) (r : Reverb) : (applyDecay fs t r).z = r.z := rfl
@[simp] theorem applyDecay_adecay (fs : F64) (t : F32) (r : Reverb) : (applyDecay fs t r).adecay = t := rfl
@[simp] theorem applyDecay_dg (fs : F64) (t : F32) (r : Reverb) : (applyDecay fs t r).dg = matDecayGain fs t := rfl
@[simp] theorem applyDecay_mat (fs : F64) (t : F32) (r : Reverb) : (applyDecay fs t r).mat = matScale (matDecayGain fs t) := rfl
@[simp] theorem applyRoomIf_st (cfg : Params) (fs : F64) (cap : Nat) (x : F32) (b : Bool) (r : Reverb) :
    (applyRoomIf cfg fs cap x b r).st = r.st := by unfold applyRoomIf; split <;> rfl
@[simp] theorem applyRoomIf_cur (cfg : Params) (fs : F64) (cap : Nat) (x : F32) (b : Bool) (r : Reverb) :
    (applyRoomIf cfg fs cap x b r).cur = r.cur := by unfold applyRoomIf; split <;> rfl
@[simp] theorem applyRoomIf_bypL (cfg : Params) (fs : F64) (cap : Nat) (x : F32) (b : Bool) (r : Reverb) :
    (applyRoomIf cfg fs cap x b r).bypL = r.bypL := by unfold applyRoomIf; split <;> rfl
@[simp] theorem applyRoomIf_adecay (cfg : Params) (fs : F64) (cap : Nat) (x : F32) (b : Bool) (r : Reverb) :
    (applyRoomIf cfg fs cap x b r).adecay = r.adecay := by unfold applyRoomIf; split <;> rfl
@[simp] theorem applyRoomIf_dg (cfg : Params) (fs : F64) (cap : Nat) (x : F32) (b : Bool) (r : Reverb) :
    (applyRoomIf cfg fs cap x b r).dg = r.dg := by unfold applyRoomIf; split <;> rfl
@[simp] theorem applyRoomIf_mat (cfg : Params) (fs : F64) (cap : Nat) (x : F32) (b : Bool) (r : Reverb) :
    (applyRoomIf cfg fs cap x b r).mat = r.mat := by unfold applyRoomIf; split <;> rfl
@[simp] theorem applyRoomIf_dampc (cfg : Params) (fs : F64) (cap : Nat) (x : F32) (b : Bool) (r : Reverb) :
    (applyRoomIf cfg fs cap x b r).dampc = r.dampc := by unfold applyRoomIf; split <;> rfl
@[simp] theorem applyRoomIf_apg (cfg : Params) (fs : F64) (cap : Nat) (x : F32) (b : Bool) (r : Reverb) :
    (applyRoomIf cfg fs cap x b r).apg = r.apg := by unfold applyRoomIf; split <;> rfl
@[simp] theorem applyRoomIf_pre (cfg : Params) (fs : F64) (cap : Nat) (x : F32) (b : Bool) (r : Reverb) :
    (applyRoomIf cfg fs cap x b r).pre = r.pre := by unfold applyRoomIf; split <;> rfl
@[simp] theorem applyRoomIf_ap (cfg : Params) (fs : F64) (cap : Nat) (x : F32) (b : Bool) (r : Reverb) :
    (applyRoomIf cfg fs cap x b r).ap = r.ap := by unfold applyRoomIf; split <;> rfl
@[simp] theorem applyRoomIf_z (cfg : Params) (fs : F64) (cap : Nat) (x : F32) (b : Bool) (r : Reverb) :
    (applyRoomIf cfg fs cap x b r).z = r.z := by unfold applyRoomIf; split <;> rfl
@[simp] theorem applyDecayIf_st (fs : F64) (t : F32) (b : Bool) (r : Reverb) :
    (applyDecayIf fs t b r).st = r.st := by unfold applyDecayIf; split <;> rfl
@[simp] theorem applyDecayIf_cur (fs : F64) (t : F32) (b : Bool) (r : Reverb) :
    (applyDecayIf fs t b r).cur = r.cur := by unfold applyDecayIf; split <;> rfl
@[simp] theorem applyDecayIf_bypL (fs : F64) (t : F32) (b : Bool) (r : Reverb) :
    (applyDecayIf fs t b r).bypL = r.bypL := by unfold applyDecayIf; split <;> rfl
@[simp] theorem applyDecayIf_aroom (fs : F64) (t : F32) (b : Bool) (r : Reverb) :
    (applyDecayIf fs t b r).aroom = r.aroom := by unfold applyDecayIf; split <;> rfl
@[simp] theorem applyDecayIf_len (fs : F64) (t : F32) (b : Bool) (r : Reverb) :
    (applyDecayIf fs t b r).len = r.len := by unfold applyDecayIf; split <;> rfl
@[simp] theorem applyDecayIf_dampc (fs : F64) (t : F32) (b : Bool) (r : Reverb) :
    (applyDecayIf fs t b r).dampc = r.dampc := by unfold applyDecayIf; split <;> rfl
@[simp] theorem applyDecayIf_apg (fs : F64) (t : F32) (b : Bool) (r : Reverb) :
    (applyDecayIf fs t b r).apg = r.apg := by unfold applyDecayIf; split <;> rfl
@[simp] theorem applyDecayIf_pre (fs : F64) (t : F32) (b : Bool) (r : Reverb) :
    (applyDecayIf fs t b r).pre = r.pre := by unfold applyDecayIf; split <;> rfl
@[simp] theorem applyDecayIf_ap (fs : F64) (t : F32) (b : Bool) (r : Reverb) :
    (applyDecayIf fs t b r).ap = r.ap := by unfold applyDecayIf; split <;> rfl
@[simp] theorem applyDecayIf_fdn (fs : F64) (t : F32) (b : Bool) (r : Reverb) :
    (applyDecayIf fs t b r).fdn = r.fdn := by unfold applyDecayIf; split <;> rfl
@[simp] theorem applyDecayIf_z (fs : F64) (t : F32) (b : Bool) (r : Reverb) :
    (applyDecayIf fs t b r).z = r.z := by unfold applyDecayIf; split <;> rfl
@[simp] theorem applyAlways_st (cfg : Params) (fs : F64) (cap : Nat) (v : PerParam F32) (r : Reverb) :
    (applyAlways cfg fs cap v r).st = r.st := rfl
@[simp] theorem applyAlways_cur (cfg : Params) (fs : F64) (cap : Nat) (v : PerParam F32) (r : Reverb) :
    (applyAlways cfg fs cap v r).cur = r.cur := rfl
@[simp] theorem applyAlways_bypL (cfg : Params) (fs : F64) (cap : Nat) (v : PerParam F32) (r : Reverb) :
    (applyAlways cfg fs cap v r).bypL = r.bypL := rfl
@[simp] theorem applyAlways_aroom (cfg : Params) (fs : F64) (cap : Nat) (v : PerParam F32) (r : Reverb) :
    (applyAlways cfg fs cap v r).aroom = r.aroom := rfl
@[simp] theorem applyAlways_adecay (cfg : Params) (fs : F64) (cap : Nat) (v : PerParam F32) (r : Reverb) :
    (applyAlways cfg fs cap v r).adecay = r.adecay := rfl
@[simp] theorem applyAlways_len (cfg : Params) (fs : F64) (cap : Nat) (v : PerParam F32) (r : Reverb) :
    (applyAlways cfg fs cap v r).len = r.len := rfl
@[simp] theorem applyAlways_dg (cfg : Params) (fs : F64) (cap : Nat) (v : PerParam F32) (r : Reverb) :
    (applyAlways cfg fs cap v r).dg = r.dg := rfl
@[simp] theorem applyAlways_mat (cfg : Params) (fs : F64) (cap : Nat) (v : PerParam F32) (r : Reverb) :
    (applyAlways cfg fs cap v r).mat = r.mat := rfl
@[simp] theorem applyAlways_ap (cfg : Params) (fs : F64) (cap : Nat) (v : PerParam F32) (r : Reverb) :
    (applyAlways cfg fs cap v r).ap = r.ap := rfl
@[simp] theorem applyAlways_fdn (cfg : Params) (fs : F64) (cap : Nat) (v : PerParam F32) (r : Reverb) :
    (applyAlways cfg fs cap v r).fdn = r.fdn := rfl
@[simp] theorem applyAlways_z (cfg : Params) (fs : F64) (cap : Nat) (v : PerParam F32) (r : Reverb) :
    (applyAlways cfg fs cap v r).z = r.z := rfl
@[simp] theorem fdnApply_st (cfg : Params) (fs : F64) (cap : Nat) (v : PerParam F32) (b : Bool) (r : Reverb) :
    (fdnApply cfg fs cap v b r).st = r.st := by simp [fdnApply]
@[simp] theorem fdnApply_cur (cfg : Params) (fs : F64) (cap : Nat) (v : PerParam F32) (b : Bool) (r : Reverb) :
    (fdnApply cfg fs cap v b r).cur = r.cur := by simp [fdnApply]
@[simp] theorem fdnApply_bypL (cfg : Params) (fs : F64) (cap : Nat) (v : PerParam F32) (b : Bool) (r : Reverb) :
    (fdnApply cfg fs cap v b r).bypL = r.bypL := by simp [fdnApply]
@[simp] theorem fdnApply_ap (cfg : Params) (fs : F64) (cap : Nat) (v : PerParam F32) (b : Bool) (r : Reverb) :
    (fdnApply cfg fs cap v b r).ap = r.ap := by simp [fdnApply]
@[simp] theorem fdnApply_z (cfg : Params) (fs : F64) (cap : Nat) (v : PerParam F32) (b : Bool) (r : Reverb) :
    (fdnApply cfg fs cap v b r).z = r.z := by simp [fdnApply]
@[simp] theorem fdnApply_dampc (cfg : Params) (fs : F64) (cap : Nat) (v : PerParam F32) (b : Bool) (r : Reverb) :
    (fdnApply cfg fs cap v b r).dampc = dampCoeff v.highFreqDamping := rfl
@[simp] theorem fdnApply_apg (cfg : Params) (fs : F64) (cap : Nat) (v : PerParam F32) (b : Bool) (r : Reverb) :
    (fdnApply cfg fs cap v b r).apg = apGain cfg v.density := rfl
@[simp] theorem fdnApply_pre (cfg : Params) (fs : F64) (cap : Nat) (v : PerParam F32) (b : Bool) (r : Reverb) :
    (fdnApply cfg fs cap v b r).pre = dlSetDelay cap r.pre (fdnPredelay fs v.preDelay) := by simp [fdnApply, applyAlways]
@[simp] theorem fdnApply_aroom (cfg : Params) (fs : F64) (cap : Nat) (v : PerParam F32) (b : Bool) (r : Reverb) :
    (fdnApply cfg fs cap v b r).aroom = (applyRoomIf cfg fs cap v.roomSize b r).aroom := by simp [fdnApply]
@[simp] theorem fdnApply_len (cfg : Params) (fs : F64) (cap : Nat) (v : PerParam F32) (b : Bool) (r : Reverb) :
    (fdnApply cfg fs cap v b r).len = (applyRoomIf cfg fs cap v.roomSize b r).len := by simp [fdnApply]
@[simp] theorem fdnApply_fdn (cfg : Params) (fs : F64) (cap : Nat) (v : PerParam F32) (b : Bool) (r : Reverb) :
    (fdnApply cfg fs cap v b r).fdn = (applyRoomIf cfg fs cap v.roomSize b r).fdn := by simp [fdnApply]
@[simp] theorem fdnApply_adecay (cfg : Params) (fs : F64) (cap : Nat) (v : PerParam F32) (b : Bool) (r : Reverb) :
    (fdnApply cfg fs cap v b r).adecay = (applyDecayIf fs v.decayTime b (applyRoomIf cfg fs cap v.roomSize b r)).adecay := by simp [fdnApply]
@[simp] theorem fdnApply_dg (cfg : Params) (fs : F64) (cap : Nat) (v : PerParam F32) (b : Bool) (r : Reverb) :
    (fdnApply cfg fs cap v b r).dg = (applyDecayIf fs v.decayTime b (applyRoomIf cfg fs cap v.roomSize b r)).dg := by simp [fdnApply]
@[simp] theorem fdnApply_mat (cfg : Params) (fs : F64) (cap : Nat) (v : PerParam F32) (b : Bool) (r : Reverb) :
    (fdnApply cfg fs cap v b r).mat = (applyDecayIf fs v.decayTime b (applyRoomIf cfg fs cap v.roomSize b r)).mat := by simp [fdnApply]
@[simp] theorem applyRoomIf_true (cfg : Params) (fs : F64) (cap : Nat) (x : F32) (r : Reverb) : applyRoomIf cfg fs cap x true r = applyRoom cfg fs cap x r := by simp [applyRoomIf]
@[simp] theorem applyDecayIf_true (fs : F64) (t : F32) (r : Reverb) : applyDecayIf fs t true r = applyDecay fs t r := by simp [applyDecayIf]

end Sys2Proof.Machine
end

