-- ==== Sys2Proof/Laws/Cells.lean ====
section
/-! SUPPORT. The laws of delay-buffer memory (20_memory.md R60): what a read gives after a write, that a write keeps the canonical form,
and that equal contents are equal data. -/

namespace Sys2Proof.Machine

theorem cellsFrom_cons {lo hi a : Nat} {x : F32} {m : CellMem} :
    cellsFrom lo hi ((a, x) :: m) = true ↔ lo ≤ a ∧ a < hi ∧ x ≠ unlistedCell ∧ cellsFrom (a + 1) hi m = true := by
  simp [cellsFrom, and_assoc]

/-- A list of cells above `lo` is one above every lower bound. -/
theorem cellsFrom_mono {lo lo' hi : Nat} {m : CellMem} (h : lo' ≤ lo) (hm : cellsFrom lo hi m = true) :
    cellsFrom lo' hi m = true := by
  cases m with
  | nil => rfl
  | cons c m =>
    obtain ⟨h1, h2⟩ := cellsFrom_cons.1 hm
    exact cellsFrom_cons.2 ⟨h.trans h1, h2⟩

/-- A cell below the listed ones reads as the unlisted value. -/
theorem cellRead_below {lo hi k : Nat} {m : CellMem} (hm : cellsFrom lo hi m = true) (hk : k < lo) : cellRead m k = unlistedCell := by
  induction m generalizing lo with
  | nil => rfl
  | cons c m ih =>
    obtain ⟨a, x⟩ := c
    obtain ⟨h1, -, -, h4⟩ := cellsFrom_cons.1 hm
    rw [cellRead, if_neg (by omega)]
    exact ih h4 (by omega)

/-- A cell beyond the buffer reads as the unlisted value. -/
theorem cellRead_beyond {lo hi k : Nat} {m : CellMem} (hm : cellsFrom lo hi m = true) (hk : hi ≤ k) : cellRead m k = unlistedCell := by
  induction m generalizing lo with
  | nil => rfl
  | cons c m ih =>
    obtain ⟨a, x⟩ := c
    obtain ⟨-, h2, -, h4⟩ := cellsFrom_cons.1 hm
    rw [cellRead, if_neg (by omega)]
    exact ih h4

/-- A write leaves every other cell alone. -/
theorem cellRead_cellWrite_ne {j k : Nat} (h : j ≠ k) (m : CellMem) (v : F32) : cellRead (cellWrite m k v) j = cellRead m j := by
  induction m with
  | nil =>
    rw [cellWrite]
    split
    · rfl
    · simp [cellRead, Ne.symm h]
  | cons c m ih =>
    obtain ⟨a, x⟩ := c
    rw [cellWrite]
    split
    · split
      · rfl
      · rw [cellRead, if_neg (Ne.symm h)]
    · split
      · rename_i h1 h2
        subst h2
        split
        · rw [cellRead, if_neg (Ne.symm h)]
        · rw [cellRead, if_neg (Ne.symm h), cellRead, if_neg (Ne.symm h)]
      · rw [cellRead, cellRead, ih]

/-- A read of the written cell gives the value written. -/
theorem cellRead_cellWrite_self {lo hi k : Nat} {m : CellMem} (hm : cellsFrom lo hi m = true) (v : F32) :
    cellRead (cellWrite m k v) k = v := by
  induction m generalizing lo with
  | nil =>
    rw [cellWrite]
    split
    · rename_i h; rw [h]; rfl
    · simp [cellRead]
  | cons c m ih =>
    obtain ⟨a, x⟩ := c
    have hc := cellsFrom_cons.1 hm
    rw [cellWrite]
    split
    · rename_i hlt
      split
      · rename_i h
        rw [h]
        exact cellRead_below (lo := a) (cellsFrom_cons.2 ⟨le_rfl, hc.2⟩) hlt
      · simp [cellRead]
    · split
      · rename_i h2
        subst h2
        split
        · rename_i h
          rw [h]
          exact cellRead_below hc.2.2.2 (Nat.lt_succ_self _)
        · simp [cellRead]
      · rename_i h2
        rw [cellRead, if_neg h2]
        exact ih hc.2.2.2

theorem cellRead_cellWrite {lo hi : Nat} {m : CellMem} (hm : cellsFrom lo hi m = true) (k : Nat) (v : F32) (j : Nat) :
    cellRead (cellWrite m k v) j = if j = k then v else cellRead m j := by
  split
  · rename_i h; subst h; exact cellRead_cellWrite_self hm v
  · rename_i h; exact cellRead_cellWrite_ne h m v

/-- A write inside the buffer keeps the canonical form. -/
theorem cellsFrom_cellWrite {lo hi k : Nat} {m : CellMem} (hm : cellsFrom lo hi m = true) (h1 : lo ≤ k) (h2 : k < hi) (v : F32) :
    cellsFrom lo hi (cellWrite m k v) = true := by
  induction m generalizing lo with
  | nil =>
    rw [cellWrite]
    split
    · rfl
    · rename_i hv; exact cellsFrom_cons.2 ⟨h1, h2, hv, rfl⟩
  | cons c m ih =>
    obtain ⟨a, x⟩ := c
    have hc := cellsFrom_cons.1 hm
    rw [cellWrite]
    split
    · rename_i hlt
      split
      · exact hm
      · rename_i hv
        exact cellsFrom_cons.2 ⟨h1, h2, hv, cellsFrom_cons.2 ⟨hlt, hc.2⟩⟩
    · split
      · rename_i hlt he
        subst he
        split
        · exact cellsFrom_mono (by omega) hc.2.2.2
        · rename_i hv
          exact cellsFrom_cons.2 ⟨hc.1, hc.2.1, hv, hc.2.2.2⟩
      · exact cellsFrom_cons.2 ⟨hc.1, hc.2.1, hc.2.2.1, ih hc.2.2.2 (by omega)⟩

theorem CellMem.wf_nil (size : Nat) : CellMem.wf size [] = true := rfl

/-- Every write inside the buffer keeps the canonical form. -/
theorem CellMem.wf_cellWrite {size k : Nat} {m : CellMem} (hm : CellMem.wf size m = true) (hk : k < size) (v : F32) :
    CellMem.wf size (cellWrite m k v) = true := cellsFrom_cellWrite hm (Nat.zero_le _) hk v

/-- Canonical lists with the same reads are the same list. -/
theorem cells_ext {lo hi : Nat} {m m' : CellMem} (hm : cellsFrom lo hi m = true) (hm' : cellsFrom lo hi m' = true)
    (h : ∀ k, cellRead m k = cellRead m' k) : m = m' := by
  induction m generalizing lo m' with
  | nil =>
    cases m' with
    | nil => rfl
    | cons c m' =>
      obtain ⟨a, x⟩ := c
      have hc := cellsFrom_cons.1 hm'
      have := h a
      simp only [cellRead, if_true] at this
      exact absurd this.symm hc.2.2.1
  | cons c m ih =>
    obtain ⟨a, x⟩ := c
    have hc := cellsFrom_cons.1 hm
    cases m' with
    | nil =>
      have := h a
      simp only [cellRead, if_true] at this
      exact absurd this hc.2.2.1
    | cons c' m' =>
      obtain ⟨a', x'⟩ := c'
      have hc' := cellsFrom_cons.1 hm'
      obtain rfl : a = a' := by
        by_contra hne
        rcases Nat.lt_or_gt_of_ne hne with hlt | hlt
        · have := h a
          rw [cellRead, if_pos rfl, cellRead_below (lo := a') (cellsFrom_cons.2 ⟨le_rfl, hc'.2⟩) hlt] at this
          exact hc.2.2.1 this
        · have := h a'
          rw [cellRead_below (lo := a) (cellsFrom_cons.2 ⟨le_rfl, hc.2⟩) hlt, cellRead, if_pos rfl] at this
          exact hc'.2.2.1 this.symm
      obtain rfl : x = x' := by
        have := h a
        simpa only [cellRead, if_true] using this
      congr 1
      refine ih hc.2.2.2 hc'.2.2.2 fun k => ?_
      rcases Nat.lt_or_ge a k with hk | hk
      · have := h k
        rwa [cellRead, if_neg (by omega), cellRead, if_neg (by omega)] at this
      · rw [cellRead_below hc.2.2.2 (by omega), cellRead_below hc'.2.2.2 (by omega)]

/-- A write adds no value to the listed cells but its own. -/
theorem mem_cellWrite {m : CellMem} {k : Nat} {v : F32} {c : Nat × F32} (h : c ∈ cellWrite m k v) : c = (k, v) ∨ c ∈ m := by
  induction m with
  | nil => unfold cellWrite at h; split_ifs at h <;> simp_all
  | cons b m ih =>
    unfold cellWrite at h
    split_ifs at h <;> simp only [List.mem_cons] at h ⊢ <;> tauto

/-- Every listed cell that a write leaves is free of subnormals, if the written value is. -/
theorem flushed_cellWrite {m : CellMem} {k : Nat} {v : F32} (hv : isSubnormal32 v = false)
    (hm : ∀ c ∈ m, isSubnormal32 c.2 = false) : ∀ c ∈ cellWrite m k v, isSubnormal32 c.2 = false := fun c hc => by
  rcases mem_cellWrite hc with rfl | h
  · exact hv
  · exact hm c h

end Sys2Proof.Machine
end

