-- ==== Sys2Proof/Laws/Commands.lean ====
section
/-! SUPPORT. Every command's execution as one form (47_engine_facade.md R250): the first failing check ends it, otherwise its effect happens;
and which parts of the state the effects of each port write. -/

namespace Sys2Proof.Machine

/-- The effect of a command whose checks pass. -/
def commandEffect (i : Instr) (s : State) : State :=
  match i with
  | .nop p => s.setLasterr p 0
  | .init n fs => ((initialise n fs s).setLasterr .audio 0).pushResponses .audio [1]
  | .reset | .clear => (clearAll s).setLasterr .audio 0
  | .proc sel cnt =>
    match channelsOfSel sel with
    | none => s.setLasterr .audio 0
    | some ch => if cnt = 0 then s.setLasterr .audio 0 else launch (.proc ch cnt.toNat) (latchTargets (s.setLasterr .audio 0))
  | .msetm depth rate => { s with modu := modSetMod s.modu depth rate }.setLasterr .audio 0
  | .msetb base => { s with modu := modSetBase s.audio.cap s.modu base }.setLasterr .audio 0
  | .mproc cnt => if cnt = 0 then s.setLasterr .audio 0 else launch (.mproc cnt.toNat) (s.setLasterr .audio 0)
  | .mclr => { s with modu := modClear s.audio.cap s.modu }.setLasterr .audio 0
  | .setp sel v =>
    match paramOfSel sel with
    | none => s
    | some p => (editTarget p v s).setLasterr .ctrl 0
  | .getp sel =>
    match paramOfSel sel with
    | none => s
    | some p => answer [s.ctrl.pt.get p] s
  | .setpn sel x =>
    match paramOfSel sel with
    | none => s
    | some p => (editTarget p (normToValue p x) s).setLasterr .ctrl 0
  | .getpn sel =>
    match paramOfSel sel with
    | none => s
    | some p => answer [valueToNorm p (s.ctrl.pt.get p)] s
  | .setbyp sel => { s with ctrl := { s.ctrl with bypass := bypassOfSel sel } }.setLasterr .ctrl 0
  | .getbyp => answer [boolWord s.ctrl.bypass] s
  | .setpre sel =>
    match presetOfSel sel with
    | none => s
    | some c => { s with ctrl := { s.ctrl with pt := presetTargets s.cfg c s.ctrl.pt, preset := c } }.setLasterr .ctrl 0
  | .getpre => answer [(presetCode s.ctrl.preset).setWidth 32] s
  | .getcpu =>
    answer [lowWord (Config.cpuDraw s.env.cpuDraws), highWord (Config.cpuDraw s.env.cpuDraws)]
      { s with env := { s.env with cpuDraws := s.env.cpuDraws + 1 } }
  | .isinit => answer [boolWord s.audio.initf] s
  | .getstat => s.pushResponses .ctrl [statusWord s, s.sticky.setWidth 32]
  | .clrerr => { s with sticky := 0 }.setLasterr .ctrl 0
  | .issmooth sel =>
    match paramOfSel sel with
    | none => s
    | some p => answer [boolWord (smIsSmoothing s.cfg (s.reverb.cur.get p) (s.ctrl.pt.get p))] s

/-- The whole of a command's execution. -/
theorem exec_eq (i : Instr) (s : State) : exec i s = runCommand i s (commandEffect i) := by cases i <;> rfl

theorem exec_of_error {i : Instr} {s : State} {e : ErrCode} (h : checkError i s = some e) :
    exec i s = .next (s.endWithError i.port e i.opcode.resp) := by rw [exec_eq, runCommand, h]

theorem exec_of_ok {i : Instr} {s : State} (h : checkError i s = none) : exec i s = .next (commandEffect i s) := by
  rw [exec_eq, runCommand, h]

/-- A command always takes a next state. -/
theorem exec_next (i : Instr) (s : State) :
    exec i s = .next (match checkError i s with
      | some e => s.endWithError i.port e i.opcode.resp
      | none => commandEffect i s) := by
  cases h : checkError i s
  · exact exec_of_ok h
  · exact exec_of_error h

/-- Everything a command's execution can be. -/
theorem exec_cases {i : Instr} {s t : State} (h : exec i s = .next t) :
    (∃ e, checkError i s = some e ∧ t = s.endWithError i.port e i.opcode.resp) ∨
      (checkError i s = none ∧ t = commandEffect i s) := by
  rw [exec_next] at h
  cases hc : checkError i s <;> simp only [hc, Host.Outcome.next.injEq] at h
  · exact .inr ⟨rfl, h.symm⟩
  · exact .inl ⟨_, rfl, h.symm⟩

/-! ### What each check asks -/

theorem selectorError_eq_none {b : Bool} {e : ErrCode} : selectorError b e = none ↔ b = true := by
  cases b <;> simp [selectorError]

theorem notInit_eq_none {s : State} : notInit s = none ↔ s.audio.initf = true := by
  cases h : s.audio.initf <;> simp [notInit, h]

theorem tooLarge_eq_none {s : State} {n : BitVec 16} : tooLarge s n = none ↔ n ≤ s.audio.maxblk := by
  simp [tooLarge, BitVec.not_lt]

theorem paramOfSel_isSome (sel : BitVec 4) : (paramOfSel sel).isSome = decide (sel.toNat ≤ 6) := by revert sel; decide
theorem presetOfSel_isSome (sel : BitVec 4) : (presetOfSel sel).isSome = decide (sel.toNat ≤ 4) := by revert sel; decide
theorem channelsOfSel_isSome (sel : BitVec 4) : (channelsOfSel sel).isSome = decide (sel.toNat = 1 ∨ sel.toNat = 2) := by
  revert sel; decide

theorem le_of_paramOfSel {sel : BitVec 4} {p : Param} (h : paramOfSel sel = some p) : sel.toNat ≤ 6 := by
  have := paramOfSel_isSome sel; rw [h] at this; simpa using this.symm
theorem le_of_presetOfSel {sel : BitVec 4} {c : Preset} (h : presetOfSel sel = some c) : sel.toNat ≤ 4 := by
  have := presetOfSel_isSome sel; rw [h] at this; simpa using this.symm

theorem orElse_eq_none {α : Type} (a b : Option α) : (a <|> b) = none ↔ a = none ∧ b = none := by cases a <;> simp

/-- The commands that need an initialised block (R300). -/
def needsInit (i : Instr) : Bool :=
  match i with
  | .reset | .clear | .proc _ _ | .msetm _ _ | .msetb _ | .mproc _ | .mclr | .issmooth _ => true
  | .nop _ | .init _ _ | .setp _ _ | .getp _ | .setpn _ _ | .getpn _ | .setbyp _ | .getbyp | .setpre _ | .getpre | .getcpu
  | .isinit | .getstat | .clrerr => false

theorem initf_of_checkError {i : Instr} {s : State} (h : checkError i s = none) (hi : needsInit i = true) :
    s.audio.initf = true := by
  cases i <;> simp only [needsInit, Bool.false_eq_true] at hi <;>
    simp only [checkError, orElse_eq_none, notInit_eq_none] at h <;> simp only [h]

/-! ### What each effect leaves alone -/

theorem commandEffect_cfg (i : Instr) (s : State) : (commandEffect i s).cfg = s.cfg := by
  cases i <;> simp only [commandEffect] <;> (try split) <;> (try split) <;> simp

theorem commandEffect_sched (i : Instr) (s : State) :
    (commandEffect i s).env.sched = s.env.sched ∧ (commandEffect i s).env.host = s.env.host := by
  cases i <;> simp only [commandEffect] <;> (try split) <;> (try split) <;> simp

/-- The effect of a command of the CTRL port stays in CTRL-owned state (20_memory.md R66). -/
theorem commandEffect_ctrl {i : Instr} (h : i.port = .ctrl) (s : State) :
    (commandEffect i s).audio = s.audio ∧ (commandEffect i s).reverb = s.reverb ∧ (commandEffect i s).modu = s.modu ∧
      (commandEffect i s).ports = { s.ports with cresp := (commandEffect i s).ports.cresp } := by
  cases i <;> simp_all [Instr.port, commandEffect] <;> (try split) <;> simp_all [State.pushResponses, answer, State.setLasterr]

/-- The effect of a command of the AUDIO port writes no CTRL-owned register (20_memory.md R66). -/
theorem commandEffect_audio {i : Instr} (h : i.port = .audio) (s : State) :
    (commandEffect i s).ctrl = s.ctrl ∧ (commandEffect i s).sticky = s.sticky ∧ (commandEffect i s).env = s.env ∧
      (commandEffect i s).ports = { s.ports with aresp := (commandEffect i s).ports.aresp } := by
  cases i <;> simp_all [Instr.port, commandEffect] <;> (try split) <;> (try split) <;> simp_all [State.pushResponses, State.setLasterr]

/-- Only CLRERR's effect writes `STICKY` (60_exceptions.md R317). -/
theorem commandEffect_sticky (i : Instr) (s : State) :
    (commandEffect i s).sticky = if i = .clrerr then 0 else s.sticky := by
  cases i <;> simp only [commandEffect, reduceCtorEq, if_true, if_false] <;> (try split) <;> (try split) <;> simp

/-- A command whose checks pass pushes exactly the response words of its opcode (20_memory.md R76). -/
theorem commandEffect_responses {i : Instr} {s : State} (h : checkError i s = none) :
    ∃ ws : List Word, ws.length = i.opcode.resp ∧ (commandEffect i s).responses i.port = s.responses i.port ++ ws := by
  have none_case : ∀ p, (commandEffect i s).responses p = s.responses p → i.opcode.resp = 0 → i.port = p →
      ∃ ws : List Word, ws.length = i.opcode.resp ∧ (commandEffect i s).responses i.port = s.responses i.port ++ ws := by
    rintro p h1 h2 rfl; exact ⟨[], h2.symm, by rw [h1, List.append_nil]⟩
  cases i with
  | getp sel | getpn sel | issmooth sel =>
    have hs : sel.toNat ≤ 6 := by simp_all [checkError, selectorError_eq_none, Instr.wellFormed]
    rcases hp : paramOfSel sel with _ | p
    · have := paramOfSel_isSome sel
      simp [hp, hs] at this
    · refine ⟨_, ?_, by simp only [commandEffect, hp, Instr.port, State.responses, answer_ports_cresp]; rfl⟩
      rfl
  | init n fs => exact ⟨[1], rfl, by simp [commandEffect, Instr.port, State.responses]⟩
  | getbyp | getpre | isinit | getcpu =>
    refine ⟨_, ?_, by simp only [commandEffect, Instr.port, State.responses, answer_ports_cresp]; rfl⟩
    rfl
  | getstat =>
    refine ⟨_, ?_, by simp only [commandEffect, Instr.port, State.responses, State.pushResponses_cresp]; rfl⟩
    rfl
  | nop p => exact none_case p (by cases p <;> simp [commandEffect, State.responses]) rfl rfl
  | setp | setpn | setpre =>
    refine none_case .ctrl ?_ rfl rfl
    simp only [commandEffect, State.responses]
    split <;> simp
  | setbyp | clrerr => exact none_case .ctrl (by simp [commandEffect, State.responses]) rfl rfl
  | proc | mproc =>
    refine none_case .audio ?_ rfl rfl
    simp only [commandEffect, State.responses]
    split <;> (try split) <;> simp
  | reset | clear | msetm | msetb | mclr => exact none_case .audio (by simp [commandEffect, State.responses]) rfl rfl

end Sys2Proof.Machine
end

