-- ==== Sys2Proof/Laws/Encoding.lean ====
section
/-! SUPPORT. Fields of command words (30_encoding.md R80, R81) and the OPC column of R87: each field of a word made from fields is that field. -/

namespace Sys2Proof

/-- The fields of a command word are those it was made of (R80). -/
theorem opcField_commandWord (o : BitVec 8) (s : BitVec 4) (c : BitVec 16) : opcField (commandWord o s c) = o := by
  apply BitVec.eq_of_getLsbD_eq; intro i hi
  simp only [opcField, commandWord, BitVec.getLsbD_extractLsb', BitVec.getLsbD_append]
  have : i < 8 := hi
  simp [show ¬ (24 + i < 24) by omega, this]

@[inherit_doc opcField_commandWord]
theorem selField_commandWord (o : BitVec 8) (s : BitVec 4) (c : BitVec 16) : selField (commandWord o s c) = s := by
  apply BitVec.eq_of_getLsbD_eq; intro i hi
  simp only [selField, commandWord, BitVec.getLsbD_extractLsb', BitVec.getLsbD_append]
  simp [show 16 + i < 24 by omega, show 16 + i < 20 by omega, show ¬ 16 + i < 16 by omega, hi]

@[inherit_doc opcField_commandWord]
theorem cntField_commandWord (o : BitVec 8) (s : BitVec 4) (c : BitVec 16) : cntField (commandWord o s c) = c := by
  apply BitVec.eq_of_getLsbD_eq; intro i hi
  simp only [cntField, commandWord, BitVec.getLsbD_extractLsb', BitVec.getLsbD_append]
  simp [show i < 24 by omega, show i < 20 by omega, hi]

/-- A binary64 is its high and low word (20_memory.md R64). -/
theorem highWord_lowWord (x : F64) : highWord x ++ lowWord x = x := by
  apply BitVec.eq_of_getLsbD_eq; intro i hi
  simp only [highWord, lowWord, BitVec.getLsbD_append, BitVec.getLsbD_extractLsb']
  by_cases h : i < 32
  · simp [h]
  · simp [h, show i - 32 < 32 by omega, show 32 + (i-32) = i by omega]

@[inherit_doc highWord_lowWord]
theorem lowWord_append (a b : Word) : lowWord (b ++ a) = a := by
  apply BitVec.eq_of_getLsbD_eq; intro i hi
  simp only [lowWord, BitVec.getLsbD_append, BitVec.getLsbD_extractLsb']
  simp [hi]

@[inherit_doc highWord_lowWord]
theorem highWord_append (a b : Word) : highWord (b ++ a) = b := by
  apply BitVec.eq_of_getLsbD_eq; intro i hi
  simp only [highWord, BitVec.getLsbD_append, BitVec.getLsbD_extractLsb']
  simp [hi]

/-- A command word whose unused fields are 0 has no reserved bit set (R81). -/
theorem reserved_commandWord (f : Format) (o : BitVec 8) (s : BitVec 4) (c : BitVec 16)
   (hs : f = .Z ∨ f = .K → s = 0) (hc : f = .Z ∨ f = .S → c = 0) : commandWord o s c &&& f.reservedMask = 0 := by
  apply BitVec.eq_of_getLsbD_eq; intro i hi
  cases f <;> simp only [Format.reservedMask, commandWord, BitVec.getLsbD_and, BitVec.getLsbD_append, BitVec.getLsbD_zero] <;>
    simp only [reduceCtorEq, or_false, or_true, forall_const, false_imp_iff] at hs hc <;>
    (try subst hs) <;> (try subst hc) <;> interval_cases i <;> simp

/-- Every assigned OPC value names its opcode, and no other value does (R87, R89). -/
theorem ofByte_byte (op : Opcode) : Opcode.ofByte op.byte = some op := by cases op <;> rfl


@[inherit_doc ofByte_byte]
theorem byte_of_ofByte {b : BitVec 8} {op} (h : Opcode.ofByte b = some op) : b = op.byte := by
  revert h; revert op; revert b; decide +kernel


/-- A word whose bits 23:20 are 0 is made of its three fields (R80). -/
theorem word_eq_commandWord (w : Word) (hz : (w &&& 0x00F00000) = 0) : w = commandWord (opcField w) (selField w) (cntField w) := by
  apply BitVec.eq_of_getLsbD_eq; intro i hi
  have hz' : (w &&& 0x00F00000).getLsbD i = false := by rw [hz]; simp
  clear hz
  simp only [opcField, selField, cntField, commandWord, BitVec.getLsbD_append, BitVec.getLsbD_extractLsb'] at *
  interval_cases i <;> simp_all

/-- A field under a mask that is clear is 0. -/
theorem selField_eq_zero {w : Word} (h : w &&& 0x000F0000 = 0) : selField w = 0 := by
  apply BitVec.eq_of_getLsbD_eq; intro i hi
  have hz : (w &&& 0x000F0000).getLsbD (16 + i) = false := by rw [h]; simp
  clear h
  simp only [selField, BitVec.getLsbD_extractLsb'] at *
  interval_cases i <;> simp_all

@[inherit_doc selField_eq_zero]
theorem cntField_eq_zero {w : Word} (h : w &&& 0x0000FFFF = 0) : cntField w = 0 := by
  apply BitVec.eq_of_getLsbD_eq; intro i hi
  have hz : (w &&& 0x0000FFFF).getLsbD i = false := by rw [h]; simp
  clear h
  simp only [cntField, BitVec.getLsbD_extractLsb'] at *
  interval_cases i <;> simp_all

/-- Bits clear under a mask are clear under every smaller one. -/
theorem and_mask_of_and_mask {w m n : Word} (h : w &&& m = 0) (hs : m &&& n = n) : w &&& n = 0 := by
  rw [← hs, ← BitVec.and_assoc, h]; simp

end Sys2Proof
end

