-- ==== Sys2Proof/Laws/Rounding.lean ====
section
/-! SUPPORT. The one rounding of 00_scope.md R10, for every format: it keeps the order of the exact values and returns every number of the
format unchanged. -/

namespace Sys2Proof.Machine

/-! ### Rounding to an integer -/

theorem roundTiesEven_ge (num den : Nat) : num / den ≤ roundTiesEven num den := by
  unfold roundTiesEven; dsimp only; split
  · exact le_rfl
  · split <;> omega

theorem roundTiesEven_le (num den : Nat) : roundTiesEven num den ≤ num / den + 1 := by
  unfold roundTiesEven; dsimp only; split
  · omega
  · split <;> omega

theorem roundTiesEven_mul (k : Nat) {den : Nat} (h : 0 < den) : roundTiesEven (k * den) den = k := by
  simp [roundTiesEven, Nat.mul_div_cancel k h, h]

/-- Rounding to an integer keeps the order of fractions. -/
theorem roundTiesEven_mono {a b c d : Nat} (hb : 0 < b) (hd : 0 < d) (h : a * d ≤ c * b) :
    roundTiesEven a b ≤ roundTiesEven c d := by
  have hq : a / b ≤ c / d := by
    rw [Nat.le_div_iff_mul_le hd]
    refine Nat.le_of_mul_le_mul_right (c := b) ?_ hb
    calc a / b * d * b = a / b * b * d := by ring
      _ ≤ a * d := Nat.mul_le_mul_right d (Nat.div_mul_le_self a b)
      _ ≤ c * b := h
  rcases hq.lt_or_eq with hlt | heq
  · exact (roundTiesEven_le a b).trans (hlt.trans_le (roundTiesEven_ge c d))
  · have ha := Nat.div_add_mod a b
    have hc := Nat.div_add_mod c d
    have hr : a % b * d ≤ c % d * b := by
      have e : a * d - a / b * b * d ≤ c * b - a / b * b * d := Nat.sub_le_sub_right h _
      have e1 : a * d - a / b * b * d = a % b * d := by
        rw [← Nat.sub_mul]; congr 1; rw [Nat.mul_comm (a / b) b]; omega
      have e2 : c * b - a / b * b * d = c % d * b := by
        rw [heq, show c / d * b * d = d * (c / d) * b by ring, ← Nat.sub_mul]; congr 1; omega
      omega
    unfold roundTiesEven
    dsimp only
    rw [heq]
    split
    · split
      · exact le_rfl
      · split <;> omega
    · rename_i h1
      have h1' : b * d ≤ 2 * (c % d) * b := by nlinarith
      have h2 : d ≤ 2 * (c % d) := Nat.le_of_mul_le_mul_right (by linarith [Nat.mul_comm b d]) hb
      split
      · rename_i h3
        have h3' : b * d < 2 * (c % d) * b := by nlinarith
        have h4 : d < 2 * (c % d) := Nat.lt_of_mul_lt_mul_right (a := b) (by linarith [Nat.mul_comm b d])
        simp [h4, h4.not_gt]
      · rw [if_neg (by omega)]
        split
        · omega
        · exact le_rfl

/-! ### Rounding to a format -/

/-- The spacing exponent at an exact value. -/
theorem log2_of_mem {q p j : Nat} (h1 : 2 ^ (p + j) ≤ q) (h2 : q < 2 ^ (p + j + 1)) : q.log2 - p = j := by
  have h0 : q ≠ 0 := by have := Nat.two_pow_pos (p + j); omega
  have := (Nat.le_log2 h0).2 h1
  have := (Nat.log2_lt h0).2 h2
  omega

/-- Every exact value lies in the range of its spacing: below `2^(frac+1)` steps, and from `2^frac` steps up unless the step is 1. -/
theorem spacing_bounds (p num den : Nat) (hd : 0 < den) :
    num < 2 ^ (p + 1) * (den * 2 ^ ((num / den).log2 - p)) ∧
      ((num / den).log2 - p = 0 ∨ 2 ^ p * (den * 2 ^ ((num / den).log2 - p)) ≤ num) := by
  have hdiv : num < (num / den + 1) * den := by
    have := Nat.div_add_mod num den; have := Nat.mod_lt num hd; nlinarith
  rcases Nat.eq_zero_or_pos (num / den) with h0 | h0
  · simp only [h0, Nat.log2_zero, Nat.zero_sub, true_or, and_true]
    have : num < den := by simpa [h0] using hdiv
    have := Nat.two_pow_pos (p + 1)
    nlinarith
  · have h0' : num / den ≠ 0 := by omega
    have hlt : num / den < 2 ^ ((num / den).log2 + 1) := (Nat.log2_lt h0').1 (Nat.lt_succ_self _)
    have hge : 2 ^ (num / den).log2 ≤ num / den := (Nat.le_log2 h0').1 le_rfl
    generalize (num / den).log2 = l at *
    constructor
    · have : 2 ^ (l + 1) ≤ 2 ^ (p + 1) * 2 ^ (l - p) := by
        rw [← pow_add]; exact Nat.pow_le_pow_right (by omega) (by omega)
      calc num < (num / den + 1) * den := hdiv
        _ ≤ 2 ^ (l + 1) * den := Nat.mul_le_mul_right _ hlt
        _ ≤ 2 ^ (p + 1) * 2 ^ (l - p) * den := Nat.mul_le_mul_right _ this
        _ = 2 ^ (p + 1) * (den * 2 ^ (l - p)) := by ring
    · rcases Nat.eq_zero_or_pos (l - p) with h | h
      · exact .inl h
      · right
        have : 2 ^ p * 2 ^ (l - p) = 2 ^ l := by rw [← pow_add]; congr 1; omega
        calc 2 ^ p * (den * 2 ^ (l - p)) = 2 ^ l * den := by rw [← this]; ring
          _ ≤ num / den * den := Nat.mul_le_mul_right _ hge
          _ ≤ num := Nat.div_mul_le_self _ _

/-- The rounded encoding before overflow: `j` steps of `2^frac` encodings and the rounded significand. -/
def Fmt.rawMag (f : Fmt) (num den : Nat) : Nat :=
  ((num / den).log2 - f.frac) * 2 ^ f.frac + roundTiesEven num (den * 2 ^ ((num / den).log2 - f.frac))

theorem Fmt.roundMag_eq (f : Fmt) (num den : Nat) : f.roundMag num den = min (f.rawMag num den) f.infEnc := rfl

theorem Fmt.roundMag_le_inf (f : Fmt) (num den : Nat) : f.roundMag num den ≤ f.infEnc := by
  rw [Fmt.roundMag_eq]; exact min_le_right _ _

theorem Fmt.rawMag_bounds (f : Fmt) (num den : Nat) (hd : 0 < den) :
    f.rawMag num den ≤ ((num / den).log2 - f.frac + 2) * 2 ^ f.frac ∧
      ((num / den).log2 - f.frac = 0 ∨ ((num / den).log2 - f.frac + 1) * 2 ^ f.frac ≤ f.rawMag num den) := by
  obtain ⟨h1, h2⟩ := spacing_bounds f.frac num den hd
  unfold Fmt.rawMag
  generalize (num / den).log2 - f.frac = j at *
  have hs : 0 < den * 2 ^ j := Nat.mul_pos hd (Nat.two_pow_pos j)
  constructor
  · have : roundTiesEven num (den * 2 ^ j) ≤ 2 ^ (f.frac + 1) := by
      have := roundTiesEven_mono (a := num) (b := den * 2 ^ j) (c := 2 ^ (f.frac + 1) * (den * 2 ^ j)) (d := den * 2 ^ j) hs hs
        (Nat.mul_le_mul_right _ h1.le)
      rwa [roundTiesEven_mul _ hs] at this
    rw [pow_succ] at this
    linarith
  · refine h2.imp id fun h => ?_
    have : 2 ^ f.frac ≤ roundTiesEven num (den * 2 ^ j) := by
      have := roundTiesEven_mono (a := 2 ^ f.frac * (den * 2 ^ j)) (b := den * 2 ^ j) (c := num) (d := den * 2 ^ j) hs hs
        (Nat.mul_le_mul_right _ h)
      rwa [roundTiesEven_mul _ hs] at this
    linarith

theorem Fmt.rawMag_mono (f : Fmt) {a b c d : Nat} (hb : 0 < b) (hd : 0 < d) (h : a * d ≤ c * b) :
    f.rawMag a b ≤ f.rawMag c d := by
  have hq : a / b ≤ c / d := by
    rw [Nat.le_div_iff_mul_le hd]
    refine Nat.le_of_mul_le_mul_right (c := b) ?_ hb
    calc a / b * d * b = a / b * b * d := by ring
      _ ≤ a * d := Nat.mul_le_mul_right d (Nat.div_mul_le_self a b)
      _ ≤ c * b := h
  have hl : (a / b).log2 ≤ (c / d).log2 := by
    rcases Nat.eq_zero_or_pos (a / b) with h0 | h0
    · simp [h0]
    · exact (Nat.le_log2 (by omega)).2 (((Nat.le_log2 (by omega)).1 le_rfl).trans hq)
  rcases (Nat.sub_le_sub_right hl f.frac).lt_or_eq with hlt | heq
  · have h1 := (f.rawMag_bounds a b hb).1
    rcases (f.rawMag_bounds c d hd).2 with h2 | h2
    · omega
    · refine h1.trans (le_trans (Nat.mul_le_mul_right _ ?_) h2)
      omega
  · unfold Fmt.rawMag
    rw [heq]
    refine Nat.add_le_add_left (roundTiesEven_mono (Nat.mul_pos hb (Nat.two_pow_pos _)) (Nat.mul_pos hd (Nat.two_pow_pos _)) ?_) _
    calc a * (d * 2 ^ ((c / d).log2 - f.frac)) = a * d * 2 ^ ((c / d).log2 - f.frac) := by ring
      _ ≤ c * b * 2 ^ ((c / d).log2 - f.frac) := Nat.mul_le_mul_right _ h
      _ = _ := by ring

/-- The rounding keeps the order of exact values. -/
theorem Fmt.roundMag_mono (f : Fmt) {a b c d : Nat} (hb : 0 < b) (hd : 0 < d) (h : a * d ≤ c * b) :
    f.roundMag a b ≤ f.roundMag c d := by
  rw [Fmt.roundMag_eq, Fmt.roundMag_eq]
  exact min_le_min_right _ (f.rawMag_mono hb hd h)

/-- A number of the format is its own rounding. -/
theorem Fmt.rawMag_magOf (f : Fmt) (n : Nat) : f.rawMag (f.magOf n) 1 = n := by
  have hn := Nat.div_add_mod n (2 ^ f.frac)
  have hm := Nat.mod_lt n (Nat.two_pow_pos f.frac)
  unfold Fmt.rawMag Fmt.magOf
  rw [Nat.div_one, Nat.one_mul]
  split
  · rename_i h
    have hlt : n < 2 ^ f.frac := Nat.lt_of_div_eq_zero (Nat.two_pow_pos _) h
    have : n.log2 - f.frac = 0 := by
      rcases Nat.eq_zero_or_pos n with h0 | h0
      · simp [h0]
      · have := (Nat.log2_lt (n := n) (by omega)).2 hlt; omega
    rw [this, Nat.zero_mul, Nat.zero_add, Nat.pow_zero]
    simpa using roundTiesEven_mul n Nat.one_pos
  · rename_i h
    obtain ⟨e, he⟩ : ∃ e, n / 2 ^ f.frac = e + 1 := Nat.exists_eq_succ_of_ne_zero h
    rw [he, Nat.add_sub_cancel]
    have hj : ((2 ^ f.frac + n % 2 ^ f.frac) * 2 ^ e).log2 - f.frac = e := by
      refine log2_of_mem ?_ ?_
      · rw [pow_add]; exact Nat.mul_le_mul_right _ (by omega)
      · rw [show f.frac + e + 1 = (f.frac + 1) + e by ring, pow_add 2 (f.frac + 1) e, pow_succ]
        exact Nat.mul_lt_mul_of_pos_right (by omega) (Nat.two_pow_pos e)
    rw [hj, roundTiesEven_mul _ (Nat.two_pow_pos e)]
    rw [he] at hn
    linarith

theorem Fmt.roundMag_magOf (f : Fmt) {n : Nat} (h : n ≤ f.infEnc) : f.roundMag (f.magOf n) 1 = n := by
  rw [Fmt.roundMag_eq, Fmt.rawMag_magOf, min_eq_left h]

/-- Encodings count a format's magnitudes upward. -/
theorem Fmt.magOf_strictMono (f : Fmt) {m n : Nat} (h : m < n) : f.magOf m < f.magOf n := by
  by_contra hle
  have := f.rawMag_mono (a := f.magOf n) (b := 1) (c := f.magOf m) (d := 1) Nat.one_pos Nat.one_pos (by omega)
  rw [Fmt.rawMag_magOf, Fmt.rawMag_magOf] at this
  omega

theorem Fmt.magOf_le_iff (f : Fmt) (m n : Nat) : f.magOf m ≤ f.magOf n ↔ m ≤ n := by
  rcases Nat.lt_trichotomy m n with h | h | h
  · have := f.magOf_strictMono h; omega
  · simp [h]
  · have := f.magOf_strictMono h; omega

/-- The rounding of a value from a number of the format upward is at least that number. -/
theorem Fmt.le_roundMag (f : Fmt) {n num den : Nat} (hd : 0 < den) (hn : n ≤ f.infEnc) (h : f.magOf n * den ≤ num) :
    n ≤ f.roundMag num den := by
  have := f.roundMag_mono (a := f.magOf n) (b := 1) (c := num) (d := den) Nat.one_pos hd (by omega)
  rwa [Fmt.roundMag_magOf f hn] at this

/-- The rounding of a value up to a number of the format is at most that number. -/
theorem Fmt.roundMag_le (f : Fmt) {n num den : Nat} (hd : 0 < den) (hn : n ≤ f.infEnc) (h : num ≤ f.magOf n * den) :
    f.roundMag num den ≤ n := by
  have := f.roundMag_mono (a := num) (b := den) (c := f.magOf n) (d := 1) hd Nat.one_pos (by omega)
  rwa [Fmt.roundMag_magOf f hn] at this

/-- A value that is a number of the format is rounded to it. -/
theorem Fmt.roundMag_exact (f : Fmt) {n num den : Nat} (hd : 0 < den) (hn : n ≤ f.infEnc) (h : num = f.magOf n * den) :
    f.roundMag num den = n :=
  le_antisymm (f.roundMag_le hd hn h.le) (f.le_roundMag hd hn h.ge)

@[simp] theorem Fmt.magOf_zero (f : Fmt) : f.magOf 0 = 0 := by simp [Fmt.magOf]

@[simp] theorem Fmt.roundMag_zero (f : Fmt) {den : Nat} (hd : 0 < den) : f.roundMag 0 den = 0 :=
  f.roundMag_exact hd (Nat.zero_le _) (by simp)

/-- Scaling numerator and denominator alike changes nothing. -/
theorem Fmt.roundMag_scale (f : Fmt) (num : Nat) {den k : Nat} (hd : 0 < den) (hk : 0 < k) :
    f.roundMag (num * k) (den * k) = f.roundMag num den :=
  le_antisymm (f.roundMag_mono (Nat.mul_pos hd hk) hd (by linarith [Nat.mul_right_comm num k den, Nat.mul_assoc num den k]))
    (f.roundMag_mono hd (Nat.mul_pos hd hk) (by linarith [Nat.mul_right_comm num k den, Nat.mul_assoc num den k]))

end Sys2Proof.Machine
end

