-- ==== Sys2Proof/Laws/Float.lean ====
section
/-! SUPPORT. What the floating-point primitives guarantee: order and clamp facts, flushing, exact rounding of representable
magnitudes, and NaN results. -/

namespace Sys2Proof.Machine

@[simp] theorem fmt32_signBit : fmt32.signBit = 2 ^ 31 := rfl
@[simp] theorem fmt64_signBit : fmt64.signBit = 2 ^ 63 := rfl
@[simp] theorem fmt32_infEnc : fmt32.infEnc = 2139095040 := by decide
@[simp] theorem fmt64_infEnc : fmt64.infEnc = 9218868437227405312 := by decide
@[simp] theorem fmt32_frac : fmt32.frac = 23 := rfl
@[simp] theorem fmt64_frac : fmt64.frac = 52 := rfl
@[simp] theorem fmt32_one : fmt32.one = 2 ^ 149 := by decide
@[simp] theorem fmt64_one : fmt64.one = 2 ^ 1074 := by decide +kernel

/-! ### Order and clamp -/

/-- A non-NaN encoding has a place in the order; a NaN has none. -/
theorem order32_eq_none_iff (a : F32) : fmt32.order a.toNat = none ↔ isNaN32 a = true := by
  simp only [Fmt.order, isNaN32, decide_eq_true_eq]
  split <;> simp_all

theorem le32_iff (a b : F32) :
    le32 a b = true ↔ ∃ x y, fmt32.order a.toNat = some x ∧ fmt32.order b.toNat = some y ∧ x ≤ y := by
  unfold le32 Fmt.le
  split <;> simp_all

theorem le32_not_nan {a b : F32} (h : le32 a b = true) : isNaN32 a = false ∧ isNaN32 b = false := by
  obtain ⟨x, y, hx, hy, -⟩ := (le32_iff a b).1 h
  constructor
  · by_contra hn
    simp [(order32_eq_none_iff a).2 (by simpa using hn)] at hx
  · by_contra hn
    simp [(order32_eq_none_iff b).2 (by simpa using hn)] at hy

theorem order32_of_not_nan {a : F32} (h : isNaN32 a = false) : ∃ x, fmt32.order a.toNat = some x := by
  rcases ho : fmt32.order a.toNat with _ | x
  · simp [(order32_eq_none_iff a).1 ho] at h
  · exact ⟨x, rfl⟩

theorem le32_refl {a : F32} (h : isNaN32 a = false) : le32 a a = true := by
  obtain ⟨x, hx⟩ := order32_of_not_nan h
  exact (le32_iff a a).2 ⟨x, x, hx, hx, le_rfl⟩

theorem le32_trans {a b c : F32} (hab : le32 a b = true) (hbc : le32 b c = true) : le32 a c = true := by
  obtain ⟨x, y, hx, hy, hxy⟩ := (le32_iff a b).1 hab
  obtain ⟨y', z, hy', hz, hyz⟩ := (le32_iff b c).1 hbc
  rw [hy] at hy'
  obtain rfl := Option.some.inj hy'
  exact (le32_iff a c).2 ⟨x, z, hx, hz, hxy.trans hyz⟩

theorem le32_total {a b : F32} (ha : isNaN32 a = false) (hb : isNaN32 b = false) : le32 a b = true ∨ le32 b a = true := by
  obtain ⟨x, hx⟩ := order32_of_not_nan ha
  obtain ⟨y, hy⟩ := order32_of_not_nan hb
  rcases le_total x y with h | h
  · exact .inl ((le32_iff a b).2 ⟨x, y, hx, hy, h⟩)
  · exact .inr ((le32_iff b a).2 ⟨y, x, hy, hx, h⟩)

/-- The clamp's result is `lo`, or a value that lies in the range and is `x` or `hi` (R11). -/
theorem clamp32_cases (x lo hi : F32) :
    clamp32 x lo hi = lo ∨
      (le32 lo (clamp32 x lo hi) = true ∧ (clamp32 x lo hi = hi ∨ (clamp32 x lo hi = x ∧ le32 x hi = true))) := by
  unfold clamp32
  cases isNaN32 x <;> cases h1 : le32 x hi <;> cases h2 : le32 lo x <;> cases h3 : le32 lo hi <;> simp [h2, h3]

/-- With `lo <= hi` the clamp's result lies in the range (R11). -/
theorem clamp32_mem {x lo hi : F32} (h : le32 lo hi = true) :
    le32 lo (clamp32 x lo hi) = true ∧ le32 (clamp32 x lo hi) hi = true := by
  obtain ⟨hlo, hhi⟩ := le32_not_nan h
  rcases clamp32_cases x lo hi with e | ⟨hl, e | ⟨e, hx⟩⟩
  · rw [e]; exact ⟨le32_refl hlo, h⟩
  · rw [e] at hl ⊢; exact ⟨hl, le32_refl hhi⟩
  · rw [e] at hl ⊢; exact ⟨hl, hx⟩

/-- A value in the range is kept as it is (R11). -/
theorem clamp32_of_mem {x lo hi : F32} (h1 : le32 lo x = true) (h2 : le32 x hi = true) : clamp32 x lo hi = x := by
  simp [clamp32, (le32_not_nan h1).2, h1, h2]

/-! ### Flushing -/

theorem and_signMask (n k : Nat) : (n &&& 2 ^ k) % 2 ^ k = 0 := by
  rw [Nat.and_two_pow]
  exact Nat.mul_mod_left _ _

theorem ftz32_not_subnormal (v : F32) : isSubnormal32 (ftz32 v) = false := by
  unfold ftz32
  split
  · have h : (v &&& (0x80000000 : F32)).toNat % 2 ^ 31 = 0 := by
      rw [BitVec.toNat_and]
      exact and_signMask v.toNat 31
    unfold isSubnormal32
    rw [fmt32_signBit, h]
    rfl
  · simp_all

theorem ftz64_not_subnormal (v : F64) : isSubnormal64 (ftz64 v) = false := by
  unfold ftz64
  split
  · have h : (v &&& (0x8000000000000000 : F64)).toNat % 2 ^ 63 = 0 := by
      rw [BitVec.toNat_and]
      exact and_signMask v.toNat 63
    unfold isSubnormal64
    rw [fmt64_signBit, h]
    rfl
  · simp_all

theorem ftz32_of_not_subnormal {v : F32} (h : isSubnormal32 v = false) : ftz32 v = v := by simp [ftz32, h]
theorem ftz64_of_not_subnormal {v : F64} (h : isSubnormal64 v = false) : ftz64 v = v := by simp [ftz64, h]

/-! ### Encodings and values -/

theorem Fmt.signBit_pos (f : Fmt) : 0 < f.signBit := Nat.two_pow_pos _

theorem Fmt.infEnc_lt (f : Fmt) : f.infEnc < f.signBit := by
  have := Nat.two_pow_pos f.ebits
  have := Nat.two_pow_pos f.frac
  rw [Fmt.infEnc, Fmt.signBit, pow_add]
  exact Nat.mul_lt_mul_of_pos_right (by omega) (Nat.two_pow_pos _)

theorem Fmt.signed_mod (f : Fmt) (neg : Bool) {n : Nat} (h : n < f.signBit) : f.signed neg n % f.signBit = n := by
  unfold Fmt.signed; split
  · rw [Nat.add_mod_left, Nat.mod_eq_of_lt h]
  · rw [Nat.zero_add, Nat.mod_eq_of_lt h]

theorem Fmt.signed_div (f : Fmt) (neg : Bool) {n : Nat} (h : n < f.signBit) :
    (f.signed neg n / f.signBit % 2 == 1) = neg := by
  unfold Fmt.signed; cases neg
  · simp [Nat.div_eq_of_lt h]
  · simp [Nat.add_div_left _ f.signBit_pos, Nat.div_eq_of_lt h]

theorem Fmt.signed_lt (f : Fmt) (neg : Bool) {n : Nat} (h : n < f.signBit) : f.signed neg n < 2 * f.signBit := by
  unfold Fmt.signed; split <;> omega

/-- The value that an encoding magnitude up to infinity stands for. -/
def Fmt.value (f : Fmt) (neg : Bool) (n : Nat) : Fp := if n = f.infEnc then .inf neg else .fin neg (f.magOf n)

theorem Fmt.unpack_signed (f : Fmt) (neg : Bool) {n : Nat} (h : n ≤ f.infEnc) : f.unpack (f.signed neg n) = f.value neg n := by
  have hlt := h.trans_lt f.infEnc_lt
  simp only [Fmt.unpack, f.signed_mod neg hlt, f.signed_div neg hlt, Fmt.value]
  rw [if_neg (by omega)]

theorem toNat_ofNat32 {n : Nat} (h : n < 2 * fmt32.signBit) : (BitVec.ofNat 32 n).toNat = n := by
  rw [BitVec.toNat_ofNat, Nat.mod_eq_of_lt]; simpa using h
theorem toNat_ofNat64 {n : Nat} (h : n < 2 * fmt64.signBit) : (BitVec.ofNat 64 n).toNat = n := by
  rw [BitVec.toNat_ofNat, Nat.mod_eq_of_lt]; simpa using h

/-- Every encoding that is no NaN is a sign and a magnitude up to infinity. -/
theorem signed_of_not_nan32 {a : F32} (h : isNaN32 a = false) :
    ∃ s n, n ≤ fmt32.infEnc ∧ a.toNat = fmt32.signed s n ∧ a = BitVec.ofNat 32 (fmt32.signed s n) ∧
      fmt32.unpack a.toNat = fmt32.value s n := by
  have h' : a.toNat % fmt32.signBit ≤ fmt32.infEnc := by simpa [isNaN32] using h
  have hlt : a.toNat < 2 ^ 32 := a.isLt
  have key : a.toNat = fmt32.signed (decide (2 ^ 31 ≤ a.toNat)) (a.toNat % fmt32.signBit) := by
    unfold Fmt.signed
    simp only [fmt32_signBit, decide_eq_true_eq]
    split <;> omega
  refine ⟨_, _, h', key, ?_, ?_⟩
  · rw [← key, BitVec.ofNat_toNat, BitVec.setWidth_eq]
  · conv_lhs => rw [key]
    exact fmt32.unpack_signed _ h'

@[inherit_doc signed_of_not_nan32]
theorem signed_of_not_nan64 {a : F64} (h : isNaN64 a = false) :
    ∃ s n, n ≤ fmt64.infEnc ∧ a.toNat = fmt64.signed s n ∧ a = BitVec.ofNat 64 (fmt64.signed s n) ∧
      fmt64.unpack a.toNat = fmt64.value s n := by
  have h' : a.toNat % fmt64.signBit ≤ fmt64.infEnc := by simpa [isNaN64] using h
  have hlt : a.toNat < 2 ^ 64 := a.isLt
  have key : a.toNat = fmt64.signed (decide (2 ^ 63 ≤ a.toNat)) (a.toNat % fmt64.signBit) := by
    unfold Fmt.signed
    simp only [fmt64_signBit, decide_eq_true_eq]
    split <;> omega
  refine ⟨_, _, h', key, ?_, ?_⟩
  · rw [← key, BitVec.ofNat_toNat, BitVec.setWidth_eq]
  · conv_lhs => rw [key]
    exact fmt64.unpack_signed _ h'

theorem unpack_nan_iff32 (a : F32) : fmt32.unpack a.toNat = .nan ↔ isNaN32 a = true := by
  unfold Fmt.unpack isNaN32
  dsimp only
  split
  · simp_all
  · split <;> simp_all

theorem unpack_nan_iff64 (a : F64) : fmt64.unpack a.toNat = .nan ↔ isNaN64 a = true := by
  unfold Fmt.unpack isNaN64
  dsimp only
  split
  · simp_all
  · split <;> simp_all

theorem isFinite32_iff (a : F32) : isFinite32 a = true ↔ ∃ s m, fmt32.unpack a.toNat = .fin s m := by
  unfold Fmt.unpack isFinite32
  simp only [fmt32_signBit, fmt32_infEnc, decide_eq_true_eq]
  split
  · simp only [reduceCtorEq, exists_const, iff_false]; omega
  · split
    · simp only [reduceCtorEq, exists_const, iff_false]; omega
    · exact ⟨fun _ => ⟨_, _, rfl⟩, fun _ => by omega⟩

theorem not_nan_of_finite32 {a : F32} (h : isFinite32 a = true) : isNaN32 a = false := by
  simp only [isFinite32, isNaN32, decide_eq_true_eq, decide_eq_false_iff_not] at *; omega

theorem not_nan_of_finite64 {a : F64} (h : isFinite64 a = true) : isNaN64 a = false := by
  simp only [isFinite64, isNaN64, decide_eq_true_eq, decide_eq_false_iff_not] at *; omega

/-! ### Results of operations -/

/-- A result is a signed magnitude up to infinity. -/
def Fmt.Result (f : Fmt) (r : Option Nat) : Prop := ∀ n, r = some n → ∃ s m, m ≤ f.infEnc ∧ n = f.signed s m

theorem Fmt.result_signed (f : Fmt) (s : Bool) {m : Nat} (h : m ≤ f.infEnc) : f.Result (some (f.signed s m)) := by
  rintro n ⟨⟩; exact ⟨s, m, h, rfl⟩

theorem Fmt.result_none (f : Fmt) : f.Result none := by rintro n ⟨⟩

theorem Fmt.result_add (f : Fmt) (u v : Fp) : f.Result (f.add u v) := by
  rcases u with _ | s | ⟨s, x⟩ <;> rcases v with _ | t | ⟨t, y⟩ <;> simp only [Fmt.add]
  all_goals first
    | exact f.result_none
    | exact f.result_signed _ le_rfl
    | skip
  · split
    · exact f.result_signed _ le_rfl
    · exact f.result_none
  · split
    · exact f.result_signed _ (f.roundMag_le_inf _ _)
    · split
      · exact f.result_signed _ (f.roundMag_le_inf _ _)
      · split
        · exact f.result_signed _ (f.roundMag_le_inf _ _)
        · exact f.result_signed false (Nat.zero_le _)

theorem Fmt.result_mul (f : Fmt) (u v : Fp) : f.Result (f.mul u v) := by
  rcases u with _ | s | ⟨s, x⟩ <;> rcases v with _ | t | ⟨t, y⟩ <;> simp only [Fmt.mul]
  all_goals first
    | exact f.result_none
    | exact f.result_signed _ le_rfl
    | exact f.result_signed _ (f.roundMag_le_inf _ _)
    | (split; exacts [f.result_none, f.result_signed _ le_rfl])

theorem Fmt.result_div (f : Fmt) (u v : Fp) : f.Result (f.div u v) := by
  rcases u with _ | s | ⟨s, x⟩ <;> rcases v with _ | t | ⟨t, y⟩ <;> simp only [Fmt.div]
  all_goals first
    | exact f.result_none
    | exact f.result_signed _ le_rfl
    | exact f.result_signed _ (Nat.zero_le _)
    | skip
  split
  · split
    · exact f.result_none
    · exact f.result_signed _ le_rfl
  · exact f.result_signed _ (f.roundMag_le_inf _ _)

theorem Fmt.result_convert (f : Fmt) (num den : Nat) (u : Fp) : f.Result (f.convert num den u) := by
  rcases u with _ | s | ⟨s, x⟩ <;> simp only [Fmt.convert]
  · exact f.result_none
  · exact f.result_signed _ le_rfl
  · exact f.result_signed _ (f.roundMag_le_inf _ _)

theorem nanEnc32 (q : Bool × Nat) : ∃ s n, fmt32.infEnc < n ∧ n < fmt32.signBit ∧ fmt32.nanEnc q = fmt32.signed s n := by
  refine ⟨q.1, fmt32.infEnc + 1 + q.2 % (2 ^ fmt32.frac - 1), by omega, ?_, rfl⟩
  simp only [fmt32_infEnc, fmt32_frac, fmt32_signBit]
  have := Nat.mod_lt q.2 (show 0 < 2 ^ 23 - 1 by norm_num)
  omega

theorem nanEnc64 (q : Bool × Nat) : ∃ s n, fmt64.infEnc < n ∧ n < fmt64.signBit ∧ fmt64.nanEnc q = fmt64.signed s n := by
  refine ⟨q.1, fmt64.infEnc + 1 + q.2 % (2 ^ fmt64.frac - 1), by omega, ?_, rfl⟩
  simp only [fmt64_infEnc, fmt64_frac, fmt64_signBit]
  have := Nat.mod_lt q.2 (show 0 < 2 ^ 52 - 1 by norm_num)
  omega

/-- An operation delivers a NaN exactly where its exact result is one, and its unpacked result otherwise. -/
theorem finish32 {r : Option Nat} (h : fmt32.Result r) (op : FpOp) (x y : Nat) :
    isNaN32 (BitVec.ofNat 32 (fmt32.finish op x y r)) = r.isNone ∧
      ∀ n, r = some n → (BitVec.ofNat 32 (fmt32.finish op x y r)).toNat = n := by
  rcases r with _ | n
  · obtain ⟨s, m, h1, h2, e⟩ := nanEnc32 (Config.freeNaN op x y)
    simp only [Fmt.finish, e, Option.isNone_none, reduceCtorEq, false_imp_iff, implies_true, and_true]
    rw [isNaN32, toNat_ofNat32 (fmt32.signed_lt s h2), fmt32.signed_mod s h2]
    simpa using h1
  · obtain ⟨s, m, h1, rfl⟩ := h n rfl
    have h2 := h1.trans_lt fmt32.infEnc_lt
    have e := toNat_ofNat32 (fmt32.signed_lt s h2)
    simp only [Fmt.finish, Option.isNone_some]
    refine ⟨?_, fun k hk => by rw [e]; exact Option.some.inj hk⟩
    rw [isNaN32, e, fmt32.signed_mod s h2]
    simpa using h1

@[inherit_doc finish32]
theorem finish64 {r : Option Nat} (h : fmt64.Result r) (op : FpOp) (x y : Nat) :
    isNaN64 (BitVec.ofNat 64 (fmt64.finish op x y r)) = r.isNone ∧
      ∀ n, r = some n → (BitVec.ofNat 64 (fmt64.finish op x y r)).toNat = n := by
  rcases r with _ | n
  · obtain ⟨s, m, h1, h2, e⟩ := nanEnc64 (Config.freeNaN op x y)
    simp only [Fmt.finish, e, Option.isNone_none, reduceCtorEq, false_imp_iff, implies_true, and_true]
    rw [isNaN64, toNat_ofNat64 (fmt64.signed_lt s h2), fmt64.signed_mod s h2]
    simpa using h1
  · obtain ⟨s, m, h1, rfl⟩ := h n rfl
    have h2 := h1.trans_lt fmt64.infEnc_lt
    have e := toNat_ofNat64 (fmt64.signed_lt s h2)
    simp only [Fmt.finish, Option.isNone_some]
    refine ⟨?_, fun k hk => by rw [e]; exact Option.some.inj hk⟩
    rw [isNaN64, e, fmt64.signed_mod s h2]
    simpa using h1

theorem isNaN32_add32 (a b : F32) : isNaN32 (add32 a b) = (fmt32.add (fmt32.unpack a.toNat) (fmt32.unpack b.toNat)).isNone :=
  (finish32 (fmt32.result_add _ _) _ _ _).1
theorem isNaN32_sub32 (a b : F32) :
    isNaN32 (sub32 a b) = (fmt32.add (fmt32.unpack a.toNat) (fmt32.unpack b.toNat).neg).isNone :=
  (finish32 (fmt32.result_add _ _) _ _ _).1
theorem isNaN32_mul32 (a b : F32) : isNaN32 (mul32 a b) = (fmt32.mul (fmt32.unpack a.toNat) (fmt32.unpack b.toNat)).isNone :=
  (finish32 (fmt32.result_mul _ _) _ _ _).1
theorem isNaN32_div32 (a b : F32) : isNaN32 (div32 a b) = (fmt32.div (fmt32.unpack a.toNat) (fmt32.unpack b.toNat)).isNone :=
  (finish32 (fmt32.result_div _ _) _ _ _).1

theorem Fmt.add_nan_right (f : Fmt) (u : Fp) : f.add u .nan = none := by rcases u with _ | s | ⟨s, x⟩ <;> rfl
theorem Fmt.mul_nan_right (f : Fmt) (u : Fp) : f.mul u .nan = none := by rcases u with _ | s | ⟨s, x⟩ <;> rfl

/-- A NaN operand makes the result a NaN (R10). -/
theorem isNaN32_add32_left {a : F32} (b : F32) (h : isNaN32 a = true) : isNaN32 (add32 a b) = true := by
  rw [isNaN32_add32, (unpack_nan_iff32 a).2 h]; rfl
@[inherit_doc isNaN32_add32_left]
theorem isNaN32_add32_right (a : F32) {b : F32} (h : isNaN32 b = true) : isNaN32 (add32 a b) = true := by
  rw [isNaN32_add32, (unpack_nan_iff32 b).2 h, Fmt.add_nan_right]; rfl
@[inherit_doc isNaN32_add32_left]
theorem isNaN32_mul32_left {a : F32} (b : F32) (h : isNaN32 a = true) : isNaN32 (mul32 a b) = true := by
  rw [isNaN32_mul32, (unpack_nan_iff32 a).2 h]; rfl
@[inherit_doc isNaN32_add32_left]
theorem isNaN32_mul32_right (a : F32) {b : F32} (h : isNaN32 b = true) : isNaN32 (mul32 a b) = true := by
  rw [isNaN32_mul32, (unpack_nan_iff32 b).2 h, Fmt.mul_nan_right]; rfl

theorem isNaN32_ftz32 {a : F32} (h : isNaN32 a = true) : isNaN32 (ftz32 a) = true := by
  rw [ftz32_of_not_subnormal]
  · exact h
  · refine decide_eq_false ?_
    simp only [isNaN32, decide_eq_true_eq, fmt32_infEnc, fmt32_signBit, fmt32_frac] at *
    omega

end Sys2Proof.Machine
end

