-- ==== Sys2Proof/Laws/Exact.lean ====
section
/-! SUPPORT. Operations whose result is exact: conversions, integers as binary32, products with one, sums with zero; and what the IEEE
order says about magnitudes. -/

namespace Sys2Proof.Machine

/-! ### Representable magnitudes -/

/-- A magnitude of at most `frac + 1` significant bits is a number of the format. -/
theorem Fmt.exists_magOf (f : Fmt) {s : Nat} (hs : s < 2 ^ (f.frac + 1)) (e : Nat) : ∃ n, f.magOf n = s * 2 ^ e := by
  rcases Nat.eq_zero_or_pos s with h0 | h0
  · exact ⟨0, by simp [h0]⟩
  have hl : s.log2 < f.frac + 1 := (Nat.log2_lt (by omega)).2 hs
  have hge : 2 ^ s.log2 ≤ s := (Nat.le_log2 (by omega)).1 le_rfl
  have hlt : s < 2 ^ (s.log2 + 1) := (Nat.log2_lt (by omega)).1 (Nat.lt_succ_self _)
  generalize s.log2 = l at *
  rcases Nat.lt_or_ge e (f.frac - l) with h | h
  · have hx : s * 2 ^ e < 2 ^ f.frac := by
      calc s * 2 ^ e < 2 ^ (l + 1) * 2 ^ e := Nat.mul_lt_mul_of_pos_right hlt (Nat.two_pow_pos e)
        _ = 2 ^ (l + 1 + e) := (pow_add 2 (l + 1) e).symm
        _ ≤ 2 ^ f.frac := Nat.pow_le_pow_right (by omega) (by omega)
    exact ⟨s * 2 ^ e, by rw [Fmt.magOf, if_pos (Nat.div_eq_of_lt hx)]⟩
  · obtain ⟨k, hk⟩ : ∃ k, e = f.frac - l + k := ⟨e - (f.frac - l), by omega⟩
    have h1 : 2 ^ f.frac ≤ s * 2 ^ (f.frac - l) := by
      calc 2 ^ f.frac = 2 ^ l * 2 ^ (f.frac - l) := by rw [← pow_add]; congr 1; omega
        _ ≤ _ := Nat.mul_le_mul_right _ hge
    have h2 : s * 2 ^ (f.frac - l) < 2 ^ f.frac + 2 ^ f.frac := by
      calc s * 2 ^ (f.frac - l) < 2 ^ (l + 1) * 2 ^ (f.frac - l) := Nat.mul_lt_mul_of_pos_right hlt (Nat.two_pow_pos _)
        _ = 2 ^ (f.frac + 1) := by rw [← pow_add]; congr 1; omega
        _ = _ := by rw [pow_succ]; ring
    obtain ⟨m, hm⟩ : ∃ m, s * 2 ^ (f.frac - l) = 2 ^ f.frac + m := ⟨_, (Nat.add_sub_cancel' h1).symm⟩
    have hm' : m < 2 ^ f.frac := by omega
    refine ⟨(k + 1) * 2 ^ f.frac + m, ?_⟩
    have hdiv : ((k + 1) * 2 ^ f.frac + m) / 2 ^ f.frac = k + 1 := by
      rw [Nat.mul_comm, Nat.mul_add_div (Nat.two_pow_pos _), Nat.div_eq_of_lt hm', Nat.add_zero]
    have hmod : ((k + 1) * 2 ^ f.frac + m) % 2 ^ f.frac = m := by
      rw [Nat.mul_comm, Nat.mul_add_mod, Nat.mod_eq_of_lt hm']
    rw [Fmt.magOf, hdiv, hmod, if_neg (by omega), ← hm, Nat.add_sub_cancel, hk, pow_add]
    ring

theorem Fmt.magOf_form (f : Fmt) (n : Nat) : ∃ s e, s < 2 ^ (f.frac + 1) ∧ f.magOf n = s * 2 ^ e := by
  have hm := Nat.mod_lt n (Nat.two_pow_pos f.frac)
  unfold Fmt.magOf
  split
  · rename_i h
    refine ⟨n, 0, ?_, by simp⟩
    have := Nat.lt_of_div_eq_zero (Nat.two_pow_pos _) h
    rw [pow_succ]; omega
  · exact ⟨2 ^ f.frac + n % 2 ^ f.frac, _, by rw [pow_succ]; omega, rfl⟩

/-- A representable magnitude below infinity keeps its value. -/
theorem Fmt.magOf_roundMag (f : Fmt) {s e : Nat} (hs : s < 2 ^ (f.frac + 1)) (h : s * 2 ^ e < f.magOf f.infEnc) :
    f.roundMag (s * 2 ^ e) 1 < f.infEnc ∧ f.magOf (f.roundMag (s * 2 ^ e) 1) = s * 2 ^ e := by
  obtain ⟨n, hn⟩ := f.exists_magOf hs e
  have hlt : n < f.infEnc := by
    by_contra hle
    have := (f.magOf_le_iff f.infEnc n).2 (by omega)
    omega
  rw [f.roundMag_exact (n := n) Nat.one_pos hlt.le (by omega)]
  exact ⟨hlt, hn⟩

theorem Fmt.value_of_lt (f : Fmt) (neg : Bool) {n : Nat} (h : n < f.infEnc) : f.value neg n = .fin neg (f.magOf n) := by
  rw [Fmt.value, if_neg (by omega)]

theorem magOf32_inf : fmt32.magOf fmt32.infEnc = 2 ^ 277 := by decide +kernel
theorem magOf64_inf : fmt64.magOf fmt64.infEnc = 2 ^ 2098 := by decide +kernel

/-! ### The order of values -/

theorem Fmt.order_signed (f : Fmt) (neg : Bool) {n : Nat} (h : n ≤ f.infEnc) :
    f.order (f.signed neg n) = some (if neg then -(n : Int) else n) := by
  have hlt := h.trans_lt f.infEnc_lt
  have hd := f.signed_div neg hlt
  simp only [Fmt.order, f.signed_mod neg hlt]
  rw [if_neg (by omega)]
  cases neg <;> simp_all

/-- The encodings from a positive number upward are its own and those that count on from it. -/
theorem le32_pos {a d : F32} (ha : 0 < a.toNat) (ha' : a.toNat ≤ fmt32.infEnc) (h : le32 a d = true) :
    a.toNat ≤ d.toNat ∧ d.toNat ≤ fmt32.infEnc := by
  obtain ⟨x, y, hx, hy, hxy⟩ := (le32_iff a d).1 h
  have h1 : fmt32.order a.toNat = some (a.toNat : Int) := by
    have := fmt32.order_signed false ha'
    simpa [Fmt.signed] using this
  obtain ⟨s, n, hn, e, -, -⟩ := signed_of_not_nan32 (le32_not_nan h).2
  rw [e, fmt32.order_signed s hn] at hy
  rw [h1] at hx
  cases hx; cases hy
  cases s
  · simp only [Fmt.signed, Bool.false_eq_true, if_false, Nat.zero_add] at e hxy
    omega
  · simp only [if_true] at hxy
    omega

theorem unpack_of_le_inf32 {d : F32} (h : d.toNat ≤ fmt32.infEnc) : fmt32.unpack d.toNat = fmt32.value false d.toNat := by
  have := fmt32.unpack_signed false h
  simpa [Fmt.signed] using this

theorem le32_of_toNat_le {a b : F32} (h : a.toNat ≤ b.toNat) (hb : b.toNat ≤ fmt32.infEnc) : le32 a b = true := by
  have e1 := fmt32.order_signed false (h.trans hb)
  have e2 := fmt32.order_signed false hb
  simp only [Fmt.signed, Bool.false_eq_true, if_false, Nat.zero_add] at e1 e2
  exact (le32_iff a b).2 ⟨_, _, e1, e2, by simpa using h⟩

/-! ### Integers as binary32 -/

theorem toNat_float32 (n : Nat) : (float32 n).toNat = fmt32.roundMag (n * fmt32.one) 1 := by
  rw [float32]
  refine toNat_ofNat32 ?_
  have := fmt32.roundMag_le_inf (n * fmt32.one) 1
  have := fmt32.infEnc_lt
  omega

theorem toNat_float32_le (n : Nat) : (float32 n).toNat ≤ fmt32.infEnc := by
  rw [toNat_float32]; exact fmt32.roundMag_le_inf _ _

theorem float32_mono {m n : Nat} (h : m ≤ n) : (float32 m).toNat ≤ (float32 n).toNat := by
  rw [toNat_float32, toNat_float32]
  exact fmt32.roundMag_mono Nat.one_pos Nat.one_pos (by simpa using Nat.mul_le_mul_right fmt32.one h)

theorem float32_one : float32 1 = one32 := by decide +kernel

/-- A positive integer is at least 1.0. -/
theorem one_le_float32 {n : Nat} (h : 1 ≤ n) : le32 one32 (float32 n) = true := by
  refine le32_of_toNat_le ?_ (toNat_float32_le n)
  have := float32_mono h
  rwa [float32_one] at this

/-- `float32(n)` is exact up to `2^24` (R10). -/
theorem magOf_float32 {n : Nat} (h : n ≤ 2 ^ 24) :
    (float32 n).toNat < fmt32.infEnc ∧ fmt32.magOf (float32 n).toNat = n * 2 ^ 149 := by
  rw [toNat_float32, fmt32_one]
  rcases h.lt_or_eq with hlt | rfl
  · refine fmt32.magOf_roundMag (by simpa using hlt) ?_
    rw [magOf32_inf]
    calc n * 2 ^ 149 < 2 ^ 24 * 2 ^ 149 := Nat.mul_lt_mul_of_pos_right hlt (Nat.two_pow_pos _)
      _ ≤ 2 ^ 277 := by rw [← pow_add]; exact Nat.pow_le_pow_right (by omega) (by omega)
  · have := fmt32.magOf_roundMag (s := 1) (e := 173) (by norm_num)
      (by rw [magOf32_inf, Nat.one_mul]; exact Nat.pow_lt_pow_right (by omega) (by omega))
    rw [show (2 : Nat) ^ 24 * 2 ^ 149 = 1 * 2 ^ 173 by rw [← pow_add]; norm_num]
    exact this

theorem unpack_float32 {n : Nat} (h : n ≤ 2 ^ 24) : fmt32.unpack (float32 n).toNat = .fin false (n * 2 ^ 149) := by
  obtain ⟨h1, h2⟩ := magOf_float32 h
  rw [unpack_of_le_inf32 h1.le, fmt32.value_of_lt _ h1, h2]

theorem ceilDiv_mul (n : Nat) {k : Nat} (h : 0 < k) : (n * k + (k - 1)) / k = n := by
  rw [Nat.mul_comm, Nat.mul_add_div h, Nat.div_eq_of_lt (by omega), Nat.add_zero]

theorem Fmt.ceilInt_fin (f : Fmt) {n x : Nat} (h : f.unpack n = .fin false x) :
    f.ceilInt n = ((x + (f.one - 1)) / f.one : Nat) := by rw [Fmt.ceilInt, h]

theorem ceil32_float32 {n : Nat} (h : n ≤ 2 ^ 24) : ceil32 (float32 n) = n := by
  rw [ceil32, fmt32.ceilInt_fin (unpack_float32 h), fmt32_one, ceilDiv_mul n (Nat.two_pow_pos _)]

/-! ### Conversions -/

theorem Fmt.convert_fin (f : Fmt) (num den : Nat) (s : Bool) (x : Nat) :
    f.convert num den (.fin s x) = some (f.signed s (f.roundMag (x * num) den)) := rfl
theorem Fmt.convert_inf (f : Fmt) (num den : Nat) (s : Bool) : f.convert num den (.inf s) = some (f.signed s f.infEnc) := rfl
theorem Fmt.convert_nan (f : Fmt) (num den : Nat) : f.convert num den .nan = none := rfl

/-- The delivered result of a conversion to binary64. -/
theorem f64_result (a : F32) : isNaN64 (f64 a) = (fmt64.convert (2 ^ 925) 1 (fmt32.unpack a.toNat)).isNone ∧
    ∀ n, fmt64.convert (2 ^ 925) 1 (fmt32.unpack a.toNat) = some n → (f64 a).toNat = n :=
  finish64 (fmt64.result_convert _ _ _) .f64 a.toNat 0

/-- The delivered result of a conversion to binary32. -/
theorem round32_result (x : F64) : isNaN32 (round32 x) = (fmt32.convert 1 (2 ^ 925) (fmt64.unpack x.toNat)).isNone ∧
    ∀ n, fmt32.convert 1 (2 ^ 925) (fmt64.unpack x.toNat) = some n → (round32 x).toNat = n :=
  finish32 (fmt32.result_convert _ _ _) .round32 x.toNat 0

theorem f64_finite {a : F32} {s : Bool} {x : Nat} (h : fmt32.unpack a.toNat = .fin s x) :
    fmt64.unpack (f64 a).toNat = .fin s (x * 2 ^ 925) ∧ (f64 a).toNat = fmt64.signed s (fmt64.roundMag (x * 2 ^ 925) 1) ∧
      fmt64.roundMag (x * 2 ^ 925) 1 < fmt64.infEnc := by
  have hna : isNaN32 a = false := by
    rcases hb : isNaN32 a with _ | _
    · rfl
    · rw [(unpack_nan_iff32 a).2 hb] at h; cases h
  obtain ⟨t, n, hn, -, -, hv⟩ := signed_of_not_nan32 hna
  rw [hv, Fmt.value] at h
  split at h
  · cases h
  obtain ⟨rfl, rfl⟩ := Fp.fin.inj h
  have hlt : n < fmt32.infEnc := by omega
  obtain ⟨sg, e, hs, he⟩ := fmt32.magOf_form n
  have hb : fmt32.magOf n < 2 ^ 277 := magOf32_inf ▸ fmt32.magOf_strictMono hlt
  have hrm := fmt64.magOf_roundMag (s := sg) (e := e + 925) (lt_trans hs (by norm_num)) (by
    rw [magOf64_inf, pow_add, ← Nat.mul_assoc, ← he]
    calc fmt32.magOf n * 2 ^ 925 < 2 ^ 277 * 2 ^ 925 := Nat.mul_lt_mul_of_pos_right hb (Nat.two_pow_pos _)
      _ ≤ 2 ^ 2098 := by rw [← pow_add]; exact Nat.pow_le_pow_right (by omega) (by omega))
  rw [pow_add, ← Nat.mul_assoc, ← he] at hrm
  have hto' : (f64 a).toNat = fmt64.signed t (fmt64.roundMag (fmt32.magOf n * 2 ^ 925) 1) := by
    refine (f64_result a).2 _ ?_
    rw [hv, fmt32.value_of_lt _ hlt, Fmt.convert_fin]
  refine ⟨?_, hto', hrm.1⟩
  rw [hto', fmt64.unpack_signed _ hrm.1.le, fmt64.value_of_lt _ hrm.1, hrm.2]

theorem toNat_f64_inf {a : F32} {s : Bool} (h : fmt32.unpack a.toNat = .inf s) : (f64 a).toNat = fmt64.signed s fmt64.infEnc :=
  (f64_result a).2 _ (by rw [h, Fmt.convert_inf])

theorem f64_inf {a : F32} {s : Bool} (h : fmt32.unpack a.toNat = .inf s) : fmt64.unpack (f64 a).toNat = .inf s := by
  rw [toNat_f64_inf h, fmt64.unpack_signed _ le_rfl, Fmt.value, if_pos rfl]

theorem isNaN64_f64 {a : F32} (h : isNaN32 a = true) : isNaN64 (f64 a) = true := by
  rw [(f64_result a).1, (unpack_nan_iff32 a).2 h, Fmt.convert_nan]; rfl

/-- `f64` is exact: rounding back gives the value itself (R10). -/
theorem round32_f64 {a : F32} (h : isNaN32 a = false) : round32 (f64 a) = a := by
  obtain ⟨s, n, hn, -, hbv, hv⟩ := signed_of_not_nan32 h
  rw [hbv]
  refine BitVec.eq_of_toNat_eq ?_
  rw [toNat_ofNat32 (fmt32.signed_lt s (hn.trans_lt fmt32.infEnc_lt)), ← hbv]
  refine (round32_result _).2 _ ?_
  rw [Fmt.value] at hv
  split at hv
  · rename_i e
    rw [f64_inf hv, Fmt.convert_inf, e]
  · rw [(f64_finite hv).1, Fmt.convert_fin, Nat.mul_one, fmt32.roundMag_exact (Nat.two_pow_pos _) hn rfl]

/-- A binary32 value is never a subnormal binary64. -/
theorem f64_not_subnormal (a : F32) : isSubnormal64 (f64 a) = false := by
  rcases hu : fmt32.unpack a.toNat with _ | s | ⟨s, x⟩
  · have h := isNaN64_f64 ((unpack_nan_iff32 a).1 hu)
    refine decide_eq_false ?_
    simp only [isNaN64, decide_eq_true_eq, fmt64_infEnc, fmt64_signBit, fmt64_frac] at *
    omega
  · refine decide_eq_false ?_
    rw [toNat_f64_inf hu, fmt64.signed_mod s fmt64.infEnc_lt]
    simp only [fmt64_infEnc, fmt64_frac]
    omega
  · obtain ⟨-, hto, hlt⟩ := f64_finite hu
    refine decide_eq_false ?_
    rw [hto, fmt64.signed_mod s (hlt.trans fmt64.infEnc_lt)]
    rintro ⟨h1, h2⟩
    have hx : 1 ≤ x := by
      rcases Nat.eq_zero_or_pos x with rfl | h
      · simp [fmt64.roundMag_zero Nat.one_pos] at h1
      · exact h
    have := fmt64.le_roundMag (n := 2 ^ 52) (num := x * 2 ^ 925) (den := 1) Nat.one_pos
      (by rw [fmt64_infEnc]; norm_num) (by
        have : fmt64.magOf (2 ^ 52) = 2 ^ 52 := by decide +kernel
        rw [this, Nat.mul_one]
        calc (2 : Nat) ^ 52 ≤ 2 ^ 925 := Nat.pow_le_pow_right (by omega) (by omega)
          _ ≤ x * 2 ^ 925 := Nat.le_mul_of_pos_left _ hx)
    rw [fmt64_frac] at h2
    omega

/-! ### Products with one, sums with zero -/

theorem unpack_one32 : fmt32.unpack (one32 : F32).toNat = .fin false (2 ^ 149) := by decide +kernel
theorem unpack_zero32 : fmt32.unpack (zero32 : F32).toNat = .fin false 0 := by decide +kernel

/-- A result that is an encoding's own value is the encoding. -/
theorem finish32_eq {a : F32} {r : Option Nat} {op : FpOp} {x y : Nat} (hr : fmt32.Result r)
    (h : r = some a.toNat) : BitVec.ofNat 32 (fmt32.finish op x y r) = a :=
  BitVec.eq_of_toNat_eq ((finish32 hr op x y).2 _ h)

theorem mul32_one_right {a : F32} (h : isNaN32 a = false) : mul32 a one32 = a := by
  obtain ⟨s, n, hn, he, -, hv⟩ := signed_of_not_nan32 h
  refine finish32_eq (fmt32.result_mul _ _) ?_
  rw [hv, unpack_one32, he, Fmt.value]
  split
  · rename_i e
    simp [Fmt.mul, e]
  · simp only [Fmt.mul, fmt32_one, Bool.bne_false]
    congr 2
    exact fmt32.roundMag_exact (Nat.two_pow_pos _) hn rfl

theorem mul32_one_left {a : F32} (h : isNaN32 a = false) : mul32 one32 a = a := by
  obtain ⟨s, n, hn, he, -, hv⟩ := signed_of_not_nan32 h
  refine finish32_eq (fmt32.result_mul _ _) ?_
  rw [hv, unpack_one32, he, Fmt.value]
  split
  · rename_i e
    simp [Fmt.mul, e]
  · simp only [Fmt.mul, fmt32_one, Bool.false_bne]
    congr 2
    exact fmt32.roundMag_exact (Nat.two_pow_pos _) hn (by rw [Nat.mul_comm])

/-- A sum with a zero of either sign is the other operand, but for a negative zero. -/
theorem add32_zero_right {a z : F32} {t : Bool} (h : isNaN32 a = false) (ha : a ≠ 0x80000000)
    (hz : fmt32.unpack z.toNat = .fin t 0) (ht : a.toNat = 0 → t = false) : add32 a z = a := by
  obtain ⟨s, n, hn, he, hbv, hv⟩ := signed_of_not_nan32 h
  refine finish32_eq (fmt32.result_add _ _) ?_
  rw [hv, hz, he, Fmt.value]
  split
  · rename_i e
    simp [Fmt.add, e]
  · have hx : fmt32.roundMag (fmt32.magOf n) 1 = n := fmt32.roundMag_magOf hn
    simp only [Fmt.add, Nat.add_zero, Nat.sub_zero, hx, Nat.not_lt_zero, if_false]
    rcases Nat.eq_zero_or_pos n with h0 | h0
    · subst h0
      cases s
      · have : t = false := ht (by rw [he]; rfl)
        subst this
        rfl
      · exact absurd (by rw [hbv]; decide) ha
    · have hm : 0 < fmt32.magOf n := by
        have := fmt32.magOf_strictMono h0
        rwa [fmt32.magOf_zero] at this
      rw [if_pos hm]
      split <;> rfl

/-- A zero of either sign plus another number that is no zero. -/
theorem add32_zero_left {a z : F32} {t : Bool} (h : isNaN32 a = false) (h0 : a ≠ zero32) (ha : a ≠ 0x80000000)
    (hz : fmt32.unpack z.toNat = .fin t 0) : add32 z a = a := by
  obtain ⟨s, n, hn, he, hbv, hv⟩ := signed_of_not_nan32 h
  refine finish32_eq (fmt32.result_add _ _) ?_
  rw [hv, hz, he, Fmt.value]
  split
  · rename_i e
    simp [Fmt.add, e]
  · have hx : fmt32.roundMag (fmt32.magOf n) 1 = n := fmt32.roundMag_magOf hn
    rcases Nat.eq_zero_or_pos n with h1 | h1
    · subst h1
      cases s
      · exact absurd (by rw [hbv]; decide) h0
      · exact absurd (by rw [hbv]; decide) ha
    · have hm : 0 < fmt32.magOf n := by
        have := fmt32.magOf_strictMono h1
        rwa [fmt32.magOf_zero] at this
      simp only [Fmt.add, Nat.zero_add, Nat.sub_zero, hx, Nat.not_lt_zero, if_false, if_pos hm]
      split
      · rename_i e; rw [e]
      · rfl

/-- A finite number times +0.0 is a zero. -/
theorem unpack_mul32_zero {a : F32} (h : isFinite32 a = true) : ∃ t, fmt32.unpack (mul32 a zero32).toNat = .fin t 0 := by
  obtain ⟨s, m, hm⟩ := (isFinite32_iff a).1 h
  refine ⟨s != false, ?_⟩
  have hr : fmt32.mul (fmt32.unpack a.toNat) (fmt32.unpack (zero32 : F32).toNat) = some (fmt32.signed (s != false) 0) := by
    rw [hm, unpack_zero32]
    simp only [Fmt.mul, Nat.mul_zero]
    rfl
  rw [show (mul32 a zero32).toNat = fmt32.signed (s != false) 0 from (finish32 (fmt32.result_mul _ _) .mul32 _ _).2 _ hr]
  cases s <;> decide +kernel

/-- The sum of two zeros is a zero. -/
theorem unpack_add32_zeros {a b : F32} {s t : Bool} (ha : fmt32.unpack a.toNat = .fin s 0) (hb : fmt32.unpack b.toNat = .fin t 0) :
    ∃ u, fmt32.unpack (add32 a b).toNat = .fin u 0 := by
  obtain ⟨u, hu⟩ : ∃ u, fmt32.add (fmt32.unpack a.toNat) (fmt32.unpack b.toNat) = some (fmt32.signed u 0) := by
    rw [ha, hb]
    cases s <;> cases t
    exacts [⟨false, rfl⟩, ⟨false, rfl⟩, ⟨false, rfl⟩, ⟨true, rfl⟩]
  refine ⟨u, ?_⟩
  rw [show (add32 a b).toNat = fmt32.signed u 0 from (finish32 (fmt32.result_add _ _) .add32 _ _).2 _ hu]
  cases u <;> decide +kernel

end Sys2Proof.Machine
end

