-- ==== Sys2Proof/Laws/Executor.lean ====
section
/-! SUPPORT. Everything a step can be (20_memory.md R68, R72): one lemma per agent and one for `step`, so that a proof over all steps is a short
case analysis. -/

namespace Sys2Proof.Machine

/-! ### Decoding -/

/-- A decoded command belongs to its port. -/
theorem port_command {op : Opcode} {p : Port} {w a b : Word} (h : op.validOn p = true) : (op.command p w a b).port = p := by
  cases op <;> cases p <;> simp_all [Opcode.validOn, Opcode.command, Instr.port]

theorem opcode_command (op : Opcode) (p : Port) (w a b : Word) : (op.command p w a b).opcode = op := by cases op <;> rfl

/-- What a queue that decodes to a command holds. -/
theorem decode_command {p : Port} {q : List Word} {i : Instr} {rest : List Word} (h : decode p q = .command i rest) :
    ∃ w after op, q = w :: after ∧ Opcode.ofByte (opcField w) = some op ∧ op.payload ≤ after.length ∧ op.validOn p = true ∧
      w &&& op.format.reservedMask = 0 ∧ i = op.command p w (after.getD 0 0) (after.getD 1 0) ∧ rest = after.drop op.payload := by
  unfold decode at h
  split at h
  · cases h
  · rename_i w after
    split at h
    · cases h
    · rename_i op hop
      split at h
      · cases h
      · dsimp only at h
        split at h
        · cases h
        · split at h
          · cases h
          · simp only [Decoded.command.injEq] at h
            refine ⟨w, after, op, rfl, hop, by omega, by simp_all, by simp_all, h.1.symm, h.2.symm⟩

theorem port_of_decode {p : Port} {q : List Word} {i : Instr} {rest : List Word} (h : decode p q = .command i rest) :
    i.port = p := by
  obtain ⟨w, after, op, -, -, -, hv, -, rfl, -⟩ := decode_command h
  exact port_command hv

/-! ### Command steps -/

theorem hasRoom_zero (s : State) (p : Port) : s.hasRoom p 0 = true := by simp [State.hasRoom]

theorem fetch_nil {p : Port} {s : State} (h : s.commands p = []) : fetch p s = none := by simp [fetch, h, decode]

/-- What is taken from a queue that is not empty, by the opcode of its head word (R250). -/
theorem fetch_cons {p : Port} {s : State} {w : Word} {after : List Word} (h : s.commands p = w :: after) :
    fetch p s =
      match Opcode.ofByte (opcField w) with
      | none => some (.rejected .illegalOpcode (s.setCommands p after))
      | some op =>
        if after.length < op.payload then none
        else if op.validOn p = false then some (.rejected .wrongPort (s.setCommands p (after.drop op.payload)))
        else if s.hasRoom p op.resp = false then none
        else if w &&& op.format.reservedMask = 0 then
          some (.command (op.command p w (after.getD 0 0) (after.getD 1 0)) (s.setCommands p (after.drop op.payload)))
        else some (.rejected (.reservedBits op.resp) (s.setCommands p (after.drop op.payload))) := by
  rw [fetch, h, decode]
  rcases Opcode.ofByte (opcField w) with _ | op
  · simp [Reject.resp, hasRoom_zero]
  · dsimp only
    by_cases h1 : after.length < op.payload
    · simp [h1]
    · by_cases h2 : op.validOn p = false
      · simp [h1, h2, Reject.resp, hasRoom_zero]
      · by_cases h3 : w &&& op.format.reservedMask = 0 <;> by_cases h4 : s.hasRoom p op.resp = true <;>
          simp only [ne_eq, h1, h2, h3, h4, Reject.resp, opcode_command, not_true_eq_false, not_false_eq_true, if_true, if_false,
            Bool.true_eq_false, Bool.false_eq_true]

/-- Everything a command step can be. -/
theorem commandStep_cases {p : Port} {s : State} {o : Host.Outcome State Fault Refusal} (h : commandStep p s = some o) :
    (∃ i q, decode p (s.commands p) = .command i q ∧ s.hasRoom p i.opcode.resp = true ∧ i.port = p ∧
      o = exec i (s.setCommands p q)) ∨
    (∃ r q, decode p (s.commands p) = .rejected r q ∧ s.hasRoom p (Reject.resp r) = true ∧
      o = .next (endRejected p r (s.setCommands p q))) := by
  unfold commandStep fetch at h
  rcases hd : decode p (s.commands p) with _ | ⟨i, q⟩ | ⟨r, q⟩
  · simp [hd] at h
  · simp only [hd] at h
    split at h
    · cases h
    · rename_i heq
      split at heq
      · simp only [Option.some.injEq, Fetched.command.injEq] at heq h
        obtain ⟨rfl, rfl⟩ := heq
        exact .inl ⟨_, _, rfl, by assumption, port_of_decode hd, h.symm⟩
      · cases heq
    · rename_i heq
      split at heq <;> cases heq
  · simp only [hd] at h
    split at h
    · cases h
    · rename_i heq
      split at heq <;> cases heq
    · rename_i heq
      split at heq
      · simp only [Option.some.injEq, Fetched.rejected.injEq] at heq h
        obtain ⟨rfl, rfl⟩ := heq
        exact .inr ⟨_, _, rfl, by assumption, h.symm⟩
      · cases heq

/-- A command step that takes a next state: a command that passes its checks, or one that ends with an error (R250). -/
theorem commandStep_next {p : Port} {s t : State} (h : commandStep p s = some (.next t)) :
    (∃ i q, decode p (s.commands p) = .command i q ∧ s.hasRoom p i.opcode.resp = true ∧ i.port = p ∧
      checkError i (s.setCommands p q) = none ∧ t = commandEffect i (s.setCommands p q)) ∨
    (∃ q e n, s.hasRoom p n = true ∧ t = (s.setCommands p q).endWithError p e n ∧ (∃ k, q = (s.commands p).drop k)) := by
  rcases commandStep_cases h with ⟨i, q, hd, hr, hp, ho⟩ | ⟨r, q, hd, hr, ho⟩
  · obtain ⟨w, after, op, hq, -, -, -, -, -, hrest⟩ := decode_command hd
    rcases exec_cases ho.symm with ⟨e, he, ht⟩ | ⟨he, ht⟩
    · refine .inr ⟨q, e, _, hr, by rw [ht, hp], 1 + op.payload, ?_⟩
      rw [hq, hrest, Nat.add_comm, List.drop_succ_cons]
    · exact .inl ⟨i, q, hd, hr, hp, he, ht⟩
  · refine .inr ⟨q, Reject.err r, Reject.resp r, hr, by simpa [endRejected] using ho, ?_⟩
    unfold decode at hd
    split at hd
    · cases hd
    · rename_i w after heq
      rw [heq]
      split at hd
      · simp only [Decoded.rejected.injEq] at hd
        exact ⟨1, hd.2.symm⟩
      · rename_i op hop
        split at hd
        · cases hd
        · dsimp only at hd
          split at hd
          · simp only [Decoded.rejected.injEq] at hd
            exact ⟨op.payload + 1, by rw [List.drop_succ_cons]; exact hd.2.symm⟩
          · split at hd
            · simp only [Decoded.rejected.injEq] at hd
              exact ⟨op.payload + 1, by rw [List.drop_succ_cons]; exact hd.2.symm⟩
            · cases hd

/-- A command step is enabled, or not, by its two queues alone (R72). -/
theorem commandStep_isSome (p : Port) (s : State) :
    (commandStep p s).isSome = match decode p (s.commands p) with
      | .incomplete => false
      | .command i _ => s.hasRoom p i.opcode.resp
      | .rejected r _ => s.hasRoom p (Reject.resp r) := by
  unfold commandStep fetch
  rcases hd : decode p (s.commands p) with _ | ⟨i, q⟩ | ⟨r, q⟩ <;> simp only
  · rfl
  · cases s.hasRoom p i.opcode.resp <;> rfl
  · cases s.hasRoom p (Reject.resp r) <;> rfl

/-! ### Frame steps -/

theorem takeFrame_some {ch : Channels} {q rest : List Word} {x : Frame} (h : takeFrame ch q = some (x, rest)) :
    q = x.words ++ rest ∧ x.words.length = ch.count := by
  unfold takeFrame at h
  split at h <;> simp_all [Frame.words, Channels.count]
  · obtain ⟨rfl, rfl⟩ := h; simp
  · obtain ⟨rfl, rfl⟩ := h; simp

theorem takeFrame_isSome (ch : Channels) (q : List Word) : (takeFrame ch q).isSome = decide (ch.count ≤ q.length) := by
  cases ch <;> rcases q with _ | ⟨a, _ | ⟨b, q⟩⟩ <;> simp [takeFrame, Channels.count]

theorem mix_words_length (m : F32) (w : Wet) (x : Frame) : (x.mix m w).words.length = x.words.length := by cases x <;> rfl

/-- The path's output frame has as many words as its input frame. -/
theorem pathFrame_words_length (s : State) (x : Frame) : (pathFrame s x).2.words.length = x.words.length := by
  unfold pathFrame
  split
  · rfl
  · exact mix_words_length _ _ _

/-- Everything a frame step can be (R253; 45_modulated_delay.md R207). -/
theorem frameStep_cases {s t : State} (h : frameStep s = some t) :
    (∃ ch n x rest, s.audio.inflight = some (.proc ch (n + 1)) ∧ takeFrame ch s.ports.inq = some (x, rest) ∧
      s.ports.outq.length + ch.count ≤ s.cfg.qDepth ∧
      t = retire (.proc ch) n
        { s with
          reverb := (pathFrame s x).1
          ports := { s.ports with inq := rest, outq := s.ports.outq ++ (pathFrame s x).2.words } }) ∨
    (∃ n x rest, s.audio.inflight = some (.mproc (n + 1)) ∧ s.ports.inq = x :: rest ∧ s.ports.outq.length + 1 ≤ s.cfg.qDepth ∧
      t = retire .mproc n
        { s with
          modu := (modProcess s.audio.fs s.audio.cap s.modu x).1
          ports := { s.ports with
            inq := rest, outq := s.ports.outq ++ [(modProcess s.audio.fs s.audio.cap s.modu x).2] } }) := by
  unfold frameStep at h
  split at h
  · cases h
  · rename_i ch m hf
    split at h
    · cases h
    · rename_i hm
      obtain ⟨n, rfl⟩ := Nat.exists_eq_succ_of_ne_zero hm
      unfold procFrameStep at h
      split at h
      · cases h
      · rename_i x rest ht
        split at h
        · rename_i hr
          simp only [Option.some.injEq] at h
          exact .inl ⟨ch, n, x, rest, hf, ht, hr, h.symm⟩
        · cases h
  · rename_i m hf
    split at h
    · cases h
    · rename_i hm
      obtain ⟨n, rfl⟩ := Nat.exists_eq_succ_of_ne_zero hm
      unfold mprocFrameStep at h
      split at h
      · cases h
      · rename_i x rest ht
        split at h
        · rename_i hr
          simp only [Option.some.injEq] at h
          exact .inr ⟨n, x, rest, hf, ht, hr, h.symm⟩
        · cases h

/-! ### Agents and the interleaving -/

/-- Everything an AUDIO step can be. -/
theorem audioStep_cases {s t : State} (h : audioStep s = some (.next t)) :
    (s.audio.inflight = none ∧ commandStep .audio s = some (.next t)) ∨ frameStep s = some t := by
  unfold audioStep at h
  split at h
  · exact .inl ⟨by assumption, h⟩
  · rcases hf : frameStep s with _ | u
    · simp [hf] at h
    · simp only [hf, Option.map_some, Option.some.injEq, Host.Outcome.next.injEq] at h
      exact .inr (by rw [h])

/-- Everything a host step can be. -/
theorem hostStep_cases {s t : State} (h : hostStep s = some (.next t)) :
    ∃ a rest, s.env.host = a :: rest ∧ hostAct a { s with env := { s.env with host := rest } } = some t := by
  unfold hostStep at h
  split at h
  · cases h
  · rename_i a rest he
    refine ⟨a, rest, he, ?_⟩
    rcases hf : hostAct a { s with env := { s.env with host := rest } } with _ | u
    · simp [hf] at h
    · simp only [hf, Option.map_some, Option.some.injEq, Host.Outcome.next.injEq] at h
      rw [h]

/-- A scheduled step: the agent's step, or nothing. -/
theorem scheduledStep_cases {a : Agent} {s t : State} (h : scheduledStep a s = .next t) :
    t = s ∨ agentStep a s = some (.next t) := by
  unfold scheduledStep at h
  split at h
  · rename_i o ho
    exact .inr (by rw [ho, h])
  · exact .inl (by simpa using h.symm)

/-- Everything a step can be: the choice of an agent changes the schedule or the count of choices, and then that agent makes its step or,
where it is not enabled, nothing happens. -/
theorem step_cases {s t : State} (h : step s = .next t) :
    ∃ e : Env, e.host = s.env.host ∧ e.cpuDraws = s.env.cpuDraws ∧
      (t = { s with env := e } ∨ ∃ a, agentStep a { s with env := e } = some (.next t)) := by
  unfold step interleavedStep at h
  split at h
  · rename_i a rest _
    refine ⟨{ s.env with sched := rest }, rfl, rfl, ?_⟩
    exact (scheduledStep_cases h).imp id fun h => ⟨a, h⟩
  · unfold unscheduledStep at h
    split at h
    · cases h
    · exact ⟨s.env, rfl, rfl, (scheduledStep_cases h).imp id fun h => ⟨_, h⟩⟩
    · exact ⟨{ s.env with turns := s.env.turns + 1 }, rfl, rfl, (scheduledStep_cases h).imp id fun h => ⟨_, h⟩⟩

/-- An invariant that the model's own fields do not enter is kept by every step, if every agent's step keeps it. -/
theorem step_keeps {P : State → Prop} (henv : ∀ s e, P s → P { s with env := e })
    (hcmd : ∀ p s t, P s → (p = .audio → s.audio.inflight = none) → commandStep p s = some (.next t) → P t)
    (hframe : ∀ s t, P s → frameStep s = some t → P t) (hhost : ∀ a s t, P s → hostAct a s = some t → P t) :
    ∀ s t, P s → step s = .next t → P t := by
  intro s t hs h
  obtain ⟨e, -, -, rfl | ⟨a, ha⟩⟩ := step_cases h
  · exact henv s e hs
  · cases a with
    | audio =>
      rcases audioStep_cases ha with ⟨hi, hc⟩ | hf
      · exact hcmd .audio _ t (henv s e hs) (fun _ => hi) hc
      · exact hframe _ t (henv s e hs) hf
    | ctrl => exact hcmd .ctrl _ t (henv s e hs) (fun h => by cases h) ha
    | host =>
      obtain ⟨a, rest, -, ht⟩ := hostStep_cases ha
      exact hhost a _ t (henv _ _ (henv s e hs)) ht

end Sys2Proof.Machine
end

