-- ==== Sys2Proof/Laws/Lines.lean ====
section
/-! SUPPORT. The delay-line micro-operations (40_delay_line.md): legal delays, the tap's cells, and that every operation keeps a legal
line legal. -/

namespace Sys2Proof.Machine

/-- A clamped delay lies in `[1, C-1]` (R110, R112). -/
theorem clampDelay_mem {cap : Nat} (hcap : 2 ≤ cap) (d : F32) :
    le32 one32 (clampDelay cap d) = true ∧ le32 (clampDelay cap d) (float32 (cap - 1)) = true :=
  clamp32_mem (one_le_float32 (by omega))

/-- A legal delay is a finite number between 1.0 and `C - 1`. -/
theorem legal_delay {cap : Nat} (hcap : cap ≤ 2 ^ 24) {d : F32} (h1 : le32 one32 d = true)
    (h2 : le32 d (float32 (cap - 1)) = true) :
    fmt32.unpack d.toNat = .fin false (fmt32.magOf d.toNat) ∧ one32.toNat ≤ d.toNat ∧ d.toNat < fmt32.infEnc ∧
      2 ^ 149 ≤ fmt32.magOf d.toNat ∧ fmt32.magOf d.toNat ≤ (cap - 1) * 2 ^ 149 := by
  have ho : fmt32.magOf (one32 : F32).toNat = 2 ^ 149 := by decide +kernel
  obtain ⟨a1, a2⟩ := le32_pos (by decide) (by decide) h1
  obtain ⟨b1, -⟩ := le32_pos (lt_of_lt_of_le (by decide) a1) a2 h2
  obtain ⟨c1, c2⟩ := magOf_float32 (n := cap - 1) (by omega)
  have hlt : d.toNat < fmt32.infEnc := by omega
  refine ⟨?_, a1, hlt, ?_, ?_⟩
  · rw [unpack_of_le_inf32 a2, fmt32.value_of_lt _ hlt]
  · rw [← ho]; exact (fmt32.magOf_le_iff _ _).2 a1
  · rw [← c2]; exact (fmt32.magOf_le_iff _ _).2 b1

theorem ceilDiv_le {x n k : Nat} (hk : 0 < k) (h : x ≤ n * k) : (x + (k - 1)) / k ≤ n := by
  rw [Nat.div_le_iff_le_mul_add_pred hk, Nat.mul_comm]; omega

theorem le_ceilDiv {x n k : Nat} (hk : 0 < k) (h : n * k ≤ x) : n ≤ (x + (k - 1)) / k := by
  rw [Nat.le_div_iff_mul_le hk]; omega

/-- `k = ceil(D)` of a legal delay is in `[1, C-1]`, and is 1 only for `D = 1` (R111, R113). -/
theorem tapCeil_mem {cap : Nat} (hcap : cap ≤ 2 ^ 24) {l : DelayLine} (h1 : le32 one32 l.d = true)
    (h2 : le32 l.d (float32 (cap - 1)) = true) :
    ∃ k : Nat, tapCeil l = k ∧ 1 ≤ k ∧ k ≤ cap - 1 ∧ (k = 1 → l.d = one32) := by
  obtain ⟨hu, hn1, hn2, hm1, hm2⟩ := legal_delay hcap h1 h2
  have hp : 0 < 2 ^ 149 := Nat.two_pow_pos _
  refine ⟨_, ?_, le_ceilDiv hp (by rwa [Nat.one_mul]), ceilDiv_le hp hm2, ?_⟩
  · rw [tapCeil, ceil32, fmt32.ceilInt_fin hu, fmt32_one]
  · intro hk
    have hle : fmt32.magOf l.d.toNat ≤ 2 ^ 149 := by
      by_contra hlt
      have h2 := le_ceilDiv (n := 1) hp (x := fmt32.magOf l.d.toNat - 1) (by omega)
      have h3 : fmt32.magOf l.d.toNat + (2 ^ 149 - 1) = (fmt32.magOf l.d.toNat - 1) + (2 ^ 149 - 1) + 1 := by omega
      have h4 : 2 * 2 ^ 149 ≤ fmt32.magOf l.d.toNat + (2 ^ 149 - 1) := by omega
      have := (Nat.le_div_iff_mul_le hp).2 h4
      omega
    have ho : fmt32.magOf (one32 : F32).toNat = 2 ^ 149 := by decide +kernel
    have : l.d.toNat ≤ (one32 : F32).toNat := (fmt32.magOf_le_iff _ _).1 (by rw [ho]; exact hle)
    exact BitVec.eq_of_toNat_eq (by omega)

theorem tapFrac_one {l : DelayLine} (h : l.d = one32) : eq32 (tapFrac l) zero32 = true := by
  have : tapCeil l = 1 := by rw [tapCeil, h]; decide +kernel
  rw [tapFrac, this, h]
  decide +kernel

/-- The older neighbour is not the cell at the cursor. -/
theorem tapOld_ne {cap k : Nat} {l : DelayLine} (hw : l.w < cap) (hk : tapCeil l = k) (h1 : 1 ≤ k) (h2 : k ≤ cap - 1) :
    tapOld cap l ≠ l.w := by
  rw [tapOld, hk]
  have hc : (0 : Int) < cap := by omega
  rcases Nat.lt_or_ge l.w k with h | h
  · have : ((l.w : Int) - k) % cap = l.w - k + cap := by
      rw [← Int.add_emod_right, Int.emod_eq_of_lt (by omega) (by omega)]
    omega
  · rw [Int.emod_eq_of_lt (by omega) (by omega)]; omega

/-- The newer neighbour is the cell at the cursor only for `k = 1`. -/
theorem tapNew_ne {cap k : Nat} {l : DelayLine} (hw : l.w < cap) (hk : tapCeil l = k) (h1 : 2 ≤ k) (h2 : k ≤ cap - 1) :
    tapNew cap l ≠ l.w := by
  rw [tapNew, tapOld, hk]
  have hc : (0 : Int) < cap := by omega
  rcases Nat.lt_or_ge l.w k with h | h
  · have : ((l.w : Int) - k) % cap = l.w - k + cap := by
      rw [← Int.add_emod_right, Int.emod_eq_of_lt (by omega) (by omega)]
    rw [this]
    rcases Nat.lt_or_ge (l.w + 1) k with hlt | hge
    · rw [Nat.mod_eq_of_lt (by omega)]; omega
    · rw [show ((l.w : Int) - k + cap).toNat + 1 = cap by omega, Nat.mod_self]; omega
  · rw [Int.emod_eq_of_lt (by omega) (by omega), Nat.mod_eq_of_lt (by omega)]; omega

/-- The tap of a legal line never depends on the cell at the cursor (R113, R118). -/
theorem dlTap_dlStore {cap : Nat} (hcap : cap ≤ 2 ^ 24) {l : DelayLine} (hw : l.w < cap) (h1 : le32 one32 l.d = true)
    (h2 : le32 l.d (float32 (cap - 1)) = true) (x : F32) : dlTap cap (dlStore l x) = dlTap cap l := by
  obtain ⟨k, hk, k1, k2, kd⟩ := tapCeil_mem hcap h1 h2
  have ho : cellRead (dlStore l x).cells (tapOld cap l) = cellRead l.cells (tapOld cap l) :=
    cellRead_cellWrite_ne (tapOld_ne hw hk k1 k2) _ _
  have e1 : tapOld cap (dlStore l x) = tapOld cap l := rfl
  have e2 : tapNew cap (dlStore l x) = tapNew cap l := rfl
  have e3 : tapFrac (dlStore l x) = tapFrac l := rfl
  unfold dlTap
  dsimp only
  rw [e1, e2, e3, ho]
  split
  · rfl
  · rename_i hf
    have hk2 : 2 ≤ k := by
      by_contra hlt
      exact hf (tapFrac_one (kd (by omega)))
    have hn : cellRead (dlStore l x).cells (tapNew cap l) = cellRead l.cells (tapNew cap l) :=
      cellRead_cellWrite_ne (tapNew_ne hw hk hk2 k2) _ _
    rw [hn]

/-! ### Legal lines stay legal -/

theorem LineOk.setDelay {cap size : Nat} {l : DelayLine} (h : LineOk cap size l) (hcap : 2 ≤ cap) (d : F32) :
    LineOk cap size (dlSetDelay cap l d) :=
  ⟨h.sized, h.cells, h.flushed, h.cursor, (clampDelay_mem hcap d).1, (clampDelay_mem hcap d).2⟩

theorem LineOk.push {cap : Nat} {l : DelayLine} (h : LineOk cap cap l) (x : F32) : LineOk cap cap (dlPush cap l x) :=
  ⟨h.sized, CellMem.wf_cellWrite h.cells h.cursor _, flushed_cellWrite (ftz32_not_subnormal x) h.flushed,
    Nat.mod_lt _ (Nat.zero_lt_of_lt h.cursor), h.delayLo, h.delayHi⟩

theorem LineOk.process {cap : Nat} {l : DelayLine} (h : LineOk cap cap l) (x : F32) : LineOk cap cap (dlProcess cap l x).1 :=
  h.push x

/-- A line that is cleared and whose delay is set again is legal, whatever it was before. -/
theorem LineOk.clear {cap size : Nat} (hcap : 2 ≤ cap) {l : DelayLine} (hs : l.size = size) (d : F32) :
    LineOk cap size (dlSetDelay cap (dlClear l) d) :=
  ⟨hs, rfl, by simp, by simp; omega, (clampDelay_mem hcap d).1, (clampDelay_mem hcap d).2⟩

theorem LineOk.apProcess {cap : Nat} {l : DelayLine} (h : LineOk cap cap l) (g x : F32) :
    LineOk cap cap (apProcess cap g l x).1 := h.push _

theorem apCascade_length (cap : Nat) (g : F32) (ls : List DelayLine) (x : F32) : (apCascade cap g ls x).1.length = ls.length := by
  induction ls generalizing x with
  | nil => rfl
  | cons l ls ih => simp [apCascade, ih]

theorem LineOk.apCascade {cap : Nat} {g : F32} {ls : List DelayLine} (h : ∀ l ∈ ls, LineOk cap cap l) (x : F32) :
    ∀ l ∈ (apCascade cap g ls x).1, LineOk cap cap l := by
  induction ls generalizing x with
  | nil => simp [Machine.apCascade]
  | cons l ls ih =>
    simp only [Machine.apCascade, List.mem_cons, forall_eq_or_imp] at h ⊢
    exact ⟨h.1.apProcess g x, ih h.2 _⟩

theorem LineOk.powerOn : LineOk 2 0 DelayLine.powerOn :=
  ⟨rfl, rfl, by simp [DelayLine.powerOn], by simp [DelayLine.powerOn], by decide +kernel, by decide +kernel⟩

end Sys2Proof.Machine
end

