-- ==== Sys2Proof/Laws/Path.lean ====
section
/-! SUPPORT. The reverberation path's operations (43_fdn_core.md, 47_engine_facade.md R255): everything that one push, one parameter
application, one processed frame and one clear do to the path. -/

namespace Sys2Proof.Machine

/-! ### Pushes -/

theorem PushedOnce.push (cap : Nat) (l : DelayLine) (x : F32) : PushedOnce cap l (dlPush cap l x) :=
  ⟨rfl, rfl, fun _ hk => cellRead_cellWrite_ne hk _ _⟩

/-- The delay does not enter where a push stores to (40_delay_line.md R112). -/
theorem PushedOnce.push_set (cap : Nat) (l : DelayLine) (d x : F32) : PushedOnce cap l (dlPush cap { l with d := d } x) :=
  ⟨rfl, rfl, fun _ hk => cellRead_cellWrite_ne hk _ _⟩

/-- Every stage of the cascade is pushed once per input (43_fdn_core.md R155). -/
theorem PushedOnce.apCascade (cap : Nat) (g : F32) (ls : List DelayLine) (x : F32) :
    ∀ l ∈ ls.zip (apCascade cap g ls x).1, PushedOnce cap l.1 l.2 := by
  induction ls generalizing x with
  | nil => simp [Machine.apCascade]
  | cons l ls ih =>
    simp only [Machine.apCascade, List.zip_cons_cons, List.mem_cons, forall_eq_or_imp]
    exact ⟨.push _ _ _, ih _⟩

/-! ### The matrix product -/

/-- The terms of a row, in their order (44_feedback_matrix.md R185). -/
theorem matApply_getElem (m : Vector (Vector F32 8) 8) (o : Vector F32 8) (i : Fin 8) :
    (matApply m o)[i] = add32 (add32 (add32 (add32 (add32 (add32 (add32 (mul32 m[i][0] o[0]) (mul32 m[i][1] o[1]))
      (mul32 m[i][2] o[2])) (mul32 m[i][3] o[3])) (mul32 m[i][4] o[4])) (mul32 m[i][5] o[5])) (mul32 m[i][6] o[6]))
      (mul32 m[i][7] o[7]) := by
  simp [matApply, matRow, List.foldl]

/-! ### Parameter application -/

/-- The lengths' part of `FDN.APPLY` runs whole or not at all (43_fdn_core.md R152). -/
theorem applyRoomIf_cases (cfg : Params) (fs : F64) (cap : Nat) (room : F32) (force : Bool) (r : Reverb) :
    applyRoomIf cfg fs cap room force r = r ∨ applyRoomIf cfg fs cap room force r = applyRoom cfg fs cap room r := by
  unfold applyRoomIf; split
  · exact .inr rfl
  · exact .inl rfl

/-- The matrix's part of `FDN.APPLY` runs whole or not at all (43_fdn_core.md R152). -/
theorem applyDecayIf_cases (fs : F64) (t : F32) (force : Bool) (r : Reverb) :
    applyDecayIf fs t force r = r ∨ applyDecayIf fs t force r = applyDecay fs t r := by
  unfold applyDecayIf; split
  · exact .inr rfl
  · exact .inl rfl

/-- What `FDN.APPLY` does to the lines (43_fdn_core.md R152). -/
theorem fdnApply_lines (cfg : Params) (fs : F64) (cap : Nat) (v : PerParam F32) (force : Bool) (r : Reverb) :
    (fdnApply cfg fs cap v force r).pre = dlSetDelay cap r.pre (fdnPredelay fs v.preDelay) ∧
      (fdnApply cfg fs cap v force r).ap = r.ap ∧
      ∀ i : Fin 8, (fdnApply cfg fs cap v force r).fdn[i] = r.fdn[i] ∨
        ∃ d, (fdnApply cfg fs cap v force r).fdn[i] = dlSetDelay cap r.fdn[i] d := by
  unfold fdnApply
  rcases applyDecayIf_cases fs v.decayTime force (applyRoomIf cfg fs cap v.roomSize force r) with h | h <;>
    rcases applyRoomIf_cases cfg fs cap v.roomSize force r with h' | h' <;> rw [h, h'] <;> refine ⟨rfl, rfl, fun i => ?_⟩
  · exact .inl rfl
  · exact .inr ⟨_, by simp only [applyAlways, applyRoom, Fin.getElem_fin, tab8_getElem]; rfl⟩
  · exact .inl rfl
  · exact .inr ⟨_, by simp only [applyAlways, applyDecay, applyRoom, Fin.getElem_fin, tab8_getElem]; rfl⟩

/-- What `FDN.APPLY` leaves alone (43_fdn_core.md R152). -/
theorem fdnApply_kept (cfg : Params) (fs : F64) (cap : Nat) (v : PerParam F32) (force : Bool) (r : Reverb) :
    (fdnApply cfg fs cap v force r).st = r.st ∧ (fdnApply cfg fs cap v force r).cur = r.cur ∧
      (fdnApply cfg fs cap v force r).bypL = r.bypL ∧ (fdnApply cfg fs cap v force r).z = r.z := by
  unfold fdnApply
  rcases applyDecayIf_cases fs v.decayTime force (applyRoomIf cfg fs cap v.roomSize force r) with h | h <;>
    rcases applyRoomIf_cases cfg fs cap v.roomSize force r with h' | h' <;> rw [h, h'] <;> exact ⟨rfl, rfl, rfl, rfl⟩

/-! ### Frames -/

/-- The state that a network step starts from: the pulled and applied path. -/
def appliedPath (cfg : Params) (fs : F64) (cap : Nat) (k : F64) (r : Reverb) : Reverb :=
  fdnApply cfg fs cap (pulledValues (pullCurrents k r)) false (pullCurrents k r)

/-- A processed frame is a network step on the applied path, and a mix. -/
theorem fdnFrame_eq (cfg : Params) (fs : F64) (cap : Nat) (k : F64) (r : Reverb) (x : Frame) :
    fdnFrame cfg fs cap k r x =
      ((fdnStep cfg cap (appliedPath cfg fs cap k r) x.input).1,
        x.mix (percentRatio (pulledValues (pullCurrents k r)).wetDryMix) (fdnStep cfg cap (appliedPath cfg fs cap k r) x.input).2) := by
  simp only [fdnFrame, appliedPath]

/-- What a network step leaves alone, and its lines (43_fdn_core.md R154 to R159). -/
theorem fdnStep_lines (cfg : Params) (cap : Nat) (r : Reverb) (x : F32) :
    (fdnStep cfg cap r x).1 = { r with
        pre := (fdnStep cfg cap r x).1.pre, ap := (fdnStep cfg cap r x).1.ap
        fdn := (fdnStep cfg cap r x).1.fdn, z := (fdnStep cfg cap r x).1.z } ∧
      (∃ y, (fdnStep cfg cap r x).1.pre = dlPush cap r.pre y) ∧
      (∃ y, (fdnStep cfg cap r x).1.ap = (apCascade cap r.apg r.ap y).1) ∧
      ∀ i : Fin 8, ∃ y, (fdnStep cfg cap r x).1.fdn[i] = dlPush cap r.fdn[i] y := by
  refine ⟨rfl, ⟨x, rfl⟩, ⟨(dlProcess cap r.pre x).2, rfl⟩, fun i => ?_⟩
  simp only [fdnStep, Fin.getElem_fin, tab8_getElem]
  exact ⟨_, rfl⟩

/-- What one processed frame does to the lines of the path and to the latched registers (43_fdn_core.md R150, R159). -/
theorem fdnFrame_lines (cfg : Params) (fs : F64) (cap : Nat) (k : F64) (r : Reverb) (x : Frame) :
    (fdnFrame cfg fs cap k r x).1.st = r.st ∧ (fdnFrame cfg fs cap k r x).1.bypL = r.bypL ∧
      PushedOnce cap r.pre (fdnFrame cfg fs cap k r x).1.pre ∧
      (fdnFrame cfg fs cap k r x).1.ap.length = r.ap.length ∧
      (∀ l ∈ r.ap.zip (fdnFrame cfg fs cap k r x).1.ap, PushedOnce cap l.1 l.2) ∧
      ∀ i : Fin 8, PushedOnce cap r.fdn[i] (fdnFrame cfg fs cap k r x).1.fdn[i] := by
  rw [fdnFrame_eq]
  obtain ⟨e1, e2, e3⟩ := fdnApply_lines cfg fs cap (pulledValues (pullCurrents k r)) false (pullCurrents k r)
  obtain ⟨k1, -, k3, -⟩ := fdnApply_kept cfg fs cap (pulledValues (pullCurrents k r)) false (pullCurrents k r)
  obtain ⟨f1, ⟨y, f2⟩, ⟨u, f3⟩, f4⟩ := fdnStep_lines cfg cap (appliedPath cfg fs cap k r) x.input
  have ep : (appliedPath cfg fs cap k r).pre = { r.pre with d := (appliedPath cfg fs cap k r).pre.d } := by
    rw [appliedPath, e1]; rfl
  have ea : (appliedPath cfg fs cap k r).ap = r.ap := e2
  have ef : ∀ i : Fin 8, (appliedPath cfg fs cap k r).fdn[i] = { r.fdn[i] with d := (appliedPath cfg fs cap k r).fdn[i].d } := by
    intro i
    rcases e3 i with h | ⟨d, h⟩ <;> rw [appliedPath, h] <;> rfl
  refine ⟨?_, ?_, ?_, ?_, ?_, fun i => ?_⟩
  · rw [f1]; exact k1
  · rw [f1]; exact k3
  · show PushedOnce cap r.pre (fdnStep cfg cap (appliedPath cfg fs cap k r) x.input).1.pre
    rw [f2, ep]; exact .push_set _ _ _ _
  · show (fdnStep cfg cap (appliedPath cfg fs cap k r) x.input).1.ap.length = _
    rw [f3, ea, apCascade_length]
  · show ∀ l ∈ r.ap.zip (fdnStep cfg cap (appliedPath cfg fs cap k r) x.input).1.ap, _
    rw [f3, ea]; exact .apCascade _ _ _ _
  · show PushedOnce cap r.fdn[i] (fdnStep cfg cap (appliedPath cfg fs cap k r) x.input).1.fdn[i]
    obtain ⟨y, hy⟩ := f4 i
    rw [hy, ef i]; exact .push_set _ _ _ _

/-- What the cascade puts out (43_fdn_core.md R155). -/
theorem throughStages_eq (cap : Nat) (g : F32) (ls : List DelayLine) (x : F32) :
    throughStages cap g ls x = (apCascade cap g ls x).2 := by
  induction ls generalizing x with
  | nil => rfl
  | cons l ls ih => exact ih _

/-- What the cascade leaves of a stage: the stage's own step on the output of those before it (43_fdn_core.md R155). -/
theorem apCascade_getElem (cap : Nat) (g : F32) {ls : List DelayLine} {i : Nat} (h : i < ls.length) (x : F32) :
    (apCascade cap g ls x).1[i]? = some (apProcess cap g ls[i] (throughStages cap g (ls.take i) x)).1 := by
  induction ls generalizing i x with
  | nil => exact absurd h (Nat.not_lt_zero i)
  | cons l ls ih =>
    cases i with
    | zero => rfl
    | succ i => exact ih (Nat.lt_of_succ_lt_succ h) _

/-- The cascade keeps every stage's delay (41_allpass.md R130). -/
theorem map_d_apCascade (cap : Nat) (g : F32) (ls : List DelayLine) (x : F32) :
    (apCascade cap g ls x).1.map DelayLine.d = ls.map DelayLine.d := by
  induction ls generalizing x with
  | nil => rfl
  | cons l ls ih => simp only [apCascade, List.map_cons, ih]; rfl

/-- What `FDN.APPLY` without force does to the registers and the network lines (43_fdn_core.md R152). -/
theorem fdnApply_false (cfg : Params) (fs : F64) (cap : Nat) (v : PerParam F32) (r : Reverb) :
    let t := fdnApply cfg fs cap v false r
    (if ne32 v.roomSize r.aroom then t.aroom = v.roomSize ∧ t.len = matLengths cfg fs v.roomSize ∧
        ∀ i : Fin 8, t.fdn[i] = dlSetDelay cap r.fdn[i] (float32 t.len[i])
      else t.aroom = r.aroom ∧ t.len = r.len ∧ t.fdn = r.fdn) ∧
    (if ne32 v.decayTime r.adecay then t.adecay = v.decayTime ∧ t.dg = matDecayGain fs v.decayTime ∧ t.mat = matScale t.dg
      else t.adecay = r.adecay ∧ t.dg = r.dg ∧ t.mat = r.mat) ∧
    t.dampc = dampCoeff v.highFreqDamping ∧ t.apg = apGain cfg v.density := by
  unfold fdnApply applyRoomIf applyDecayIf
  cases h1 : ne32 v.roomSize r.aroom <;> cases h2 : ne32 v.decayTime r.adecay <;>
    simp [h2, applyAlways, applyRoom, applyDecay]


/-- The value each parameter has in a frame, under its own name. -/
theorem frameValue_eq {new r : Reverb} {k : F64} (h : new.cur = (pullCurrents k r).cur) (p : Param) :
    frameValue new p = (pulledValues (pullCurrents k r)).get p := by
  cases p <;> simp [frameValue, h, pulledValues, perParam, PerParam.get, smValue]

/-- Everything a processed frame does to the path and puts out (43_fdn_core.md R150 to R162). -/
theorem fdnFrame_processed (cfg : Params) (fs : F64) (cap : Nat) (k : F64) (r : Reverb) (x : Frame) :
    ProcessedPath cfg fs cap k x (fdnFrame cfg fs cap k r x).2 r (fdnFrame cfg fs cap k r x).1 := by
  rw [fdnFrame_eq]
  obtain ⟨e1, e2, e3⟩ := fdnApply_lines cfg fs cap (pulledValues (pullCurrents k r)) false (pullCurrents k r)
  obtain ⟨k1, k2, k3, k4⟩ := fdnApply_kept cfg fs cap (pulledValues (pullCurrents k r)) false (pullCurrents k r)
  obtain ⟨g1, g2, g3, g4⟩ := fdnApply_false cfg fs cap (pulledValues (pullCurrents k r)) (pullCurrents k r)
  rw [appliedPath]
  generalize fdnApply cfg fs cap (pulledValues (pullCurrents k r)) false (pullCurrents k r) = a at *
  obtain ⟨new, hnew⟩ : ∃ new, new = (fdnStep cfg cap a x.input).1 := ⟨_, rfl⟩
  have hv : ∀ p, frameValue new p = (pulledValues (pullCurrents k r)).get p := frameValue_eq (by rw [hnew]; exact k2)
  have hin : networkInput x = x.input := by cases x <;> rfl
  have hpre : ({ r.pre with d := new.pre.d } : DelayLine) = a.pre := by
    rw [hnew, show (fdnStep cfg cap a x.input).1.pre.d = a.pre.d from rfl, e1]; rfl
  have hd : ∀ i : Fin 8, new.fdn[i].d = a.fdn[i].d := by
    intro i
    obtain ⟨y, hy⟩ := (fdnStep_lines cfg cap a x.input).2.2.2 i
    rw [hnew, hy]; rfl
  have hfdn : ∀ i : Fin 8, ({ r.fdn[i] with d := new.fdn[i].d } : DelayLine) = a.fdn[i] := by
    intro i
    rw [hd]
    rcases e3 i with h | ⟨d, h⟩ <;> rw [h] <;> rfl
  have hp : preDelayed cap x r new = (dlProcess cap a.pre x.input).2 := by rw [preDelayed, hpre, hin]
  have hg : new.apg = a.apg := by rw [hnew]; rfl
  have hu : diffusedInput cap x r new = (apCascade cap a.apg a.ap (dlProcess cap a.pre x.input).2).2 := by
    rw [diffusedInput, hp, hg, throughStages_eq, show a.ap = r.ap from e2]
  rw [← hnew]
  constructor
  case st => rw [hnew]; exact k1
  case bypL => rw [hnew]; exact k3
  case cur =>
    intro p
    rw [hnew, show (fdnStep cfg cap a x.input).1.cur = (pullCurrents k r).cur from k2]
    cases p <;> rfl
  case room =>
    rw [hv]
    simp only [hd]
    split
    · rename_i h
      have g := (if_pos h).mp g1
      rw [hnew]
      exact ⟨g.1, g.2.1, fun i => congrArg DelayLine.d (g.2.2 i)⟩
    · rename_i h
      have g := (if_neg h).mp g1
      rw [hnew]
      exact ⟨g.1, g.2.1, fun i => by rw [g.2.2]; rfl⟩
  case decay => rw [hv, hnew]; exact g2
  case dampc => rw [hv, hnew]; exact g3
  case apg => rw [hv, hnew]; exact g4
  case preDelay => rw [hv, hnew]; exact congrArg DelayLine.d e1
  case apDelay => rw [hnew]; exact (map_d_apCascade _ _ _ _).trans (congrArg _ e2)
  case pre => rw [hpre, hin, hnew]; rfl
  case ap =>
    intro i hi
    rw [hp, hg, show new.ap = (apCascade cap a.apg a.ap (dlProcess cap a.pre x.input).2).1 by rw [hnew]; rfl]
    have hl : a.ap = r.ap := e2
    simp only [← hl] at hi ⊢
    exact apCascade_getElem _ _ hi _
  case z =>
    intro i
    have ho : (tab8 fun j => dlPeek cap { r.fdn[j] with d := new.fdn[j].d }) = tab8 fun j => dlPeek cap a.fdn[j] :=
      congrArg tab8 (funext fun j => by rw [hfdn])
    rw [ho, hnew]
    simp only [fdnStep, dampProcess, Fin.getElem_fin, tab8_getElem, k4]; rfl
  case fdn =>
    intro i
    rw [hu, hfdn, hnew]
    simp only [fdnStep, Fin.getElem_fin, tab8_getElem]
  case out =>
    have hm : percentRatio (pulledValues (pullCurrents k r)).wetDryMix = div32 (frameValue new .wetDryMix) 0x42C80000 := by
      rw [hv]; rfl
    have hw : (fdnStep cfg cap a x.input).2 = wetOf cfg new.z := by rw [hnew]; rfl
    cases x <;> simp only [Frame.mix, hm, hw] <;> rfl

/-! ### Clearing -/

/-- Everything the path's part of `ENGINE.CLEARALL` does (47_engine_facade.md R255). -/
theorem reverbClear_afterClear (cfg : Params) (fs : F64) (cap : Nat) (pt : PerParam F32) (r : Reverb) :
    AfterClear cfg fs cap pt r (reverbClear cfg fs cap pt r) := by
  unfold reverbClear fdnApply applyRoomIf applyDecayIf applyAlways applyRoom applyDecay
  simp only [Bool.true_or, if_true]
  constructor
  case cur => intro p; simp [smSnap]
  case fdn => intro i; simp [dlSetDelay, dlClear, clampDelay]
  case z => intro i; simp [dampClear]
  all_goals rfl

end Sys2Proof.Machine
end

