-- ==== Sys2Proof/Laws/Smoother.lean ====
section
/-! SUPPORT. The smoother's step stays between the current value and the target (46_parameter_smoother.md R222, R233): the numbers of a
format, their neighbours and midpoints, results as places in the IEEE order, and the step itself. -/

namespace Sys2Proof.Machine

/-! ### Neighbours and midpoints -/

/-- A magnitude and the next one are consecutive multiples of one spacing. -/
theorem Fmt.magOf_succ (f : Fmt) (n : Nat) : ∃ q e, f.magOf n = q * 2 ^ e ∧ f.magOf (n + 1) = (q + 1) * 2 ^ e ∧
    n = e * 2 ^ f.frac + q ∧ q < 2 ^ (f.frac + 1) ∧ (e = 0 ∨ 2 ^ f.frac ≤ q) := by
  have hp := Nat.two_pow_pos f.frac
  have hp1 : 2 ^ (f.frac + 1) = 2 ^ f.frac + 2 ^ f.frac := by rw [pow_succ]; ring
  have hn := Nat.div_add_mod n (2 ^ f.frac)
  have hm := Nat.mod_lt n hp
  have form : ∀ d r, r < 2 ^ f.frac → f.magOf (2 ^ f.frac * d + r) = if d = 0 then r else (2 ^ f.frac + r) * 2 ^ (d - 1) := by
    intro d r hr
    have h1 : (2 ^ f.frac * d + r) / 2 ^ f.frac = d := by rw [Nat.mul_add_div hp, Nat.div_eq_of_lt hr, Nat.add_zero]
    have h2 : (2 ^ f.frac * d + r) % 2 ^ f.frac = r := by rw [Nat.mul_add_mod, Nat.mod_eq_of_lt hr]
    rw [Fmt.magOf, h1, h2]
    split
    · rename_i h; simp [h]
    · rfl
  generalize n / 2 ^ f.frac = d at hn
  generalize n % 2 ^ f.frac = r at hn hm
  subst hn
  have hnext : f.magOf (2 ^ f.frac * d + r + 1) = if d = 0 then r + 1 else (2 ^ f.frac + r + 1) * 2 ^ (d - 1) := by
    rcases Nat.lt_or_ge (r + 1) (2 ^ f.frac) with h | h
    · rw [Nat.add_assoc, form d (r + 1) h]; rfl
    · have hr : r + 1 = 2 ^ f.frac := by omega
      have e : 2 ^ f.frac * d + r + 1 = 2 ^ f.frac * (d + 1) + 0 := by rw [Nat.mul_add]; omega
      rw [e, form (d + 1) 0 hp, if_neg (by omega), Nat.add_zero, Nat.add_sub_cancel, hr, Nat.add_assoc, hr]
      split
      · rename_i h; simp [h]
      · obtain ⟨k, rfl⟩ : ∃ k, d = k + 1 := ⟨d - 1, by omega⟩
        rw [Nat.add_sub_cancel, pow_succ]; ring
  rw [form d r hm, hnext]
  rcases Nat.eq_zero_or_pos d with rfl | hd
  · exact ⟨r, 0, by simp, by simp, by simp, by omega, .inl rfl⟩
  · obtain ⟨k, rfl⟩ : ∃ k, d = k + 1 := ⟨d - 1, by omega⟩
    rw [if_neg (by omega), if_neg (by omega), Nat.add_sub_cancel]
    exact ⟨2 ^ f.frac + r, k, rfl, rfl, by ring, by omega, .inr (by omega)⟩

/-- A value below the midpoint of two neighbours is rounded to the lower one at most. -/
theorem Fmt.roundMag_le_of_lt_mid (f : Fmt) {n num den : Nat} (hd : 0 < den) (hn : n ≤ f.infEnc)
    (h : 2 * num < (f.magOf n + f.magOf (n + 1)) * den) : f.roundMag num den ≤ n := by
  rcases Nat.lt_or_ge (f.magOf n * den) num with hlt | hle
  swap
  · exact f.roundMag_le hd hn hle
  obtain ⟨q, e, h1, h2, h3, hq, he⟩ := f.magOf_succ n
  rw [h1] at hlt
  rw [h1, h2] at h
  have hs : 0 < den * 2 ^ e := Nat.mul_pos hd (Nat.two_pow_pos e)
  have hlo : q * 2 ^ e ≤ num / den := (Nat.le_div_iff_mul_le hd).2 hlt.le
  have hhi : num / den < (q + 1) * 2 ^ e := by
    rw [Nat.div_lt_iff_lt_mul hd]; nlinarith [Nat.mul_pos (Nat.two_pow_pos e) hd]
  have hj : (num / den).log2 - f.frac = e := by
    have hup : num / den < 2 ^ (f.frac + e + 1) := by
      refine lt_of_lt_of_le hhi ?_
      rw [show f.frac + e + 1 = (f.frac + 1) + e by ring, pow_add 2 (f.frac + 1) e]
      exact Nat.mul_le_mul_right _ (by omega)
    rcases he with rfl | he
    · rcases Nat.eq_zero_or_pos (num / den) with h0 | h0
      · simp [h0]
      · have := (Nat.log2_lt (n := num / den) (by omega)).2 hup; omega
    · refine log2_of_mem ?_ hup
      rw [pow_add]; exact (Nat.mul_le_mul_right _ he).trans hlo
  have hdm : num / (den * 2 ^ e) = q := by
    rw [← Nat.div_div_eq_div_mul]
    refine Nat.div_eq_of_lt_le hlo ?_
    exact hhi
  have hr := Nat.div_add_mod num (den * 2 ^ e)
  rw [hdm] at hr
  have hround : roundTiesEven num (den * 2 ^ e) = q := by
    unfold roundTiesEven
    simp only [hdm]
    rw [if_pos]
    nlinarith
  have : f.rawMag num den = n := by rw [Fmt.rawMag, hj, hround, h3]
  rw [Fmt.roundMag_eq, this]
  exact min_le_left _ _

/-- The part of a rounded value that a factor below 1 leaves does not pass the exact value. -/
theorem Fmt.magOf_scaled_le (f : Fmt) {z k : Nat} (hk : k * 2 ^ (f.frac + 1) ≤ f.one * (2 ^ (f.frac + 1) - 1)) :
    f.magOf (f.roundMag (k * f.magOf (f.roundMag z 1)) f.one) ≤ z := by
  have hone : 0 < f.one := Nat.two_pow_pos _
  have hk1 : k ≤ f.one := by
    have : f.one * (2 ^ (f.frac + 1) - 1) ≤ f.one * 2 ^ (f.frac + 1) := Nat.mul_le_mul_left _ (Nat.sub_le _ _)
    exact Nat.le_of_mul_le_mul_right (hk.trans this) (Nat.two_pow_pos _)
  have hdi := f.roundMag_le_inf z 1
  obtain ⟨d, hd⟩ : ∃ d, d = f.roundMag z 1 := ⟨_, rfl⟩
  rw [← hd] at hdi ⊢
  by_cases hz : f.magOf d ≤ z
  · refine le_trans ((f.magOf_le_iff _ _).2 (f.roundMag_le hone hdi ?_)) hz
    rw [Nat.mul_comm]; exact Nat.mul_le_mul_left _ hk1
  · rcases Nat.eq_zero_or_pos d with h0 | h0
    · simp [h0] at hz
    · obtain ⟨n, rfl⟩ : ∃ n, d = n + 1 := ⟨d - 1, by omega⟩
      have hprev : f.magOf n < z := by
        by_contra hc
        have := f.roundMag_le (n := n) (num := z) (den := 1) Nat.one_pos (by omega) (by omega)
        omega
      refine le_trans ((f.magOf_le_iff _ _).2 (f.roundMag_le_of_lt_mid hone (by omega) ?_)) hprev.le
      obtain ⟨q, e, h1, h2, -, hq, he⟩ := f.magOf_succ n
      rcases he with rfl | he
      · simp only [pow_zero, Nat.mul_one] at h1 h2; omega
      · rw [h1, h2]
        have hp1 : 2 ^ (f.frac + 1) = 2 ^ f.frac * 2 := pow_succ _ _
        have hE := Nat.two_pow_pos e
        generalize 2 ^ e = E at *
        refine Nat.lt_of_mul_lt_mul_right (a := 2 ^ (f.frac + 1)) ?_
        calc 2 * (k * ((q + 1) * E)) * 2 ^ (f.frac + 1) = k * 2 ^ (f.frac + 1) * (2 * ((q + 1) * E)) := by ring
          _ ≤ f.one * (2 ^ (f.frac + 1) - 1) * (2 * ((q + 1) * E)) := Nat.mul_le_mul_right _ hk
          _ < (q * E + (q + 1) * E) * f.one * 2 ^ (f.frac + 1) := by
            obtain ⟨P, hP⟩ : ∃ P, 2 ^ (f.frac + 1) = P + 1 := ⟨_, (Nat.sub_add_cancel (Nat.two_pow_pos _)).symm⟩
            rw [hP, Nat.add_sub_cancel]
            have : P + 1 < 2 * (q + 1) := by omega
            have hlt : P * (2 * ((q + 1) * E)) < (q * E + (q + 1) * E) * (P + 1) := by nlinarith
            calc f.one * P * (2 * ((q + 1) * E)) = f.one * (P * (2 * ((q + 1) * E))) := by ring
              _ < f.one * ((q * E + (q + 1) * E) * (P + 1)) := Nat.mul_lt_mul_of_pos_left hlt hone
              _ = _ := by ring

/-! ### Results as places in the order -/

/-- The value at a place in the order, in smallest subnormals. -/
def Fmt.valueAt (f : Fmt) (o : Int) : Int := o.sign * f.magOf o.natAbs

/-- The place in the order of an exact value, rounded. -/
def Fmt.placeOf (f : Fmt) (z : Int) (den : Nat) : Int := z.sign * f.roundMag z.natAbs den

theorem Fmt.valueAt_nat (f : Fmt) (n : Nat) : f.valueAt n = f.magOf n := by
  rcases Nat.eq_zero_or_pos n with rfl | h
  · simp [Fmt.valueAt]
  · rw [Fmt.valueAt, Int.sign_eq_one_of_pos (by exact_mod_cast h)]; simp

theorem Fmt.valueAt_neg (f : Fmt) (o : Int) : f.valueAt (-o) = -f.valueAt o := by
  simp [Fmt.valueAt, Int.sign_neg]

theorem Fmt.placeOf_nat (f : Fmt) (n : Nat) {den : Nat} (hd : 0 < den) : f.placeOf n den = f.roundMag n den := by
  rcases Nat.eq_zero_or_pos n with rfl | h
  · simp [Fmt.placeOf, f.roundMag_zero hd]
  · rw [Fmt.placeOf, Int.sign_eq_one_of_pos (by exact_mod_cast h)]; simp

theorem Fmt.placeOf_neg (f : Fmt) (z : Int) (den : Nat) : f.placeOf (-z) den = -f.placeOf z den := by
  simp [Fmt.placeOf, Int.sign_neg]

/-- The order of places is the order of the values. -/
theorem Fmt.valueAt_le_iff (f : Fmt) (m n : Int) : f.valueAt m ≤ f.valueAt n ↔ m ≤ n := by
  have h0 : ∀ k : Nat, f.magOf k = 0 ↔ k = 0 := fun k => by
    have := f.magOf_le_iff k 0
    rw [f.magOf_zero] at this; omega
  obtain ⟨a, rfl | rfl⟩ := m.eq_nat_or_neg <;> obtain ⟨b, rfl | rfl⟩ := n.eq_nat_or_neg <;>
    simp only [Fmt.valueAt_neg, Fmt.valueAt_nat]
  · have := f.magOf_le_iff a b; omega
  · have := h0 a; have := h0 b; omega
  · have := h0 a; have := h0 b; omega
  · have := f.magOf_le_iff b a; omega

/-- Rounding keeps the order. -/
theorem Fmt.placeOf_mono (f : Fmt) {y z : Int} {den : Nat} (hd : 0 < den) (h : y ≤ z) : f.placeOf y den ≤ f.placeOf z den := by
  obtain ⟨a, rfl | rfl⟩ := y.eq_nat_or_neg <;> obtain ⟨b, rfl | rfl⟩ := z.eq_nat_or_neg <;>
    simp only [Fmt.placeOf_neg, f.placeOf_nat _ hd]
  · have := f.roundMag_mono (a := a) (b := den) (c := b) hd hd (Nat.mul_le_mul_right _ (by omega)); omega
  · obtain ⟨rfl, rfl⟩ : a = 0 ∧ b = 0 := by omega
    simp [f.roundMag_zero hd]
  · omega
  · have := f.roundMag_mono (a := b) (b := den) (c := a) hd hd (Nat.mul_le_mul_right _ (by omega)); omega

/-- A value that is a number of the format keeps its place. -/
theorem Fmt.placeOf_valueAt (f : Fmt) {o : Int} {den : Nat} (hd : 0 < den) (h : o.natAbs ≤ f.infEnc) :
    f.placeOf (f.valueAt o * den) den = o := by
  obtain ⟨a, rfl | rfl⟩ := o.eq_nat_or_neg
  · rw [f.valueAt_nat, show ((f.magOf a : Int) * den) = ((f.magOf a * den : Nat) : Int) by push_cast; ring, f.placeOf_nat _ hd,
      f.roundMag_exact hd (by simpa using h) rfl]
  · rw [f.valueAt_neg, f.valueAt_nat,
      show -(f.magOf a : Int) * den = -((f.magOf a * den : Nat) : Int) by push_cast; ring, f.placeOf_neg, f.placeOf_nat _ hd,
      f.roundMag_exact hd (by simpa using h) rfl]

theorem Fmt.placeOf_signedInt (f : Fmt) (s : Bool) (x : Nat) {den : Nat} (hd : 0 < den) :
    f.placeOf (signedInt s x) den = signedInt s (f.roundMag x den) := by
  cases s
  · exact f.placeOf_nat x hd
  · show f.placeOf (-(x : Int)) den = -(f.roundMag x den : Int)
    rw [f.placeOf_neg, f.placeOf_nat x hd]

theorem Fmt.valueAt_signedInt (f : Fmt) (s : Bool) (n : Nat) : f.valueAt (signedInt s n) = signedInt s (f.magOf n) := by
  cases s
  · exact f.valueAt_nat n
  · show f.valueAt (-(n : Int)) = -(f.magOf n : Int)
    rw [f.valueAt_neg, f.valueAt_nat]

@[simp] theorem natAbs_signedInt (s : Bool) (n : Nat) : (signedInt s n).natAbs = n := by cases s <;> simp [signedInt]

theorem signedInt_mul (s : Bool) (m n : Nat) : signedInt s (m * n) = signedInt s m * n := by
  cases s
  · exact Int.natCast_mul m n
  · show -((m * n : Nat) : Int) = -(m : Int) * n
    rw [Int.natCast_mul, neg_mul]

/-- A step from one number toward another does not pass it: `c + k * (t - c)`, every operation rounded, for a factor below 1. -/
theorem Fmt.step_between (f : Fmt) {c t k : Int} (hc : c.natAbs ≤ f.infEnc) (ht : t.natAbs ≤ f.infEnc) (hk0 : 0 ≤ k)
    (hk : k * 2 ^ (f.frac + 1) ≤ f.one * (2 ^ (f.frac + 1) - 1)) :
    let m := f.valueAt (f.placeOf (k * f.valueAt (f.placeOf (f.valueAt t - f.valueAt c) 1)) f.one)
    let p := f.placeOf (f.valueAt c + m) 1
    (c ≤ t → c ≤ p ∧ p ≤ t) ∧ (t ≤ c → t ≤ p ∧ p ≤ c) := by
  intro m p
  have hone : 0 < f.one := Nat.two_pow_pos _
  have back : ∀ o : Int, o.natAbs ≤ f.infEnc → f.placeOf (f.valueAt o) 1 = o := fun o h => by
    simpa using f.placeOf_valueAt Nat.one_pos h
  obtain ⟨k', rfl⟩ := Int.eq_ofNat_of_zero_le hk0
  have hk' : k' * 2 ^ (f.frac + 1) ≤ f.one * (2 ^ (f.frac + 1) - 1) := by
    have : 1 ≤ 2 ^ (f.frac + 1) := Nat.one_le_two_pow
    zify [this]; exact_mod_cast hk
  -- the product, for a difference of either sign
  have prod : ∀ z : Nat, 0 ≤ f.valueAt (f.placeOf (k' * f.valueAt (f.placeOf z 1)) f.one) ∧
      f.valueAt (f.placeOf (k' * f.valueAt (f.placeOf z 1)) f.one) ≤ z := fun z => by
    rw [f.placeOf_nat z Nat.one_pos, f.valueAt_nat, ← Int.natCast_mul, f.placeOf_nat _ hone, f.valueAt_nat]
    exact ⟨Int.natCast_nonneg _, by exact_mod_cast f.magOf_scaled_le hk'⟩
  constructor
  · intro h
    have hv := (f.valueAt_le_iff c t).2 h
    obtain ⟨z, hz⟩ := Int.eq_ofNat_of_zero_le (sub_nonneg.2 hv)
    have hm : 0 ≤ m ∧ m ≤ z := by have := prod z; rw [← hz] at this ⊢; exact this
    have e1 := f.placeOf_mono Nat.one_pos (y := f.valueAt c) (z := f.valueAt c + m) (by omega)
    have e2 := f.placeOf_mono Nat.one_pos (y := f.valueAt c + m) (z := f.valueAt t) (by omega)
    rw [back c hc] at e1
    rw [back t ht] at e2
    exact ⟨e1, e2⟩
  · intro h
    have hv := (f.valueAt_le_iff t c).2 h
    obtain ⟨z, hz⟩ := Int.eq_ofNat_of_zero_le (sub_nonneg.2 hv)
    have hm : m ≤ 0 ∧ -(z : Int) ≤ m := by
      have := prod z
      have e : m = -f.valueAt (f.placeOf (k' * f.valueAt (f.placeOf z 1)) f.one) := by
        show f.valueAt (f.placeOf (k' * f.valueAt (f.placeOf (f.valueAt t - f.valueAt c) 1)) f.one) = _
        rw [show f.valueAt t - f.valueAt c = -(z : Int) by omega, f.placeOf_neg, f.valueAt_neg, mul_neg, f.placeOf_neg, f.valueAt_neg]
      omega
    have e1 := f.placeOf_mono Nat.one_pos (y := f.valueAt t) (z := f.valueAt c + m) (by omega)
    have e2 := f.placeOf_mono Nat.one_pos (y := f.valueAt c + m) (z := f.valueAt c) (by omega)
    rw [back t ht] at e1
    rw [back c hc] at e2
    exact ⟨e1, e2⟩

/-! ### Operations on finite binary64 -/

/-- A finite encoding's place in the order and its value. -/
structure At64 (x : F64) (o : Int) : Prop where
  order : fmt64.order x.toNat = some o
  finite : o.natAbs < fmt64.infEnc
  value : ∃ s m, fmt64.unpack x.toNat = .fin s m ∧ signedInt s m = fmt64.valueAt o

theorem le64_iff (a b : F64) :
    le64 a b = true ↔ ∃ x y, fmt64.order a.toNat = some x ∧ fmt64.order b.toNat = some y ∧ x ≤ y := by
  unfold le64 Fmt.le
  split <;> simp_all

theorem At64.le_iff {a b : F64} {x y : Int} (ha : At64 a x) (hb : At64 b y) : le64 a b = true ↔ x ≤ y := by
  rw [le64_iff, ha.order, hb.order]; simp

/-- An encoding that has a place below infinity is finite. -/
theorem At64.of_order {x : F64} {o : Int} (h : fmt64.order x.toNat = some o) (hf : o.natAbs < fmt64.infEnc) : At64 x o := by
  refine ⟨h, hf, ?_⟩
  have hn : isNaN64 x = false := by
    by_contra hc
    simp only [Bool.not_eq_false, isNaN64, decide_eq_true_eq] at hc
    rw [Fmt.order, if_pos hc] at h
    cases h
  obtain ⟨s, n, hn, e, -, hv⟩ := signed_of_not_nan64 hn
  rw [e, fmt64.order_signed s hn, Option.some.injEq] at h
  have ho : o = signedInt s n := h.symm
  rw [ho, natAbs_signedInt] at hf
  exact ⟨s, fmt64.magOf n, by rw [hv, fmt64.value_of_lt _ hf], by rw [ho, fmt64.valueAt_signedInt]⟩

/-- A result's place in the order. -/
theorem order_finish64 {r : Option Nat} {op : FpOp} {x y : Nat} (hr : fmt64.Result r) {s : Bool} {n : Nat} (hn : n ≤ fmt64.infEnc)
    (h : r = some (fmt64.signed s n)) : fmt64.order (BitVec.ofNat 64 (fmt64.finish op x y r)).toNat = some (signedInt s n) := by
  rw [(finish64 hr op x y).2 _ h, fmt64.order_signed s hn]; rfl

/-- The place of a sum of finite values. -/
theorem Fmt.add_fin (f : Fmt) (s t : Bool) (x y : Nat) : ∃ u n, n ≤ f.infEnc ∧ f.add (.fin s x) (.fin t y) = some (f.signed u n) ∧
    signedInt u n = f.placeOf (signedInt s x + signedInt t y) 1 := by
  have key : ∀ (u : Bool) (z : Nat), signedInt s x + signedInt t y = signedInt u z →
      signedInt u (f.roundMag z 1) = f.placeOf (signedInt s x + signedInt t y) 1 := fun u z h => by
    rw [h, f.placeOf_signedInt u z Nat.one_pos]
  simp only [Fmt.add]
  split
  · rename_i h
    refine ⟨s, _, f.roundMag_le_inf _ _, rfl, key _ _ ?_⟩
    subst h; cases s <;> simp only [signedInt, Bool.false_eq_true, if_true, if_false] <;> omega
  · rename_i hst
    have ht : t = !s := by cases s <;> cases t <;> simp_all
    subst ht
    split
    · refine ⟨s, _, f.roundMag_le_inf _ _, rfl, key _ _ ?_⟩
      cases s <;> simp only [signedInt, Bool.not_true, Bool.not_false, Bool.false_eq_true, if_true, if_false] <;> omega
    · split
      · refine ⟨!s, _, f.roundMag_le_inf _ _, rfl, key _ _ ?_⟩
        cases s <;> simp only [signedInt, Bool.not_true, Bool.not_false, Bool.false_eq_true, if_true, if_false] <;> omega
      · refine ⟨false, 0, Nat.zero_le _, rfl, ?_⟩
        have h0 : signedInt s x + signedInt (!s) y = 0 := by
          cases s <;> simp only [signedInt, Bool.not_true, Bool.not_false, Bool.false_eq_true, if_true, if_false] <;> omega
        rw [h0]; simp [Fmt.placeOf, signedInt]

theorem order_add64 {a b : F64} {x y : Int} (ha : At64 a x) (hb : At64 b y) :
    fmt64.order (add64 a b).toNat = some (fmt64.placeOf (fmt64.valueAt x + fmt64.valueAt y) 1) := by
  obtain ⟨s, m, hs, hm⟩ := ha.value
  obtain ⟨t, n, ht, hn⟩ := hb.value
  obtain ⟨u, k, hk, h1, h2⟩ := fmt64.add_fin s t m n
  rw [← hm, ← hn, ← h2]
  exact order_finish64 (fmt64.result_add _ _) hk (by rw [hs, ht, h1])

theorem order_sub64 {a b : F64} {x y : Int} (ha : At64 a x) (hb : At64 b y) :
    fmt64.order (sub64 a b).toNat = some (fmt64.placeOf (fmt64.valueAt x - fmt64.valueAt y) 1) := by
  obtain ⟨s, m, hs, hm⟩ := ha.value
  obtain ⟨t, n, ht, hn⟩ := hb.value
  obtain ⟨u, k, hk, h1, h2⟩ := fmt64.add_fin s (!t) m n
  have hneg : signedInt (!t) n = -signedInt t n := by cases t <;> simp [signedInt]
  rw [← hm, ← hn, sub_eq_add_neg, ← hneg, ← h2]
  exact order_finish64 (fmt64.result_add _ _) hk (by rw [hs, ht]; exact h1)

theorem order_mul64 {a b : F64} {x y : Int} (ha : At64 a x) (hb : At64 b y) :
    fmt64.order (mul64 a b).toNat = some (fmt64.placeOf (fmt64.valueAt x * fmt64.valueAt y) fmt64.one) := by
  obtain ⟨s, m, hs, hm⟩ := ha.value
  obtain ⟨t, n, ht, hn⟩ := hb.value
  have hp : signedInt s m * signedInt t n = signedInt (s != t) (m * n) := by
    cases s <;> cases t <;> simp [signedInt]
  rw [← hm, ← hn, hp, fmt64.placeOf_signedInt _ _ (show 0 < fmt64.one from Nat.two_pow_pos _)]
  exact order_finish64 (fmt64.result_mul _ _) (fmt64.roundMag_le_inf _ _) (by rw [hs, ht]; rfl)

/-- What an encoding's place in the order says of its bits. -/
theorem Fmt.order_some (f : Fmt) {n : Nat} {o : Int} (h : f.order n = some o) :
    n % f.signBit ≤ f.infEnc ∧ o = signedInt (n / f.signBit % 2 == 1) (n % f.signBit) := by
  unfold Fmt.order at h
  dsimp only at h
  split at h
  · cases h
  · rename_i hle
    refine ⟨Nat.not_lt.1 hle, ?_⟩
    rw [← Option.some.inj h]
    by_cases hb : n / f.signBit % 2 = 1 <;> simp [signedInt, hb]

/-- A signed zero is at place 0. -/
theorem and_signBit_cases (n k : Nat) : n &&& 2 ^ k = 0 ∨ n &&& 2 ^ k = 2 ^ k := by
  rw [Nat.and_two_pow]
  cases n.testBit k
  · exact .inl (by simp)
  · exact .inr (by simp)

/-- Flushing takes the places below the smallest normal number to 0 (00_scope.md R12). -/
theorem order_ftz64 {x : F64} {o : Int} (h : fmt64.order x.toNat = some o) :
    fmt64.order (ftz64 x).toNat = some (if o.natAbs < 2 ^ 52 then 0 else o) := by
  obtain ⟨hle, rfl⟩ := fmt64.order_some h
  rw [natAbs_signedInt]
  unfold ftz64
  cases hs : isSubnormal64 x
  · have hs' : ¬(0 < x.toNat % fmt64.signBit ∧ x.toNat % fmt64.signBit < 2 ^ 52) := of_decide_eq_false hs
    simp only [Bool.false_eq_true, if_false, h]
    split
    · have : x.toNat % fmt64.signBit = 0 := by omega
      rw [this]; cases (x.toNat / fmt64.signBit % 2 == 1) <;> rfl
    · rfl
  · have hs' : 0 < x.toNat % fmt64.signBit ∧ x.toNat % fmt64.signBit < 2 ^ 52 := of_decide_eq_true hs
    rw [if_pos rfl, if_pos hs'.2, BitVec.toNat_and]
    rcases and_signBit_cases x.toNat 63 with e | e
    · rw [show (0x8000000000000000 : F64).toNat = 2 ^ 63 from rfl, e]; decide +kernel
    · rw [show (0x8000000000000000 : F64).toNat = 2 ^ 63 from rfl, e]; decide +kernel

@[inherit_doc order_ftz64]
theorem order_ftz32 {x : F32} {o : Int} (h : fmt32.order x.toNat = some o) :
    fmt32.order (ftz32 x).toNat = some (if o.natAbs < 2 ^ 23 then 0 else o) := by
  obtain ⟨hle, rfl⟩ := fmt32.order_some h
  rw [natAbs_signedInt]
  unfold ftz32
  cases hs : isSubnormal32 x
  · have hs' : ¬(0 < x.toNat % fmt32.signBit ∧ x.toNat % fmt32.signBit < 2 ^ 23) := of_decide_eq_false hs
    simp only [Bool.false_eq_true, if_false, h]
    split
    · have : x.toNat % fmt32.signBit = 0 := by omega
      rw [this]; cases (x.toNat / fmt32.signBit % 2 == 1) <;> rfl
    · rfl
  · have hs' : 0 < x.toNat % fmt32.signBit ∧ x.toNat % fmt32.signBit < 2 ^ 23 := of_decide_eq_true hs
    rw [if_pos rfl, if_pos hs'.2, BitVec.toNat_and]
    rcases and_signBit_cases x.toNat 31 with e | e
    · rw [show (0x80000000 : F32).toNat = 2 ^ 31 from rfl, e]; decide +kernel
    · rw [show (0x80000000 : F32).toNat = 2 ^ 31 from rfl, e]; decide +kernel

/-- A finite binary32 in binary64: the same value (00_scope.md R10). -/
theorem At64.f64 {a : F32} {o : Int} (h : fmt32.order a.toNat = some o) (hf : o.natAbs < fmt32.infEnc) :
    ∃ u, At64 (f64 a) u ∧ fmt64.valueAt u = fmt32.valueAt o * (2 ^ 925 : Nat) := by
  have hn : isNaN32 a = false := by
    by_contra hc
    rw [(order32_eq_none_iff a).2 (by simpa using hc)] at h
    cases h
  obtain ⟨s, n, hn, e, -, hv⟩ := signed_of_not_nan32 hn
  rw [e, fmt32.order_signed s hn, Option.some.injEq] at h
  have ho : o = signedInt s n := h.symm
  rw [ho, natAbs_signedInt] at hf
  rw [fmt32.value_of_lt _ hf] at hv
  obtain ⟨g1, g2, g3⟩ := f64_finite hv
  have hord : fmt64.order (Machine.f64 a).toNat = some (signedInt s (fmt64.roundMag (fmt32.magOf n * 2 ^ 925) 1)) := by
    rw [g2, fmt64.order_signed s g3.le]; rfl
  have hat := At64.of_order hord (by rwa [natAbs_signedInt])
  refine ⟨_, hat, ?_⟩
  obtain ⟨t, m, ht, hm⟩ := hat.value
  rw [g1] at ht
  obtain ⟨rfl, rfl⟩ := Fp.fin.inj ht
  rw [← hm, ho, fmt32.valueAt_signedInt, signedInt_mul]

/-- The place of a binary64 rounded to binary32. -/
theorem order_round32 {x : F64} {o : Int} (h : At64 x o) :
    fmt32.order (round32 x).toNat = some (fmt32.placeOf (fmt64.valueAt o) (2 ^ 925)) := by
  obtain ⟨s, m, hs, hm⟩ := h.value
  have hr := (round32_result x).2 (fmt32.signed s (fmt32.roundMag m (2 ^ 925))) (by rw [hs, Fmt.convert_fin, Nat.mul_one])
  rw [hr, fmt32.order_signed s (fmt32.roundMag_le_inf _ _), ← hm, fmt32.placeOf_signedInt _ _ (Nat.two_pow_pos _)]
  rfl

/-! ### The smoother -/

theorem mul_bounds {one a b h : Int} (h1 : 0 ≤ a) (h2 : a ≤ one) (h3 : -h ≤ b) (h4 : b ≤ h) :
    -(h * one) ≤ a * b ∧ a * b ≤ h * one := by
  constructor <;> nlinarith

/-- With a coefficient in `[0, 1]` the step leads from one value of a range to another value of it: a range that starts at 0 or at a
normal number (46_parameter_smoother.md R222, R233). -/
theorem At64.smStep {k cur : F64} {st : F32} {c t lo hi : Int} (hk0 : le64 zero64 k = true) (hk1 : le64 k one64 = true)
    (hc : At64 cur c) (ht : At64 (Machine.f64 st) t) (hc1 : lo ≤ c) (hc2 : c ≤ hi) (ht1 : lo ≤ t) (ht2 : t ≤ hi)
    (hlo : lo = 0 ∨ 2 ^ 52 ≤ lo) (hhi : hi < fmt64.infEnc) : ∃ o, At64 (smStep k st cur) o ∧ lo ≤ o ∧ o ≤ hi := by
  have hlo0 : 0 ≤ lo := by rcases hlo with h | h <;> [exact h.ge; exact le_trans (by norm_num) h]
  have hb : ∀ z : Int, 0 ≤ z → z ≤ hi → z.natAbs < fmt64.infEnc := fun z h1 h2 => by omega
  have hb' : ∀ z : Int, -hi ≤ z → z ≤ hi → z.natAbs < fmt64.infEnc := fun z h1 h2 => by omega
  -- what flushing leaves of a value in the range
  have flush : ∀ x : F64, ∀ o : Int, fmt64.order x.toNat = some o → lo ≤ o → o ≤ hi →
      ∃ u, At64 (ftz64 x) u ∧ lo ≤ u ∧ u ≤ hi := by
    intro x o h h1 h2
    refine ⟨_, At64.of_order (order_ftz64 h) ?_, ?_, ?_⟩ <;> split
    · exact hb 0 le_rfl (hlo0.trans (h1.trans h2))
    · exact hb o (hlo0.trans h1) h2
    · rcases hlo with h | h
      · exact h.le
      · omega
    · exact h1
    · omega
    · exact h2
  unfold Machine.smStep
  cases hk : eq64 k one64
  · obtain ⟨z0, ko, hz, hko, hk0'⟩ := (le64_iff _ _).1 hk0
    obtain ⟨ko', o1, hko', ho1, hk1'⟩ := (le64_iff _ _).1 hk1
    rw [hko] at hko'
    obtain rfl := Option.some.inj hko'
    rw [show fmt64.order (zero64 : F64).toNat = some 0 by decide +kernel] at hz
    obtain rfl := Option.some.inj hz
    rw [show fmt64.order (one64 : F64).toNat = some 0x3FF0000000000000 by decide +kernel] at ho1
    obtain rfl := Option.some.inj ho1
    have hne : ko ≠ 0x3FF0000000000000 := by
      rintro rfl
      have : eq64 k one64 = true := by
        rw [eq64, Fmt.eq, hko, show fmt64.order (one64 : F64).toNat = some 0x3FF0000000000000 by decide +kernel]; rfl
      rw [this] at hk
      cases hk
    have hkat := At64.of_order hko (by rw [fmt64_infEnc]; omega)
    have vk0 : 0 ≤ fmt64.valueAt ko := by
      have := (fmt64.valueAt_le_iff 0 ko).2 hk0'
      simpa [Fmt.valueAt] using this
    have vk1 : fmt64.valueAt ko * 2 ^ (fmt64.frac + 1) ≤ fmt64.one * (2 ^ (fmt64.frac + 1) - 1) := by
      have h1 := (fmt64.valueAt_le_iff ko (0x3FEFFFFFFFFFFFFF : Nat)).2 (by omega)
      rw [fmt64.valueAt_nat] at h1
      have h2 : fmt64.magOf 0x3FEFFFFFFFFFFFFF * 2 ^ (fmt64.frac + 1) = fmt64.one * (2 ^ (fmt64.frac + 1) - 1) := by
        decide +kernel
      have h3 : (1 : Nat) ≤ 2 ^ (fmt64.frac + 1) := Nat.one_le_two_pow
      zify [h3] at h2
      rw [← h2]
      exact mul_le_mul_of_nonneg_right h1 (le_of_lt (by norm_num))
    have vk2 : fmt64.valueAt ko ≤ fmt64.one := by
      refine le_of_mul_le_mul_right (vk1.trans ?_) (show (0 : Int) < 2 ^ (fmt64.frac + 1) by positivity)
      exact mul_le_mul_of_nonneg_left (by omega) (Int.natCast_nonneg _)
    have v0 : ∀ z : Int, 0 ≤ z → 0 ≤ fmt64.valueAt z := fun z h => by
      have := (fmt64.valueAt_le_iff 0 z).2 h
      simpa [Fmt.valueAt] using this
    have hhi0 : 0 ≤ hi := hlo0.trans (ht1.trans ht2)
    have hone : 0 < fmt64.one := Nat.two_pow_pos _
    have back : ∀ (den : Nat), 0 < den → fmt64.placeOf (fmt64.valueAt hi * den) den = hi := fun den h =>
      fmt64.placeOf_valueAt h (hb hi hhi0 le_rfl).le
    have sandwich : ∀ (z : Int) (den : Nat), 0 < den → -(fmt64.valueAt hi * den) ≤ z → z ≤ fmt64.valueAt hi * den →
        -hi ≤ fmt64.placeOf z den ∧ fmt64.placeOf z den ≤ hi := fun z den hd h1 h2 => by
      have e1 := fmt64.placeOf_mono hd h1
      have e2 := fmt64.placeOf_mono hd h2
      rw [fmt64.placeOf_neg, back den hd] at e1
      rw [back den hd] at e2
      exact ⟨e1, e2⟩
    have hd := sandwich (fmt64.valueAt t - fmt64.valueAt c) 1 Nat.one_pos
      (by rw [Nat.cast_one, mul_one]; linarith only [v0 t (hlo0.trans ht1), (fmt64.valueAt_le_iff c hi).2 hc2])
      (by rw [Nat.cast_one, mul_one]; linarith only [v0 c (hlo0.trans hc1), (fmt64.valueAt_le_iff t hi).2 ht2])
    have hdat := At64.of_order (order_sub64 ht hc) (hb' _ hd.1 hd.2)
    have vd1 := (fmt64.valueAt_le_iff _ _).2 hd.1
    have vd2 := (fmt64.valueAt_le_iff _ _).2 hd.2
    rw [fmt64.valueAt_neg] at vd1
    have hm := sandwich (fmt64.valueAt ko * fmt64.valueAt (fmt64.placeOf (fmt64.valueAt t - fmt64.valueAt c) 1)) fmt64.one hone
      (mul_bounds vk0 vk2 vd1 vd2).1 (mul_bounds vk0 vk2 vd1 vd2).2
    have hmat := At64.of_order (order_mul64 hkat hdat) (hb' _ hm.1 hm.2)
    have hp := order_add64 hc hmat
    have hstep := fmt64.step_between (c := c) (t := t) hc.finite.le ht.finite.le vk0 vk1
    simp only [Bool.false_eq_true, if_false]
    refine flush _ _ hp ?_ ?_
    · rcases le_total c t with h | h
      · exact hc1.trans (hstep.1 h).1
      · exact ht1.trans (hstep.2 h).1
    · rcases le_total c t with h | h
      · exact (hstep.1 h).2.trans ht2
      · exact (hstep.2 h).2.trans hc2
  · simp only [if_true]
    exact flush _ _ ht.order ht1 ht2

/-- A non-negative number's place is its encoding. -/
theorem Fmt.order_nat (f : Fmt) {n : Nat} (h : n ≤ f.infEnc) : f.order n = some (n : Int) := by
  have := f.order_signed false h
  simpa [Fmt.signed] using this

/-- A parameter's bounds are non-negative, finite, and 0 or normal in both formats (46_parameter_smoother.md R232). -/
theorem param_bounds (p : Param) :
    ((paramLo p).toNat = 0 ∨ 2 ^ 23 ≤ (paramLo p).toNat) ∧ (paramLo p).toNat ≤ (paramHi p).toNat ∧
      (paramHi p).toNat < fmt32.infEnc ∧
      ((f64 (paramLo p)).toNat = 0 ∨ 2 ^ 52 ≤ (f64 (paramLo p)).toNat) ∧ (f64 (paramLo p)).toNat ≤ (f64 (paramHi p)).toNat ∧
      (f64 (paramHi p)).toNat < fmt64.infEnc := by
  cases p <;> decide +kernel

theorem at64_bounds (p : Param) :
    At64 (f64 (paramLo p)) (f64 (paramLo p)).toNat ∧ At64 (f64 (paramHi p)) (f64 (paramHi p)).toNat := by
  obtain ⟨-, -, -, -, h1, h2⟩ := param_bounds p
  exact ⟨.of_order (fmt64.order_nat (by omega)) (by rw [Int.natAbs_natCast]; omega),
    .of_order (fmt64.order_nat (by omega)) (by rw [Int.natAbs_natCast]; omega)⟩

/-- The place of a current in its range (46_parameter_smoother.md R233). -/
theorem at64_of_range {p : Param} {x : F64} (h1 : le64 (f64 (paramLo p)) x = true) (h2 : le64 x (f64 (paramHi p)) = true) :
    ∃ o : Int, At64 x o ∧ (f64 (paramLo p)).toNat ≤ o ∧ o ≤ (f64 (paramHi p)).toNat := by
  obtain ⟨-, -, -, -, -, hf⟩ := param_bounds p
  obtain ⟨a1, a2⟩ := at64_bounds p
  obtain ⟨lo, o, e1, e2, h3⟩ := (le64_iff _ _).1 h1
  obtain ⟨o', hi, e3, e4, h4⟩ := (le64_iff _ _).1 h2
  rw [e2] at e3
  obtain rfl := Option.some.inj e3
  rw [a1.order] at e1
  rw [a2.order] at e4
  obtain rfl := Option.some.inj e1
  obtain rfl := Option.some.inj e4
  exact ⟨o, .of_order e2 (by omega), h3, h4⟩

/-- The conversion of an in-range value is in the converted range (46_parameter_smoother.md R225, R233). -/
theorem f64_inRange {p : Param} {v : F32} (h : inRange p v = true) :
    le64 (f64 (paramLo p)) (f64 v) = true ∧ le64 (f64 v) (f64 (paramHi p)) = true := by
  obtain ⟨-, hlh, hf, -, -, -⟩ := param_bounds p
  simp only [inRange, Bool.and_eq_true] at h
  obtain ⟨lo, o, e1, e2, h3⟩ := (le32_iff _ _).1 h.1
  obtain ⟨o', hi, e3, e4, h4⟩ := (le32_iff _ _).1 h.2
  rw [e2] at e3
  obtain rfl := Option.some.inj e3
  rw [fmt32.order_nat (by omega)] at e1 e4
  obtain rfl := Option.some.inj e1
  obtain rfl := Option.some.inj e4
  obtain ⟨u, hu, vu⟩ := At64.f64 (a := paramLo p) (fmt32.order_nat (by omega)) (by rw [Int.natAbs_natCast]; omega)
  obtain ⟨w, hw, vw⟩ := At64.f64 e2 (by omega)
  obtain ⟨t, ht, vt⟩ := At64.f64 (a := paramHi p) (fmt32.order_nat (by omega)) (by rw [Int.natAbs_natCast]; omega)
  have scale : (0 : Int) ≤ (2 ^ 925 : Nat) := Int.natCast_nonneg _
  rw [hu.le_iff hw, hw.le_iff ht, ← fmt64.valueAt_le_iff, ← fmt64.valueAt_le_iff w, vu, vw, vt]
  exact ⟨mul_le_mul_of_nonneg_right ((fmt32.valueAt_le_iff _ _).2 h3) scale,
    mul_le_mul_of_nonneg_right ((fmt32.valueAt_le_iff _ _).2 h4) scale⟩

/-- A frame keeps a current in its range, and so does the immediate step (46_parameter_smoother.md R222, R233). -/
theorem smStep_inRange {p : Param} {k cur : F64} {st : F32} (hk0 : le64 zero64 k = true) (hk1 : le64 k one64 = true)
    (h1 : le64 (f64 (paramLo p)) cur = true) (h2 : le64 cur (f64 (paramHi p)) = true) (hst : inRange p st = true) :
    le64 (f64 (paramLo p)) (smStep k st cur) = true ∧ le64 (smStep k st cur) (f64 (paramHi p)) = true := by
  obtain ⟨-, -, -, hlo, -, hf⟩ := param_bounds p
  obtain ⟨a1, a2⟩ := at64_bounds p
  obtain ⟨c, hc, c1, c2⟩ := at64_of_range h1 h2
  obtain ⟨t, ht, t1, t2⟩ := at64_of_range (f64_inRange hst).1 (f64_inRange hst).2
  obtain ⟨o, ho, o1, o2⟩ := At64.smStep hk0 hk1 hc ht c1 c2 t1 t2 (by exact_mod_cast hlo) (by exact_mod_cast hf)
  exact ⟨(a1.le_iff ho).2 o1, (ho.le_iff a2).2 o2⟩

/-- The value of an in-range current is in range (46_parameter_smoother.md R233). -/
theorem smValue_inRange {p : Param} {cur : F64} (h1 : le64 (f64 (paramLo p)) cur = true) (h2 : le64 cur (f64 (paramHi p)) = true) :
    inRange p (smValue cur) = true := by
  obtain ⟨hlo, hlh, hf, -, -, -⟩ := param_bounds p
  obtain ⟨a1, a2⟩ := at64_bounds p
  obtain ⟨c, hc, c1, c2⟩ := at64_of_range h1 h2
  have hd := Nat.two_pow_pos 925
  have back : ∀ a : F32, a.toNat < fmt32.infEnc → ∀ o, At64 (f64 a) o →
      fmt32.placeOf (fmt64.valueAt o) (2 ^ 925) = (a.toNat : Int) := by
    intro a ha o ho
    obtain ⟨u, hu, vu⟩ := At64.f64 (a := a) (fmt32.order_nat ha.le) (by rw [Int.natAbs_natCast]; exact ha)
    have : o = u := Option.some.inj (ho.order.symm.trans hu.order)
    rw [this, vu, fmt32.placeOf_valueAt hd (by rw [Int.natAbs_natCast]; exact ha.le)]
  have e1 := fmt32.placeOf_mono hd ((fmt64.valueAt_le_iff _ _).2 c1)
  have e2 := fmt32.placeOf_mono hd ((fmt64.valueAt_le_iff _ _).2 c2)
  rw [back _ (by omega) _ a1] at e1
  rw [back _ hf _ a2] at e2
  have hv := order_ftz32 (order_round32 hc)
  rw [inRange, Bool.and_eq_true, le32_iff, le32_iff]
  refine ⟨⟨_, _, fmt32.order_nat (by omega), hv, ?_⟩, ⟨_, _, hv, fmt32.order_nat (by omega), ?_⟩⟩ <;>
    generalize fmt32.placeOf (fmt64.valueAt c) (2 ^ 925) = v at * <;> split <;> omega

end Sys2Proof.Machine
end

