-- ==== Sys2Proof/Laws/Invariant.lean ====
section
/-! SUPPORT. The invariant of Safety.lean, operation by operation: one lemma for each way a step changes the state. -/

namespace Sys2Proof.Machine

/-- The model's own fields do not enter the invariant. -/



theorem inv_withEnv (s : State) (e : Env) (h : Inv s) : Inv { s with env := e } :=
  ⟨h.params, h.targets, h.smoothers, ⟨h.lines.capLo, h.lines.capHi, h.lines.stages, h.lines.lines⟩, h.matrix, ⟨h.status.sticky,
      h.status.lasterrC, h.status.lasterrA, h.status.busy, h.status.inflight⟩,
   ⟨h.ports.cport, h.ports.aport, h.ports.inq, h.ports.outq, h.ports.cresp, h.ports.aresp⟩, ⟨h.modu.baseLo, h.modu.baseHi,
       h.modu.depth, h.modu.rate, h.modu.phaseLo, h.modu.phaseHi⟩, ⟨h.flushed.z, h.flushed.cur⟩⟩



/-- A state that differs only in its queues and its error records meets the invariant if those do. -/



theorem inv_of_records (s t : State) (h : Inv s) (hc : t.cfg = s.cfg) (hr : t.reverb = s.reverb) (hm : t.modu = s.modu)
   (hpt : t.ctrl.pt = s.ctrl.pt) (ha : t.audio = { s.audio with lasterrA := t.audio.lasterrA })
   (hst : StatusOk t) (hp : PortsOk t) : Inv t := by
  obtain ⟨h1, h2, hk, h3, h4, h5, h6, h7, h8⟩ := h
  refine ⟨hc ▸ h1, ?_, ?_, ?_, ?_, hst, hp, ?_, ?_⟩
  · intro p; rw [hpt, hr]; exact h2 p
  · rw [SmoothersInRange, ha, hr]; exact hk
  · have hb : t.bufferSize = s.bufferSize := by unfold State.bufferSize; rw [ha]
    have hl : t.lines = s.lines := by unfold State.lines; rw [hr, hm]
    refine ⟨by rw [ha]; exact h3.capLo, by rw [ha]; exact h3.capHi, by rw [hr, hc]; exact h3.stages, ?_⟩
    rw [hl, hb, ha]; exact h3.lines
  · intro hi; rw [ha] at hi ⊢; rw [hr, hc]; exact h4 hi
  · refine ⟨?_, ?_, ?_, ?_, ?_, ?_⟩ <;> rw [hm] <;> try
      (first | exact h7.baseLo | exact h7.depth | exact h7.rate | exact h7.phaseLo | exact h7.phaseHi)
    rw [ha]; exact h7.baseHi
  · refine ⟨?_, ?_⟩ <;> rw [hr]; exacts [h8.z, h8.cur]



/-- Taking words from a command queue keeps every queue's bound (10_state.md R46). -/



theorem portsOk_drop {s : State} (h : PortsOk s) (p : Port) (k : Nat) : PortsOk (s.setCommands p ((s.commands p).drop k)) := by
  obtain ⟨a,b,c,d,e,f⟩ := h
  cases p
  · exact ⟨a, by simp [State.setCommands, State.commands]; omega, c, d, e, f⟩
  · exact ⟨by simp [State.setCommands, State.commands]; omega, b, c, d, e, f⟩



/-- Setting the bit of an error code sets none of the bits that are always 0 (60_exceptions.md R317). -/



theorem sticky_set {b : BitVec 16} (h : ∀ i : Fin 16, (i.val = 0 ∨ 9 ≤ i.val) → b[i] = false) (e : ErrCode) :
   ∀ i : Fin 16, (i.val = 0 ∨ 9 ≤ i.val) → (b ||| (1#16 <<< e.code))[i] = false := by
  intro i hi
  have hb := h i hi
  simp only [Fin.getElem_fin] at *
  simp only [BitVec.getElem_or, hb, Bool.false_or]
  clear hb h
  revert i; cases e <;> decide



/-- A refused command keeps the invariant (60_exceptions.md R302). -/



theorem inv_endWithError {s : State} (h : Inv s) (p : Port) (e : ErrCode) (n : Nat) (hr : s.hasRoom p n = true) : Inv
    (s.endWithError p e n) := by
  have hc : (BitVec.ofNat 8 e.code).toNat ≤ 8 := by cases e <;> decide
  refine inv_of_records s _ h ?cfg ?reverb ?modu ?pt ?audio ?_ ?_
  case cfg | reverb | modu | pt | audio => cases p <;> rfl
  · obtain ⟨a,b,c,d,f⟩ := h.status
    cases p
    · exact ⟨sticky_set a e, b, hc, d, f⟩
    · exact ⟨sticky_set a e, hc, c, d, f⟩
  · obtain ⟨a,b,c,d,f,g⟩ := h.ports
    simp only [State.hasRoom, decide_eq_true_eq] at hr
    cases p <;> simp only [State.responses] at hr
    · exact ⟨a,b,c,d,f, by simp [State.endWithError, State.pushResponses, State.setSticky, State.setLasterr]; omega⟩
    · exact ⟨a,b,c,d, by simp [State.endWithError, State.pushResponses, State.setSticky, State.setLasterr]; omega, g⟩



/-- Taking words from a command queue keeps the invariant. -/



theorem inv_dropWords {s : State} (h : Inv s) (p : Port) (k : Nat) : Inv (s.setCommands p ((s.commands p).drop k)) := by
  refine inv_of_records s _ h ?cfg ?reverb ?modu ?pt ?audio ?status (portsOk_drop h.ports p k)
  case status => cases p <;> exact ⟨h.status.1, h.status.2, h.status.3, h.status.4, h.status.5⟩
  case cfg | reverb | modu | pt | audio => cases p <;> rfl



/-- SM.SETTARGET stores a value in range (46_parameter_smoother.md R224, R233). -/



theorem inRange_smTarget (p v) : inRange p (smTarget p v) = true := by
  have : le32 (paramLo p) (paramHi p) = true := by cases p <;> decide +kernel
  have := clamp32_mem (x := v) this
  simp [inRange, smTarget, this]



/-- A positive binary64 is its own magnitude. -/



theorem toNat_of_pos64 {x : F64} (h : lt64 zero64 x = true) : 0 < x.toNat ∧ x.toNat ≤ fmt64.infEnc := by
  unfold lt64 Fmt.lt at h
  have h0 : fmt64.order (zero64 : F64).toNat = some 0 := by decide +kernel
  rw [h0] at h
  unfold Fmt.order at h
  have := x.isLt
  simp only [fmt64_signBit, fmt64_infEnc] at *
  split at h
  · rename_i a b ha hb
    simp only [Option.some.injEq, decide_eq_true_eq] at ha h
    split at hb
    · cases hb
    · simp only [Option.some.injEq] at hb
      by_cases hc : x.toNat / 2 ^ 63 % 2 = 1 <;> simp only [hc, if_true, if_false] at hb <;> omega
  all_goals cases h



/-- `floor` keeps the order of positive numbers (00_scope.md R8). -/



theorem floor64_mono {x y : F64} (hx : lt64 zero64 x = true) (h : le64 x y = true) (hy : isFinite64 y = true) :
    floor64 x ≤ floor64 y := by
  obtain ⟨a1, a2⟩ := toNat_of_pos64 hx
  have hle : x.toNat ≤ y.toNat ∧ y.toNat < fmt64.infEnc := by
    have e := fmt64.order_signed false a2
    simp only [Fmt.signed, Bool.false_eq_true, if_false, Nat.zero_add] at e
    unfold le64 Fmt.le at h
    rw [e] at h
    simp only [isFinite64, fmt64_signBit, fmt64_infEnc, decide_eq_true_eq] at *
    have := y.isLt
    unfold Fmt.order at h
    simp only [fmt64_signBit, fmt64_infEnc] at h
    split at h
    · rename_i u v hu hv
      simp only [Option.some.injEq, decide_eq_true_eq] at hu h
      split at hv
      · cases hv
      · simp only [Option.some.injEq] at hv
        by_cases hc : y.toNat / 2 ^ 63 % 2 = 1 <;> simp only [hc, if_true, if_false] at hv <;> omega
    all_goals cases h
  have ux : fmt64.unpack x.toNat = .fin false (fmt64.magOf x.toNat) := by
    have := fmt64.unpack_signed false (n := x.toNat) (by omega)
    simp only [Fmt.signed, Bool.false_eq_true, if_false, Nat.zero_add] at this
    rw [this, fmt64.value_of_lt _ (by omega)]
  have uy : fmt64.unpack y.toNat = .fin false (fmt64.magOf y.toNat) := by
    have := fmt64.unpack_signed false (n := y.toNat) (by omega)
    simp only [Fmt.signed, Bool.false_eq_true, if_false, Nat.zero_add] at this
    rw [this, fmt64.value_of_lt _ (by omega)]
  unfold floor64 Fmt.floorInt
  rw [ux, uy]
  show ((_ : Nat) : Int) ≤ ((_ : Nat) : Int)
  exact_mod_cast Nat.div_le_div_right ((fmt64.magOf_le_iff _ _).2 hle.1)



/-- INIT sets no capacity above `2^24` (00_scope.md R7). -/



theorem capacity_le {cfg : Params} (h : ParamsOk cfg) {fs : F64} (h2 : lt64 zero64 fs = true) (h3 : le64 fs cfg.fsMax = true) :
   max 2 (floor64 fs).toNat ≤ 2 ^ 24 := by
  have h1 := floor64_mono h2 h3 h.fsMaxFinite
  have h4 := h.fsMaxCap
  generalize floor64 fs = a at *
  generalize floor64 cfg.fsMax = b at *
  have : a ≤ 2 ^ 24 := h1.trans h4
  norm_num at this ⊢
  exact this



/-- The currents that a clear leaves are in range, as the targets are (46_parameter_smoother.md R225, R233). -/



theorem AfterClear.smoothers {cfg fs cap pt old} {s : State} (h : AfterClear cfg fs cap pt old s.reverb)
    (hpt : ∀ p, inRange p (pt.get p) = true) : SmoothersInRange s := by
  intro _ _ _ p
  have hr := f64_inRange (hpt p)
  rw [← h.cur p] at hr
  exact ⟨hr.1, hr.2, smValue_inRange hr.1 hr.2⟩



/-- The lines that a clear leaves are legal (47_engine_facade.md R255). -/



theorem AfterClear.lines {cfg fs cap pt r old} {sz : Nat} (h : AfterClear cfg fs cap pt old r) (hcap : 2 ≤ cap) (hst :
    old.ap.length = cfg.apLen.length)
  (hs : old.pre.size = sz ∧ (∀ l ∈ old.ap, l.size = sz) ∧ ∀ i : Fin 8, old.fdn[i].size = sz) :
  (∀ l ∈ r.pre :: (r.ap ++ r.fdn.toList), LineOk cap sz l) ∧ r.ap.length = cfg.apLen.length := by
  have key : ∀ x : F32, ∀ z, z = sz → LineOk cap sz ⟨z, [], 0, clamp32 x one32 (float32 (cap - 1))⟩ := by
    intro x z hz
    have := LineOk.clear (size := sz) hcap (l := ⟨sz, [], 0, one32⟩) rfl x
    rw [hz]; exact this
  constructor
  · intro l hl
    simp only [List.mem_cons, List.mem_append] at hl
    rcases hl with rfl | hl | hl
    · rw [h.pre]; exact key _ _ hs.1
    · rw [h.ap, List.mem_iff_getElem] at hl
      obtain ⟨j, hj, rfl⟩ := hl
      simp only [List.getElem_zipWith]
      exact key _ _ (hs.2.1 _ (List.getElem_mem _))
    · rw [Vector.mem_toList_iff, Vector.mem_iff_getElem] at hl
      obtain ⟨j, hj, rfl⟩ := hl
      have := h.fdn ⟨j, hj⟩
      simp only [Fin.getElem_fin] at this
      rw [this]; exact key _ _ (hs.2.2 ⟨j, hj⟩)
  · rw [h.ap]; simp [hst]



/-- A command's response words fit the room that was checked (20_memory.md R72). -/



theorem portsOk_commandEffect {i : Instr} {s : State} (h : Inv s) (hc : checkError i s = none) (hr :
    s.hasRoom i.port i.opcode.resp = true) : PortsOk (commandEffect i s) := by
  obtain ⟨ws, hl, hw⟩ := commandEffect_responses hc
  obtain ⟨a,b,c,d,e,f⟩ := h.ports
  simp only [State.hasRoom, decide_eq_true_eq] at hr
  have hcfg := commandEffect_cfg i s
  cases hp : i.port <;> rw [hp] at hw hr <;> simp only [State.responses] at hw hr
  · obtain ⟨-, -, -, h4⟩ := commandEffect_audio hp s
    constructor <;> rw [hcfg, h4] <;> try assumption
    show (commandEffect i s).ports.aresp.length ≤ _
    rw [hw]; simp; omega
  · obtain ⟨-, -, -, h4⟩ := commandEffect_ctrl hp s
    constructor <;> rw [hcfg, h4] <;> try assumption
    show (commandEffect i s).ports.cresp.length ≤ _
    rw [hw]; simp; omega



/-- The lines of the block: the modulated one and those of the path (10_state.md R43). -/



theorem mem_lines {s : State} {l} : l ∈ s.lines ↔ l = s.modu.line ∨ l ∈ s.reverb.pre :: (s.reverb.ap ++ s.reverb.fdn.toList) := by
  simp [State.lines]; tauto



/-- Ending an AUDIO command without an error keeps the status registers well. -/



theorem statusOk_ended {s : State} (h : StatusOk s) (t : State) (h1 : t.audio = { s.audio with lasterrA := 0 }) (h2 :
    t.sticky = s.sticky) (h3 : t.ctrl = s.ctrl) : StatusOk t := by
  obtain ⟨a,b,c,d,f⟩ := h
  constructor <;> simp only [h1, h2, h3] <;> first | assumption | simp



theorem mem_fdn (v : Vector DelayLine 8) (i : Fin 8) : v[i] ∈ v.toList := by
  rw [Vector.mem_toList_iff]; exact Vector.getElem_mem _



/-- ENGINE.CLEARALL on an initialised block keeps the invariant (47_engine_facade.md R255). -/



theorem inv_clearAll {s : State} (h : Inv s) (hi : s.audio.initf = true) (t : State) (hr :
    t.reverb = reverbClear s.cfg s.audio.fs s.audio.cap s.ctrl.pt s.reverb)
   (hm : t.modu = modClear s.audio.cap s.modu) (ha : t.audio = { s.audio with lasterrA := 0 }) (hc : t.ctrl = s.ctrl) (hcf :
       t.cfg = s.cfg) (hs : t.sticky = s.sticky) (hp : PortsOk t) : Inv t := by
  have ac := reverbClear_afterClear s.cfg s.audio.fs s.audio.cap s.ctrl.pt s.reverb
  have hb : s.bufferSize = s.audio.cap := by simp [State.bufferSize, hi]
  have hl := h.lines.lines
  rw [hb] at hl
  have al := AfterClear.lines ac h.lines.capLo h.lines.stages (sz := s.audio.cap) ⟨(hl _ (mem_lines.2 (.inr (by simp)))).sized,
      fun l hm => (hl _ (mem_lines.2 (.inr (by simp [hm])))).sized, fun i => (hl _ (mem_lines.2 (.inr (by simp)))).sized⟩
  rw [← hr] at ac al
  refine ⟨hcf ▸ h.params, ?_, ac.smoothers fun p => (h.targets p).1, ?_, ?_, statusOk_ended h.status t ha hs hc, hp, ?_, ?_⟩
  · intro p; rw [hc, ac.st]; exact ⟨(h.targets p).1, (h.targets p).1⟩
  · have hbt : t.bufferSize = s.audio.cap := by simp [State.bufferSize, ha, hi]
    refine ⟨by rw [ha]; exact h.lines.capLo, by rw [ha]; exact h.lines.capHi, by rw [hcf]; exact al.2, ?_⟩
    rw [hbt, ha]
    intro l hl'
    rcases mem_lines.1 hl' with rfl | hl'
    · rw [hm]; exact LineOk.clear h.lines.capLo (hl _ (mem_lines.2 (.inl rfl))).sized _
    · exact al.1 l hl'
  · intro _; rw [ac.len, ac.aroom, ac.dg, ac.adecay, ac.mat, ha, hcf]; exact ⟨rfl, rfl, rfl⟩
  · obtain ⟨a,b,c,d,e,f⟩ := h.modu
    constructor <;> rw [hm] <;> (try rw [ha]) <;> first | assumption | (show le64 zero64 zero64 = true; decide +kernel) |
        (show lt64 zero64 twoPi = true; decide +kernel)
  · constructor
    · intro i; rw [ac.z]; decide +kernel
    · intro p; rw [ac.cur]; exact f64_not_subnormal _



/-- A write of CTRL-owned state keeps the invariant if the targets stay in range (20_memory.md R66). -/



theorem inv_ctrl {s t : State} (h : Inv s) (hcf : t.cfg = s.cfg) (ha : t.audio = s.audio) (hr : t.reverb = s.reverb) (hm :
    t.modu = s.modu)
   (hs : t.sticky = s.sticky ∨ t.sticky = 0) (hl : t.ctrl.lasterrC.toNat ≤ 8) (hpt : ∀ p, inRange p (t.ctrl.pt.get p) = true) (hp :
       PortsOk t) : Inv t := by
  obtain ⟨h1, h2, hk, h3, h4, h5, h6, h7, h8⟩ := h
  refine ⟨hcf ▸ h1, fun p => ⟨hpt p, by rw [hr]; exact (h2 p).2⟩, by rw [SmoothersInRange, ha, hr]; exact hk, ?_, ?_, ?_, hp, ?_, ?_⟩
  · have hb : t.bufferSize = s.bufferSize := by unfold State.bufferSize; rw [ha]
    have hl : t.lines = s.lines := by unfold State.lines; rw [hr, hm]
    exact ⟨ha ▸ h3.1, ha ▸ h3.2, by rw [hr, hcf]; exact h3.3, by rw [hl, hb, ha]; exact h3.4⟩
  · intro hi; rw [ha, hr, hcf] at *; exact h4 hi
  · refine ⟨?_, hl, by rw [ha]; exact h5.lasterrA, by rw [ha]; exact h5.busy, by rw [ha]; exact h5.inflight⟩
    rcases hs with hs | hs <;> rw [hs]
    · exact h5.sticky
    · simp
  · obtain ⟨a,b,c,d,e,f⟩ := h7; constructor <;> rw [hm] <;> (try rw [ha]) <;> assumption
  · obtain ⟨a,b⟩ := h8; constructor <;> rw [hr] <;> assumption



/-- A write of the modulated-delay unit keeps the invariant if the unit stays well. -/



theorem inv_modu {s : State} (h : Inv s) (t : State) (hm : ModOk t) (hl : LineOk s.audio.cap s.bufferSize t.modu.line) (hr :
    t.reverb = s.reverb) (hc : t.ctrl = s.ctrl) (hcf : t.cfg = s.cfg)
   (ha : t.audio = { s.audio with lasterrA := 0 }) (hs : t.sticky = s.sticky) (hp : PortsOk t) : Inv t := by
  refine ⟨hcf ▸ h.params, by rw [TargetsInRange, hc, hr]; exact h.targets, by rw [SmoothersInRange, ha, hr]; exact h.smoothers, ?_, ?_, statusOk_ended h.status t ha hs hc, hp, hm, ?_⟩
  · have hb : t.bufferSize = s.bufferSize := by unfold State.bufferSize; rw [ha]
    refine ⟨by rw [ha]; exact h.lines.capLo, by rw [ha]; exact h.lines.capHi, by rw [hr, hcf]; exact h.lines.stages, ?_⟩
    intro l hl'
    rw [hb, ha]
    rcases mem_lines.1 hl' with rfl | hl'
    · exact hl
    · rw [hr] at hl'; exact h.lines.lines l (mem_lines.2 (.inr hl'))
  · intro hi; rw [ha] at hi ⊢; rw [hr, hcf]; exact h.matrix hi
  · obtain ⟨a,b⟩ := h.flushed; constructor <;> rw [hr] <;> assumption



/-- Putting frames in flight keeps the invariant (10_state.md R47). -/



theorem inv_launch {s : State} (h : Inv s) (hinit : s.audio.initf = true) (f : InFlight) (h1 : 0 < f.remaining) (h2 :
    f.remaining ≤ s.audio.maxblk.toNat) : Inv (launch f s) := by
  refine ⟨h.params, h.targets, h.smoothers, ⟨h.lines.capLo, h.lines.capHi, h.lines.stages, h.lines.lines⟩, h.matrix, ?_, ⟨h.ports.1, h.ports.2,
      h.ports.3, h.ports.4, h.ports.5, h.ports.6⟩, ⟨h.modu.1, h.modu.2, h.modu.3, h.modu.4, h.modu.5, h.modu.6⟩, ⟨h.flushed.1,
      h.flushed.2⟩⟩
  refine ⟨h.status.sticky, h.status.lasterrC, h.status.lasterrA, rfl, ?_⟩
  intro g hg
  simp only [launch, Option.some.injEq] at hg
  subst hg; exact ⟨hinit, h1, h2⟩



/-- Writing 0 to a last-error register keeps the invariant. -/



theorem inv_setLasterr {s : State} (h : Inv s) (p) : Inv (s.setLasterr p 0) := by
  refine inv_of_records s _ h ?cfg ?reverb ?modu ?pt ?audio ?_ ?ports
  case ports => cases p <;> exact ⟨h.ports.1, h.ports.2, h.ports.3, h.ports.4, h.ports.5, h.ports.6⟩
  case cfg | reverb | modu | pt | audio => cases p <;> rfl
  cases p <;> constructor <;> first | exact h.status.sticky | exact h.status.busy | exact h.status.inflight | exact h.status.lasterrA | exact h.status.lasterrC | simp



/-- The latch of PROC keeps the invariant (47_engine_facade.md R253). -/



theorem inv_latchTargets {s : State} (h : Inv s) : Inv (latchTargets s) :=
  ⟨h.params, fun p => ⟨(h.targets p).1, (h.targets p).1⟩, h.smoothers, ⟨h.lines.capLo, h.lines.capHi, h.lines.stages, h.lines.lines⟩, h.matrix,
      ⟨h.status.1, h.status.2, h.status.3, h.status.4, h.status.5⟩, ⟨h.ports.1, h.ports.2, h.ports.3, h.ports.4, h.ports.5,
      h.ports.6⟩,
    ⟨h.modu.baseLo, h.modu.baseHi, h.modu.depth, h.modu.rate, h.modu.phaseLo, h.modu.phaseHi⟩, ⟨h.flushed.z, h.flushed.cur⟩⟩



/-- MSETM stores finite numbers (45_modulated_delay.md R201). -/



theorem isFinite32_finiteOrZero (x : F32) : isFinite32
    (finiteOrZero x) = true := by unfold finiteOrZero; split <;> [assumption; decide +kernel]



/-- A successful INIT keeps the invariant (47_engine_facade.md R252). -/



theorem inv_initEffect {s : State} (h : Inv s) (n fs) (hnf : s.audio.inflight = none) (hc : checkError (.init n fs) s = none) (hp :
    PortsOk (commandEffect (.init n fs) s)) : Inv (commandEffect (.init n fs) s) := by
  generalize ht : commandEffect (.init n fs) s = t at *
  generalize hcap : max 2 (floor64 fs).toNat = cap at *
  have hcapLo : 2 ≤ cap := by omega
  have hargs : initArgsBad s.cfg n fs = false := by
    simpa [checkError] using hc
  have hcapHi : cap ≤ 2 ^ 24 := by
    simp only [initArgsBad, Bool.or_eq_false_iff, Bool.not_eq_false', Bool.and_eq_true] at hargs
    rw [← hcap]; exact capacity_le h.params hargs.1.1.2 hargs.1.2
  have ac := reverbClear_afterClear s.cfg fs cap s.ctrl.pt (reverbResize cap s.reverb)
  have hr : t.reverb = reverbClear s.cfg fs cap s.ctrl.pt (reverbResize cap s.reverb) := by rw [← ht, ← hcap]; rfl
  have hm : t.modu = modClear cap (modInit cap s.modu) := by rw [← ht, ← hcap]; rfl
  have ha : t.audio = { s.audio with initf := true, fs := fs, maxblk := n, cap := cap, k := smCoeff s.cfg fs, lasterrA :=
      0 } := by rw [← ht, ← hcap]; rfl
  have hct : t.ctrl = s.ctrl := by rw [← ht]; rfl
  have hcf : t.cfg = s.cfg := by rw [← ht]; rfl
  have hs : t.sticky = s.sticky := by rw [← ht]; rfl
  have al := AfterClear.lines ac hcapLo (by simp [reverbResize, h.lines.stages]) (sz := cap) ⟨rfl, by simp [reverbResize,
      dlResize], by simp [reverbResize, dlResize]⟩
  rw [← hr] at ac al
  refine ⟨hcf ▸ h.params, ?_, ac.smoothers fun p => (h.targets p).1, ?_, ?_, ?_, hp, ?_, ?_⟩
  · intro p; rw [hct, ac.st]; exact ⟨(h.targets p).1, (h.targets p).1⟩
  · have hbt : t.bufferSize = cap := by simp [State.bufferSize, ha]
    refine ⟨by rw [ha]; exact hcapLo, by rw [ha]; exact hcapHi, by rw [hcf]; exact al.2, ?_⟩
    rw [hbt, ha]
    intro l hl'
    rcases mem_lines.1 hl' with rfl | hl'
    · rw [hm]; exact LineOk.clear (l := dlResize cap s.modu.line) hcapLo rfl _
    · exact al.1 l hl'
  · intro _; rw [ac.len, ac.aroom, ac.dg, ac.adecay, ac.mat, ha, hcf]; exact ⟨rfl, rfl, rfl⟩
  · obtain ⟨a,b,c,d,f⟩ := h.status
    constructor <;> simp only [ha, hs, hct] <;> first | assumption | simp [hnf] 
  · have h1 := one_le_float32 (n := cap - 1) (by omega)
    constructor <;> rw [hm] <;> (try rw [ha]) <;> first | exact h1 | (simp only [modClear, modInit]; decide +kernel)
  · constructor
    · intro i; rw [ac.z]; decide +kernel
    · intro p; rw [ac.cur]; exact f64_not_subnormal _



/-- Every command whose checks pass keeps the invariant. -/



theorem inv_commandEffect {i : Instr} {s : State} (h : Inv s) (hc : checkError i s = none) (hr :
    s.hasRoom i.port i.opcode.resp = true) (hnf : i.port = .audio → s.audio.inflight = none) : Inv (commandEffect i s) := by
  have hp := portsOk_commandEffect h hc hr
  have hctrl : i.port = .ctrl → Inv (commandEffect i s) := by
    intro hpc
    obtain ⟨h1, h2, h3, h4⟩ := commandEffect_ctrl hpc s
    refine inv_ctrl h (commandEffect_cfg _ _) h1 h2 h3 ?_ ?_ ?_ hp
    · rw [commandEffect_sticky]; split <;> simp
    · cases i <;> simp_all [Instr.port, commandEffect] <;> (try split) <;> simp_all [State.setLasterr, answer, State.pushResponses,
        h.status.lasterrC]
    · intro p
      have := (h.targets p).1
      cases i <;> simp_all [Instr.port, commandEffect] <;> (try split) <;> simp_all [State.setLasterr, answer, State.pushResponses,
          editTarget]
      · split
        · rename_i he; rw [he]; exact inRange_smTarget _ _
        · assumption
      · split
        · rename_i he; rw [he]; exact inRange_smTarget _ _
        · assumption
      · unfold presetTargets; split
        · assumption
        · rw [PerParam.get_perParam]; exact inRange_smTarget _ _
  have hinit := initf_of_checkError hc
  cases i
  case nop p => exact inv_setLasterr h p
  case init n fs => exact inv_initEffect h n fs (hnf rfl) hc hp
  case reset => exact inv_clearAll h (hinit rfl) _ rfl rfl rfl rfl rfl rfl hp
  case clear => exact inv_clearAll h (hinit rfl) _ rfl rfl rfl rfl rfl rfl hp
  case proc sel n =>
    have hc' := hc
    simp only [checkError, orElse_eq_none, tooLarge_eq_none] at hc'
    simp only [commandEffect]
    split
    · exact inv_setLasterr h _
    · split
      · exact inv_setLasterr h _
      · rename_i h0
        refine inv_launch (inv_latchTargets (inv_setLasterr h .audio)) (hinit rfl) _ ?_ hc'.2.2
        show 0 < n.toNat
        by_contra hz; exact h0 (BitVec.eq_of_toNat_eq (by simpa using hz))
  case msetm d r =>
    refine inv_modu h _ ?_ (h.lines.lines _ (mem_lines.2 (.inl rfl))) rfl rfl rfl rfl rfl hp
    exact ⟨h.modu.baseLo, h.modu.baseHi, isFinite32_finiteOrZero _, isFinite32_finiteOrZero _, h.modu.phaseLo, h.modu.phaseHi⟩
  case msetb b =>
    refine inv_modu h _ ?_ (h.lines.lines _ (mem_lines.2 (.inl rfl))) rfl rfl rfl rfl rfl hp
    exact ⟨(clampDelay_mem h.lines.capLo b).1, (clampDelay_mem h.lines.capLo b).2, h.modu.depth, h.modu.rate, h.modu.phaseLo,
        h.modu.phaseHi⟩
  case mproc n =>
    have hc' := hc
    simp only [checkError, orElse_eq_none, tooLarge_eq_none] at hc'
    simp only [commandEffect]
    split
    · exact inv_setLasterr h _
    · rename_i h0
      refine inv_launch (inv_setLasterr h .audio) (hinit rfl) _ ?_ hc'.2
      show 0 < n.toNat
      by_contra hz; exact h0 (BitVec.eq_of_toNat_eq (by simpa using hz))
  case mclr =>
    refine inv_modu h _ ?_ (LineOk.clear h.lines.capLo (h.lines.lines _ (mem_lines.2 (.inl rfl))).sized _) rfl rfl rfl rfl rfl hp
    exact ⟨h.modu.baseLo, h.modu.baseHi, h.modu.depth, h.modu.rate, by show le64 zero64 zero64 = true; decide +kernel,
        by show lt64 zero64 twoPi = true; decide +kernel⟩
  all_goals exact hctrl rfl



/-- Counting a frame off keeps the invariant (47_engine_facade.md R253). -/



theorem inv_retire {s : State} (h : Inv s) (f : Nat → InFlight) (n : Nat) (hf : ∀ k, (f k).remaining = k) (hin : ∃ g,
    s.audio.inflight = some g ∧ g.remaining = n + 1) : Inv (retire f n s) := by
  obtain ⟨g, hg, hgr⟩ := hin
  obtain ⟨i1, i2, i3⟩ := h.status.inflight g hg
  refine ⟨h.params, h.targets, h.smoothers, ⟨h.lines.capLo, h.lines.capHi, h.lines.stages, h.lines.lines⟩, h.matrix, ?_, ⟨h.ports.1, h.ports.2,
      h.ports.3, h.ports.4, h.ports.5, h.ports.6⟩, ⟨h.modu.1, h.modu.2, h.modu.3, h.modu.4, h.modu.5, h.modu.6⟩, ⟨h.flushed.1,
      h.flushed.2⟩⟩
  refine ⟨h.status.sticky, h.status.lasterrC, h.status.lasterrA, ?_, ?_⟩
  · simp only [retire]; by_cases h : n = 0 <;> simp [h]
  · intro q hq
    simp only [retire] at hq
    split at hq
    · cases hq
    · cases hq; rw [hf]; exact ⟨i1, by omega, by simp only [retire]; omega⟩



/-- A frame keeps lengths and matrix functions of `AROOM` and `ADECAY` (44_feedback_matrix.md R186). -/



theorem fdnFrame_matrix (cfg fs cap k r x) (h : r.len = matLengths cfg fs r.aroom ∧ r.dg = matDecayGain fs r.adecay
    ∧ r.mat = matScale r.dg) :
   let t := (fdnFrame cfg fs cap k r x).1
   t.len = matLengths cfg fs t.aroom ∧ t.dg = matDecayGain fs t.adecay ∧ t.mat = matScale t.dg := by
  intro t
  have : t = (fdnStep cfg cap (appliedPath cfg fs cap k r) x.input).1 := by simp only [t, fdnFrame_eq]
  rw [this, (fdnStep_lines _ _ _ _).1]
  show (appliedPath cfg fs cap k r).len = matLengths cfg fs (appliedPath cfg fs cap k r).aroom ∧
      (appliedPath cfg fs cap k r).dg = matDecayGain fs (appliedPath cfg fs cap k r).adecay ∧
      (appliedPath cfg fs cap k r).mat = matScale (appliedPath cfg fs cap k r).dg
  unfold appliedPath fdnApply
  rcases applyDecayIf_cases fs (pulledValues (pullCurrents k r)).decayTime false (applyRoomIf cfg fs cap (pulledValues
      (pullCurrents k r)).roomSize false (pullCurrents k r)) with h1 | h1 <;>
    rcases applyRoomIf_cases cfg fs cap (pulledValues (pullCurrents k r)).roomSize false
        (pullCurrents k r) with h' | h' <;> rw [h1, h']
  · exact h
  · exact ⟨rfl, h.2⟩
  · exact ⟨h.1, rfl, rfl⟩
  · exact ⟨rfl, rfl, rfl⟩



/-- Every frame step keeps the invariant. -/



theorem inv_frameStep {s t : State} (h : Inv s) (hf : frameStep s = some t) : Inv t := by
  rcases frameStep_cases hf with ⟨ch, n, x, rest, hin, ht, hroom, rfl⟩ | ⟨n, x, rest, hin, ht, hroom, rfl⟩
  · obtain ⟨i1, -, -⟩ := h.status.inflight _ hin
    have hb : s.bufferSize = s.audio.cap := by simp [State.bufferSize, i1]
    have hl := h.lines.lines
    rw [hb] at hl
    refine inv_retire ?_ _ _ (fun _ => rfl) ⟨_, hin, rfl⟩
    have hports : PortsOk { s with reverb := (pathFrame s x).1, ports := { s.ports with inq := rest, outq := s.ports.outq ++
        (pathFrame s x).2.words } } := by
      obtain ⟨a,b,c,d,e,f⟩ := h.ports
      obtain ⟨t1, t2⟩ := takeFrame_some ht
      refine ⟨a, b, ?_, ?_, e, f⟩
      · rw [t1, List.length_append] at c; simp only; omega
      · simp only [List.length_append, pathFrame_words_length, t2]; exact hroom
    rcases hbp : s.reverb.bypL
    · have hp : pathFrame s x = fdnFrame s.cfg s.audio.fs s.audio.cap s.audio.k s.reverb x := by simp [pathFrame, hbp]
      rw [hp] at hports ⊢
      obtain ⟨e1, e2, e3⟩ := fdnApply_lines s.cfg s.audio.fs s.audio.cap (pulledValues (pullCurrents s.audio.k s.reverb)) false
          (pullCurrents s.audio.k s.reverb)
      obtain ⟨k1, k2, k3, k4⟩ := fdnApply_kept s.cfg s.audio.fs s.audio.cap (pulledValues (pullCurrents s.audio.k s.reverb)) false
          (pullCurrents s.audio.k s.reverb)
      have em : (fdnFrame s.cfg s.audio.fs s.audio.cap s.audio.k s.reverb x).1 = (fdnStep s.cfg s.audio.cap
          (appliedPath s.cfg s.audio.fs s.audio.cap s.audio.k s.reverb) x.input).1 := by rw [fdnFrame_eq]
      obtain ⟨f1, ⟨y, f2⟩, ⟨u, f3⟩, f4⟩ := fdnStep_lines s.cfg s.audio.cap
          (appliedPath s.cfg s.audio.fs s.audio.cap s.audio.k s.reverb) x.input
      have fm := fdnFrame_matrix s.cfg s.audio.fs s.audio.cap s.audio.k s.reverb x
      have hz : ∀ i : Fin 8, isSubnormal32 (fdnStep s.cfg s.audio.cap
          (appliedPath s.cfg s.audio.fs s.audio.cap s.audio.k s.reverb) x.input).1.z[i] = false := by
        intro i
        simp only [fdnStep, Fin.getElem_fin, tab8_getElem]
        exact ftz32_not_subnormal _
      have hst : (fdnStep s.cfg s.audio.cap
          (appliedPath s.cfg s.audio.fs s.audio.cap s.audio.k s.reverb) x.input).1.st = s.reverb.st := by rw [f1]; exact k1
      have hcur : (fdnStep s.cfg s.audio.cap (appliedPath s.cfg s.audio.fs s.audio.cap s.audio.k s.reverb) x.input).1.cur =
          (pullCurrents s.audio.k s.reverb).cur := by rw [f1]; exact k2
      rw [em] at *
      generalize (fdnStep s.cfg s.audio.cap (appliedPath s.cfg s.audio.fs s.audio.cap s.audio.k s.reverb) x.input).1 = r at *
      refine ⟨h.params, ?_, ?_, ?_, ?_, ⟨h.status.1, h.status.2, h.status.3, h.status.4, h.status.5⟩, ⟨hports.1, hports.2, hports.3,
          hports.4, hports.5, hports.6⟩, ⟨h.modu.1, h.modu.2, h.modu.3, h.modu.4, h.modu.5, h.modu.6⟩, ?_⟩
      · intro p; exact ⟨(h.targets p).1, by show inRange p (r.st.get p) = true; rw [hst]; exact (h.targets p).2⟩
      · intro _ hk0 hk1 p
        obtain ⟨a1, a2, -⟩ := h.smoothers i1 hk0 hk1 p
        have hs := smStep_inRange hk0 hk1 a1 a2 (h.targets p).2
        have e : r.cur.get p = smStep s.audio.k (s.reverb.st.get p) (s.reverb.cur.get p) := by
          rw [hcur, pullCurrents, PerParam.get_perParam]
        show le64 _ (r.cur.get p) = true ∧ le64 (r.cur.get p) _ = true ∧ inRange p (smValue (r.cur.get p)) = true
        rw [e]
        exact ⟨hs.1, hs.2, smValue_inRange hs.1 hs.2⟩
      · refine ⟨h.lines.capLo, h.lines.capHi, ?_, ?_⟩
        · show r.ap.length = _
          rw [f3, apCascade_length]; show (fdnApply _ _ _ _ _ _).ap.length = _; rw [e2]; exact h.lines.stages
        · intro l hl'
          show LineOk s.audio.cap s.bufferSize l
          rw [hb]
          rcases mem_lines.1 hl' with rfl | hl'
          · exact hl _ (mem_lines.2 (.inl rfl))
          · simp only [List.mem_cons, List.mem_append] at hl'
            rcases hl' with rfl | hl' | hl'
            · show LineOk _ _ r.pre
              rw [f2]; refine LineOk.push ?_ _
              show LineOk _ _ (fdnApply _ _ _ _ _ _).pre
              rw [e1]; exact (hl s.reverb.pre (by simp [State.lines])).setDelay h.lines.capLo _
            · change l ∈ r.ap at hl'
              rw [f3] at hl'
              refine LineOk.apCascade ?_ u l hl'
              intro l' hl2
              change l' ∈ (fdnApply _ _ _ _ _ _).ap at hl2
              rw [e2] at hl2
              exact hl l' (by simp [State.lines]; right; right; left; exact hl2)
            · change l ∈ r.fdn.toList at hl'
              rw [Vector.mem_toList_iff, Vector.mem_iff_getElem] at hl'
              obtain ⟨j, hj, rfl⟩ := hl'
              obtain ⟨y, hy⟩ := f4 ⟨j, hj⟩
              have e3' := e3 ⟨j, hj⟩
              simp only [Fin.getElem_fin] at hy e3'
              rw [hy]; refine LineOk.push ?_ _
              show LineOk _ _ (fdnApply _ _ _ _ _ _).fdn[j]
              have base : LineOk s.audio.cap s.audio.cap s.reverb.fdn[j] := hl _ (by simp [State.lines])
              rcases e3' with e | ⟨d, e⟩ <;> rw [e]
              · exact base
              · exact base.setDelay h.lines.capLo _
      · intro hi; exact fm (h.matrix hi)
      · refine ⟨hz, ?_⟩
        intro p; show isSubnormal64 (r.cur.get p) = false
        rw [hcur]; simp only [pullCurrents, PerParam.get_perParam, smStep]; exact ftz64_not_subnormal _
    · have hp : pathFrame s x = (s.reverb, x) := by simp [pathFrame, hbp]
      rw [hp] at hports ⊢
      refine inv_of_records s _ h rfl rfl rfl rfl rfl ⟨h.status.1, h.status.2, h.status.3, h.status.4, h.status.5⟩ hports
  · obtain ⟨i1, -, -⟩ := h.status.inflight _ hin
    have hb : s.bufferSize = s.audio.cap := by simp [State.bufferSize, i1]
    refine inv_retire ?_ _ _ (fun _ => rfl) ⟨_, hin, rfl⟩
    have hph : le64 zero64 (modProcess s.audio.fs s.audio.cap s.modu x).1.phase = true ∧ lt64
        (modProcess s.audio.fs s.audio.cap s.modu x).1.phase twoPi = true := by
      show le64 zero64 (wrapPhase _) = true ∧ lt64 (wrapPhase _) twoPi = true
      unfold wrapPhase; simp only
      split
      · simp_all
      · decide +kernel
    refine ⟨h.params, h.targets, h.smoothers, ?_, h.matrix, ⟨h.status.1, h.status.2, h.status.3, h.status.4, h.status.5⟩, ?_, ?_, ⟨h.flushed.1,
        h.flushed.2⟩⟩
    · refine ⟨h.lines.capLo, h.lines.capHi, h.lines.stages, ?_⟩
      intro l hl'
      rcases mem_lines.1 hl' with rfl | hl'
      · show LineOk s.audio.cap s.bufferSize (dlPush _ _ _)
        rw [hb]; refine LineOk.push (LineOk.setDelay ?_ h.lines.capLo _) _
        have := h.lines.lines s.modu.line (by simp [State.lines])
        rwa [hb] at this
      · exact h.lines.lines l (mem_lines.2 (.inr hl'))
    · obtain ⟨a,b,c,d,e,f⟩ := h.ports
      refine ⟨a, b, ?_, by simpa using hroom, e, f⟩
      rw [ht] at c; simp at c; simp only; omega
    · exact ⟨h.modu.1, h.modu.2, h.modu.3, h.modu.4, hph.1, hph.2⟩

end Sys2Proof.Machine
end

