-- ==== Sys2Proof/Laws/PerInstr.lean ====
section
/-! SUPPORT. The family `HeadFields`: what the encoder writes for each command (30_encoding.md R80 to R83, R87). -/

namespace Sys2Proof.Laws.HeadFields

/-- The command word carries the opcode's OPC value and no reserved bit, and the command has the words that R87 gives its opcode. -/
def Statement (i : Instr) : Prop :=
  opcField i.head = i.opcode.byte ∧ i.head &&& i.opcode.format.reservedMask = 0 ∧ (encode i).length = 1 + i.opcode.payload

/-- The statement for a command word made of fields whose unused ones are 0. -/
theorem of_fields {i : Instr} {s : BitVec 4} {c : BitVec 16} (h : i.head = commandWord i.opcode.byte s c)
    (hs : i.opcode.format = .Z ∨ i.opcode.format = .K → s = 0) (hc : i.opcode.format = .Z ∨ i.opcode.format = .S → c = 0)
    (hl : i.payloadWords.length = i.opcode.payload) : Statement i := by
  refine ⟨by rw [h, opcField_commandWord], by rw [h]; exact reserved_commandWord _ _ _ _ hs hc, ?_⟩
  rw [encode, List.length_cons, hl, Nat.add_comm]

theorem nop (p : Port) : Statement (.nop p) :=
  of_fields rfl (by simp [Instr.opcode, Opcode.format]) (by simp [Instr.opcode, Opcode.format]) rfl
theorem init (n : BitVec 16) (fs : F64) : Statement (.init n fs) :=
  of_fields rfl (by simp [Instr.opcode, Opcode.format]) (by simp [Instr.opcode, Opcode.format]) rfl
theorem reset : Statement .reset :=
  of_fields rfl (by simp [Instr.opcode, Opcode.format]) (by simp [Instr.opcode, Opcode.format]) rfl
theorem clear : Statement .clear :=
  of_fields rfl (by simp [Instr.opcode, Opcode.format]) (by simp [Instr.opcode, Opcode.format]) rfl
theorem proc (sel : BitVec 4) (n : BitVec 16) : Statement (.proc sel n) :=
  of_fields rfl (by simp [Instr.opcode, Opcode.format]) (by simp [Instr.opcode, Opcode.format]) rfl
theorem msetm (d r : F32) : Statement (.msetm d r) :=
  of_fields rfl (by simp [Instr.opcode, Opcode.format]) (by simp [Instr.opcode, Opcode.format]) rfl
theorem msetb (b : F32) : Statement (.msetb b) :=
  of_fields rfl (by simp [Instr.opcode, Opcode.format]) (by simp [Instr.opcode, Opcode.format]) rfl
theorem mproc (n : BitVec 16) : Statement (.mproc n) :=
  of_fields rfl (by simp [Instr.opcode, Opcode.format]) (by simp [Instr.opcode, Opcode.format]) rfl
theorem mclr : Statement .mclr :=
  of_fields rfl (by simp [Instr.opcode, Opcode.format]) (by simp [Instr.opcode, Opcode.format]) rfl
theorem setp (sel : BitVec 4) (v : F32) : Statement (.setp sel v) :=
  of_fields rfl (by simp [Instr.opcode, Opcode.format]) (by simp [Instr.opcode, Opcode.format]) rfl
theorem getp (sel : BitVec 4) : Statement (.getp sel) :=
  of_fields rfl (by simp [Instr.opcode, Opcode.format]) (by simp [Instr.opcode, Opcode.format]) rfl
theorem setpn (sel : BitVec 4) (x : F32) : Statement (.setpn sel x) :=
  of_fields rfl (by simp [Instr.opcode, Opcode.format]) (by simp [Instr.opcode, Opcode.format]) rfl
theorem getpn (sel : BitVec 4) : Statement (.getpn sel) :=
  of_fields rfl (by simp [Instr.opcode, Opcode.format]) (by simp [Instr.opcode, Opcode.format]) rfl
theorem setbyp (sel : BitVec 4) : Statement (.setbyp sel) :=
  of_fields rfl (by simp [Instr.opcode, Opcode.format]) (by simp [Instr.opcode, Opcode.format]) rfl
theorem getbyp : Statement .getbyp :=
  of_fields rfl (by simp [Instr.opcode, Opcode.format]) (by simp [Instr.opcode, Opcode.format]) rfl
theorem setpre (sel : BitVec 4) : Statement (.setpre sel) :=
  of_fields rfl (by simp [Instr.opcode, Opcode.format]) (by simp [Instr.opcode, Opcode.format]) rfl
theorem getpre : Statement .getpre :=
  of_fields rfl (by simp [Instr.opcode, Opcode.format]) (by simp [Instr.opcode, Opcode.format]) rfl
theorem getcpu : Statement .getcpu :=
  of_fields rfl (by simp [Instr.opcode, Opcode.format]) (by simp [Instr.opcode, Opcode.format]) rfl
theorem isinit : Statement .isinit :=
  of_fields rfl (by simp [Instr.opcode, Opcode.format]) (by simp [Instr.opcode, Opcode.format]) rfl
theorem getstat : Statement .getstat :=
  of_fields rfl (by simp [Instr.opcode, Opcode.format]) (by simp [Instr.opcode, Opcode.format]) rfl
theorem clrerr : Statement .clrerr :=
  of_fields rfl (by simp [Instr.opcode, Opcode.format]) (by simp [Instr.opcode, Opcode.format]) rfl
theorem issmooth (sel : BitVec 4) : Statement (.issmooth sel) :=
  of_fields rfl (by simp [Instr.opcode, Opcode.format]) (by simp [Instr.opcode, Opcode.format]) rfl

/-- The statement for every command. -/
theorem all (i : Instr) : Statement i := by
  cases i with
  | nop p => exact nop p
  | init n fs => exact init n fs
  | reset => exact reset
  | clear => exact clear
  | proc sel n => exact proc sel n
  | msetm d r => exact msetm d r
  | msetb b => exact msetb b
  | mproc n => exact mproc n
  | mclr => exact mclr
  | setp sel v => exact setp sel v
  | getp sel => exact getp sel
  | setpn sel x => exact setpn sel x
  | getpn sel => exact getpn sel
  | setbyp sel => exact setbyp sel
  | getbyp => exact getbyp
  | setpre sel => exact setpre sel
  | getpre => exact getpre
  | getcpu => exact getcpu
  | isinit => exact isinit
  | getstat => exact getstat
  | clrerr => exact clrerr
  | issmooth sel => exact issmooth sel

end Sys2Proof.Laws.HeadFields
end

