-- ==== Sys2Proof/Tests/Slice0.lean ====
section
/-! SUPPORT. Small checks against the spec's own words and vectors (95_test_vectors.md), and for every statement with hypotheses a
concrete state and operands that meet them together. -/

set_option Elab.async false

namespace Sys2Proof.Tests

open Sys2Proof Sys2Proof.Machine

/-! ### Small states -/

/-- A small initialised block: capacity 8, blocks of at most 512 frames, every line empty with delay 1. -/
def ready : State :=
  let line : DelayLine := ⟨8, [], 0, one32⟩
  { State.reset with
    audio := { State.reset.audio with initf := true, fs := 0x4020000000000000, maxblk := 512, cap := 8, k := one64 }
    reverb := { State.reset.reverb with pre := line, ap := [line, line, line, line], fdn := Vector.replicate 8 line }
    modu := { State.reset.modu with line := line } }

/-- A state whose port `p` has `ws` queued and whose executor moves next. -/
def queued (p : Port) (ws : List Word) (s : State) : State :=
  { s.setCommands p ws with env := { s.env with sched := [Port.agent p] } }

/-- A state with a command in flight and input words. -/
def flying (f : InFlight) (input : List Word) (s : State) : State :=
  { s with audio := { s.audio with busy := true, inflight := some f }, ports := { s.ports with inq := input } }

/-- The next state of an outcome; the reset state where there is none. -/
def after (o : Host.Outcome State Fault Refusal) : State :=
  match o with
  | .next t => t
  | .fault _ => State.reset
  | .refused _ => State.reset

/-- The state after one command. -/
def run (i : Instr) (s : State) : State := after (exec i s)

/-! ### Well-formedness: each check refuses an ill-formed term (30_encoding.md R84 to R86) -/

theorem test_wellFormed_setp : (Instr.setp 7 0).wellFormed = false ∧ (Instr.setp 6 0).wellFormed = true := by decide
theorem test_wellFormed_getp : (Instr.getp 7).wellFormed = false ∧ (Instr.getp 0).wellFormed = true := by decide
theorem test_wellFormed_setpn : (Instr.setpn 15 0).wellFormed = false ∧ (Instr.setpn 6 0).wellFormed = true := by decide
theorem test_wellFormed_getpn : (Instr.getpn 7).wellFormed = false := by decide
theorem test_wellFormed_issmooth : (Instr.issmooth 7).wellFormed = false := by decide
theorem test_wellFormed_setpre : (Instr.setpre 5).wellFormed = false ∧ (Instr.setpre 4).wellFormed = true := by decide
theorem test_wellFormed_setbyp : (Instr.setbyp 2).wellFormed = false ∧ (Instr.setbyp 1).wellFormed = true := by decide
theorem test_wellFormed_proc :
    (Instr.proc 0 4).wellFormed = false ∧ (Instr.proc 3 4).wellFormed = false ∧ (Instr.proc 2 4).wellFormed = true := by decide

/-! ### Decoding: words written out from 30_encoding.md R80, R87 and the examples under R97 -/

theorem test_decode_nop : decode .ctrl [0x00000000, 5] = .command (.nop .ctrl) [5] := by decide
theorem test_decode_init :
    decode .audio [0x01000200, 0x00000000, 0x40E77000] = .command (.init 512 0x40E7700000000000) [] := by decide
theorem test_decode_reset : decode .audio [0x02000000] = .command .reset [] := by decide
theorem test_decode_clear : decode .audio [0x03000000] = .command .clear [] := by decide
theorem test_decode_proc : decode .audio [0x04020200] = .command (.proc 2 512) [] := by decide
theorem test_decode_msetm : decode .audio [0x08000000, 0x40000000, 0x447A0000] = .command (.msetm 0x40000000 0x447A0000) [] := by decide
theorem test_decode_msetb : decode .audio [0x09000000, 0x40200000] = .command (.msetb 0x40200000) [] := by decide
theorem test_decode_mproc : decode .audio [0x0A000005] = .command (.mproc 5) [] := by decide
theorem test_decode_mclr : decode .audio [0x0B000000] = .command .mclr [] := by decide
theorem test_decode_setp : decode .ctrl [0x10040000, 0x3DCCCCCD] = .command (.setp 4 0x3DCCCCCD) [] := by decide
theorem test_decode_getp : decode .ctrl [0x11010000] = .command (.getp 1) [] := by decide
theorem test_decode_setpn : decode .ctrl [0x12010000, 0x3F000000] = .command (.setpn 1 0x3F000000) [] := by decide
theorem test_decode_getpn : decode .ctrl [0x13060000] = .command (.getpn 6) [] := by decide
theorem test_decode_setbyp : decode .ctrl [0x14010000] = .command (.setbyp 1) [] := by decide
theorem test_decode_getbyp : decode .ctrl [0x15000000] = .command .getbyp [] := by decide
theorem test_decode_setpre : decode .ctrl [0x16030000] = .command (.setpre 3) [] := by decide
theorem test_decode_getpre : decode .ctrl [0x17000000] = .command .getpre [] := by decide
theorem test_decode_getcpu : decode .ctrl [0x18000000] = .command .getcpu [] := by decide
theorem test_decode_isinit : decode .ctrl [0x19000000] = .command .isinit [] := by decide
theorem test_decode_getstat : decode .ctrl [0x1A000000] = .command .getstat [] := by decide
theorem test_decode_clrerr : decode .ctrl [0x1B000000] = .command .clrerr [] := by decide
theorem test_decode_issmooth : decode .ctrl [0x1C010000] = .command (.issmooth 1) [] := by decide
/-- 95_test_vectors.md 9.3: unassigned and custom opcodes take one word. -/
theorem test_decode_unassigned :
    decode .audio [0x05000000, 9] = .rejected .illegalOpcode [9] ∧ decode .ctrl [0xF0000000] = .rejected .illegalOpcode [] := by
  decide
/-- 95_test_vectors.md 9.3: INIT on the CTRL port takes its three words. -/
theorem test_decode_wrong_port : decode .ctrl [0x01000200, 0, 0x40E77000, 7] = .rejected .wrongPort [7] := by decide
theorem test_decode_reserved : decode .ctrl [0x10040001, 0x3DCCCCCD, 7] = .rejected (.reservedBits 0) [7] := by decide
theorem test_decode_incomplete : decode .audio [0x01000200, 0] = .incomplete ∧ decode .ctrl [] = .incomplete := by decide

/-! ### Commands: vectors of 95_test_vectors.md section 9 and of the rules' examples -/

theorem test_nop : (run (.nop .audio) { ready with audio := { ready.audio with lasterrA := 4 } }).audio.lasterrA = 0 := by decide +kernel
/-- R252's example. -/
theorem test_init : let t := run (.init 512 0x40E7700000000000) State.reset
    t.audio.cap = 48000 ∧ t.audio.maxblk = 512 ∧ t.ports.aresp = [1] ∧
      t.reverb.len = #v[504, 551, 600, 650, 704, 755, 800, 854] := by decide +kernel
/-- 9.3: a sample rate above `FS_MAX`. -/
theorem test_init_fails : let t := run (.init 512 0x4107700400000000) State.reset
    t.audio.initf = false ∧ t.audio.lasterrA = 7 ∧ t.sticky = 0x80 ∧ t.ports.aresp = [0] := by decide +kernel
/-- R204: RESET keeps the base delay and zeroes the phase. -/
theorem test_reset :
    let t := run .reset { ready with modu := { ready.modu with base := 0x40200000, phase := one64 } }
    t.modu.base = 0x40200000 ∧ t.modu.phase = 0 ∧ t.modu.line.d = 0x40200000 := by decide +kernel
/-- R255, R117: CLEAR empties a line and returns its cursor. -/
theorem test_clear :
    let t := run .clear { ready with reverb := { ready.reverb with pre := ⟨8, [(3, one32)], 5, one32⟩ } }
    t.reverb.pre.cells = [] ∧ t.reverb.pre.w = 0 ∧ t.reverb.cur.wetDryMix = 0x403E000000000000 := by decide +kernel
/-- 9.3: channel count before initialisation in the check order. -/
theorem test_proc_bad_channels : (run (.proc 3 4) State.reset).audio.lasterrA = 5 := by decide +kernel
/-- 9.3: 512 frames are taken, 513 are too many. -/
theorem test_proc_block : (run (.proc 1 512) ready).audio.inflight = some (.proc .mono 512) ∧
    (run (.proc 1 513) ready).audio.lasterrA = 6 := by decide +kernel
/-- 5.2: NaN and infinity become +0.0. -/
theorem test_msetm : let t := run (.msetm 0x7FC00000 0x7F800000) ready
    t.modu.depth = 0 ∧ t.modu.rate = 0 := by decide +kernel
/-- 5.2: NaN gives the low bound, a large operand `C - 1`. -/
theorem test_msetb : (run (.msetb 0x7FC00000) ready).modu.base = one32 ∧
    (run (.msetb 0x4E6E6B28) ready).modu.base = 0x40E00000 := by decide +kernel
theorem test_mproc : let t := run (.mproc 5) ready
    t.audio.busy = true ∧ t.audio.inflight = some (.mproc 5) := by decide +kernel
theorem test_mclr : (run .mclr { ready with modu := { ready.modu with phase := one64 } }).modu.phase = 0 := by decide +kernel
/-- 9.4: NaN gives the low bound, 250.0 the high one. -/
theorem test_setp : (run (.setp 0 0x7FC00000) State.reset).ctrl.pt.wetDryMix = 0 ∧
    (run (.setp 0 0x437A0000) State.reset).ctrl.pt.wetDryMix = 0x42C80000 := by decide +kernel
/-- 9.4: a manual write makes the preset Custom. -/
theorem test_setp_preset : (run (.setp 4 0x3DCCCCCD) State.reset).ctrl.preset = .custom := by decide +kernel
/-- 9.2: the power-on decayTime. -/
theorem test_getp : (run (.getp 1) State.reset).ports.cresp = [0x3FC00000] := by decide +kernel
/-- 9.3: GETP 7. -/
theorem test_getp_selector : let t := run (.getp 7) State.reset
    t.ports.cresp = [0] ∧ t.ctrl.lasterrC = 3 := by decide +kernel
/-- R226: the linear mapping of wetDryMix at 0.5. -/
theorem test_setpn : (run (.setpn 0 0x3F000000) State.reset).ctrl.pt.wetDryMix = 0x42480000 := by decide +kernel
/-- R226: 30 of 100 is 0.3. -/
theorem test_getpn : (run (.getpn 0) State.reset).ports.cresp = [0x3E99999A] := by decide +kernel
theorem test_setbyp : (run (.setbyp 1) State.reset).ctrl.bypass = true ∧ (run (.setbyp 2) State.reset).ctrl.lasterrC = 3 := by
  decide +kernel
theorem test_getbyp : (run .getbyp (run (.setbyp 1) State.reset)).ports.cresp = [1] := by decide +kernel
/-- R262's example. -/
theorem test_setpre : (run (.setpre 3) State.reset).ctrl.pt =
    ⟨0x42700000, 0x40C00000, 0x42200000, 0x3F000000, 0x3F800000, 0x3F666666, 0x3E99999A⟩ := by decide +kernel
/-- 9.4: Custom changes no target. -/
theorem test_setpre_custom : let t := run (.setpre 4) State.reset
    t.ctrl.pt = State.reset.ctrl.pt ∧ t.ctrl.preset = .custom := by decide +kernel
theorem test_getpre : (run .getpre State.reset).ports.cresp = [2] := by decide +kernel
theorem test_getcpu : (run .getcpu State.reset).ports.cresp.length = 2 ∧ (run .getcpu State.reset).env.cpuDraws = 1 := by
  decide +kernel
theorem test_isinit : (run .isinit State.reset).ports.cresp = [0] ∧ (run .isinit ready).ports.cresp = [1] := by decide +kernel
/-- Program P5: the first status read. -/
theorem test_getstat :
    (run .getstat { State.reset with
      ctrl := { State.reset.ctrl with lasterrC := 1 }
      audio := { State.reset.audio with lasterrA := 4 }, sticky := 0x12 }).ports.cresp = [0x00010420, 0x00000012] := by
  decide +kernel
theorem test_clrerr : let t := run .clrerr { State.reset with
      audio := { State.reset.audio with lasterrA := 4 }, sticky := 0x12 }
    t.sticky = 0 ∧ t.audio.lasterrA = 4 := by decide +kernel
/-- 9.2: ISSMOOTH before INIT. -/
theorem test_issmooth_before_init : let t := run (.issmooth 1) State.reset
    t.ports.cresp = [0] ∧ t.ctrl.lasterrC = 4 ∧ t.sticky = 0x10 := by decide +kernel
/-- R268's example: a written target that no block latched yet counts as smoothing. -/
theorem test_issmooth : (run (.issmooth 1) { ready with reverb := { ready.reverb with
      cur := ready.reverb.cur.set .decayTime 0x4000000000000000 } }).ports.cresp = [1] := by decide +kernel

/-! ### Arithmetic and units: vectors of 95_test_vectors.md sections 2 to 8 -/

/-- 0.1 + 0.2 in binary32; 1/3; a rounding to even; the largest finite number doubled. -/
theorem test_arithmetic : add32 0x3DCCCCCD 0x3E4CCCCD = 0x3E99999A ∧ div32 0x3F800000 0x40400000 = 0x3EAAAAAB ∧
    add32 0x4B800000 0x3F800000 = 0x4B800000 ∧ mul32 0x7F7FFFFF 0x40000000 = 0x7F800000 := by decide +kernel
/-- 2.1: DL.SETDELAY with `C = 8`. -/
theorem test_setDelay : [0x3E99999A, 0x42C80000, 0x7FC00000, 0xFF800000, 0x7F800000, 0x000116C2, 0x80000000, 0x40DFFFFF].map
    (clampDelay 8) = [one32, 0x40E00000, one32, one32, 0x40E00000, one32, one32, 0x40DFFFFF] := by decide +kernel
/-- 2.2: the last two rows, one tap each (cells 0 and 1 pushed, `D = 1.5` and `D = round32(2.1)`). -/
theorem test_tap : dlPeek 8 ⟨8, [(0, 0x3F800000), (1, 0x40000000)], 2, 0x3FC00000⟩ = 0x3FC00000 ∧
    dlPeek 8 ⟨8, [(0, 0x3F800000)], 3, 0x40066666⟩ = 0x3DCCCCC0 := by decide +kernel
/-- 2.4: a NaN in the cell that an integer tap does not read stays out; a pushed subnormal is flushed. -/
theorem test_tap_corners : dlPeek 8 ⟨8, [(0, 0x40A00000), (1, 0x7FC00000)], 2, 0x40000000⟩ = 0x40A00000 ∧
    (dlPush 8 ⟨8, [], 7, one32⟩ 0x000116C2) = ⟨8, [], 0, one32⟩ := by decide +kernel
/-- 3: an all-pass step with gain 0.5 on an impulse, and the gain of density 0.7. -/
theorem test_allPass : (apProcess 8 0x3F000000 ⟨8, [], 0, 0x40000000⟩ one32).2 = 0xBF000000 ∧
    apGain Params.reference 0x3F333333 = 0x3EFAE147 := by decide +kernel
/-- R131's example: the first written value, and the output two frames later. -/
theorem test_allPass_line : (apProcess 8 0x3F000000 ⟨8, [], 0, 0x40000000⟩ one32).1 = ⟨8, [(0, one32)], 1, 0x40000000⟩ ∧
    (apProcess 8 0x3F000000 ⟨8, [(0, one32)], 2, 0x40000000⟩ zero32).2 = one32 := by decide +kernel
/-- R222's example: the first two values at 48 kHz from 0 to 1, and the immediate step. -/
theorem test_smoother :
    let c := smStep 0x3F3B4D0CEE719800 one32 zero64
    smValue c = 0x39DA6867 ∧ smValue (smStep 0x3F3B4D0CEE719800 one32 c) = 0x3A5A5CC2 ∧ smStep one64 one32 0x4000000000000000 = one64 := by
  decide +kernel
/-- 4: coefficient of amount 0.4, and two steps with coefficient 0.6. -/
theorem test_damping : dampCoeff 0x3ECCCCCD = 0x3F19999A ∧ dampProcess 0x3F19999A 0x3F19999A one32 = 0x3F570A3E := by decide +kernel
/-- 7.1 and R189: lengths at 16000 Hz, and at a room just below the distinct region. -/
theorem test_lengths : matLengths Params.reference 0x40CF400000000000 0x3F000000 = #v[504, 551, 600, 640, 640, 640, 640, 640] ∧
    (matLengths Params.reference 0x40E7700000000000 0x3DBB883D).toList.take 3 = [100, 100, 109] := by decide +kernel
/-- R184's example, and R185's with a gain of 1. -/
theorem test_matrix : mul32 0x3F6E39F8 (householder 0 0) = 0xBF32AB7A ∧ mul32 0x3F6E39F8 (householder 0 1) = 0x3E6E39F8 ∧
    matApply (matScale one32) #v[one32, 0, 0, 0, 0, 0, 0, 0] =
      #v[0xBF400000, 0x3E800000, 0x3E800000, 0x3E800000, 0x3E800000, 0x3E800000, 0x3E800000, 0x3E800000] := by decide +kernel
/-- R167: 15 ms at 48 kHz are 720 samples; R162's example. -/
theorem test_predelay_mix : fdnPredelay 0x40E7700000000000 0x41700000 = 0x44340000 ∧
    fdnMix 0x3E99999A one32 zero32 = 0x3F333333 := by decide +kernel
/-- Program P4's middle frame: a cell half way between two samples, through the unit's own line. -/
theorem test_modulated_line : (dlProcess 8 ⟨8, [(0, one32)], 2, 0x40200000⟩ 0).2 = 0x3F000000 := by decide +kernel
/-- Program P1: a bypassed frame keeps a signalling NaN and a negative zero. -/
theorem test_bypass_frame :
    let s := flying (.proc .stereo 1) [0x7FA00001, 0x80000000] { ready with reverb := { ready.reverb with bypL := true } }
    (frameStep s).map (fun t => (t.ports.outq, t.audio.busy)) = some ([0x7FA00001, 0x80000000], false) := by decide +kernel

/-! ### The assembler: the examples under 30_encoding.md R97 -/

theorem test_assemble_init :
    assembleLine "init 48000.0, 512".toList = some [.pushAport 0x01000200, .pushAport 0x00000000, .pushAport 0x40E77000] := by
  decide +kernel
theorem test_assemble_setp : assembleLine "C: setp roomSize, 0.1".toList = some [.pushCport 0x10040000, .pushCport 0x3DCCCCCD] := by
  decide +kernel
theorem test_assemble_stream : assembleLine "IN: 1.0, 0x7FA00001, -0.0".toList =
    some [.pushIn 0x3F800000, .pushIn 0x7FA00001, .pushIn 0x80000000] := by decide +kernel
theorem test_assemble_refuses : assembleLine "mproc 65536".toList = none ∧ assembleLine "setp volume, 1.0".toList = none := by
  decide +kernel

/-! ### Witnesses: the hypotheses of every statement, met together by concrete states and operands -/

theorem witness_DecodedCommandIsItsEncoding : decode .audio [0x04020200, 7] = .command (.proc 2 512) [7] := by decide
/-- Both forms of the first clause, and room at its boundary for the second. -/
theorem witness_FetchTakesOneWholeCommand :
    (∃ t, fetch .ctrl (queued .ctrl [0x14010000] State.reset) = some (.command (.setbyp 1) t)) ∧
    (∃ t, fetch .ctrl (queued .ctrl [0x1D000000] State.reset) = some (.rejected .illegalOpcode t)) ∧
    (fetch .ctrl { queued .ctrl [0x1A000000] State.reset with ports :=
      { State.reset.ports with cport := [0x1A000000], cresp := List.replicate 14 0 } }).isSome = true := by
  refine ⟨⟨_, rfl⟩, ⟨_, rfl⟩, by decide⟩
theorem witness_StepRunsDecodedCommand :
    (let s := queued .audio [0x04020200] State.reset;
      s.env.sched = Port.agent .audio :: [] ∧ s.audio.inflight = none ∧
        decode .audio (s.commands .audio) = .command (.proc 2 512) [] ∧ s.hasRoom .audio 0 = true) ∧
    (let s := queued .ctrl [0x1A000000] (flying (.mproc 1) [] ready);
      s.env.sched = Port.agent .ctrl :: [] ∧ decode .ctrl (s.commands .ctrl) = .command .getstat [] ∧ s.hasRoom .ctrl 2 = true) := by
  decide
/-- The ends of the four unassigned ranges (30_encoding.md R89, R92). -/
theorem witness_UnassignedOpcodeIsIllegal :
    ([0x05FFFFFF, 0x07000000, 0x0C000000, 0x0F000000, 0x1D000000, 0xEF000000, 0xF0000000, 0xFF000000] : List Word).all (fun w =>
      (queued .ctrl [w] State.reset).commands .ctrl == [w] &&
        decide ((opcField w).toNat ∈ [0x05, 0x06, 0x07] ∨ (0x0C ≤ (opcField w).toNat ∧ (opcField w).toNat ≤ 0x0F) ∨
          0x1D ≤ (opcField w).toNat)) = true := by decide
/-- The ends of the two port spaces, with the longest command (30_encoding.md R88). -/
theorem witness_OtherPortsOpcodeIsWrongPort :
    (∀ q ∈ ([[0x01000200, 0, 0x40E77000], [0x0B000000]] : List (List Word)),
      (opcField (q.headD 0)).toNat ∈ [0x01, 0x02, 0x03, 0x04, 0x08, 0x09, 0x0A, 0x0B] ∧
        commandLength (q.headD 0) ≤ q.tail.length + 1) ∧
    (∀ q ∈ ([[0x10000000, 0], [0x1C000000]] : List (List Word)),
      0x10 ≤ (opcField (q.headD 0)).toNat ∧ (opcField (q.headD 0)).toNat ≤ 0x1C ∧
        commandLength (q.headD 0) ≤ q.tail.length + 1) := by decide
/-- One reserved bit of each format (30_encoding.md R81), with room for two response words. -/
theorem witness_ReservedBitsAreRefused :
    (∀ x ∈ ([(.audio, 0x00000001), (.audio, 0x01010200), (.audio, 0x04130004), (.ctrl, 0x16038000), (.ctrl, 0x1A800000)] :
        List (Port × Word)),
      (opcField x.2).toNat ∈ portOpcodes x.1 ∧ x.2 &&& reservedMaskOf (opcField x.2).toNat ≠ 0 ∧
        commandLength x.2 ≤ [(0 : Word), 0].length + 1 ∧ (queued x.1 [x.2, 0, 0] State.reset).hasRoom x.1 (responseWords x.1 x.2) = true) := by
  decide
/-- 95_test_vectors.md 9.3: every code is some command's first failing check, and a command can pass them all. -/
theorem witness_CheckOrderDecidesTheOutcome :
    [checkCode State.reset .audio 0x05000000 [], checkCode State.reset .ctrl 0x01000200 [0, 0x40E77000],
      checkCode State.reset .audio 0x04130004 [], checkCode State.reset .ctrl 0x14020000 [], checkCode State.reset .audio 0x04030004 [],
      checkCode State.reset .audio 0x04010004 [], checkCode ready .audio 0x04010201 [], checkCode State.reset .audio 0x01000200 [0, 0],
      checkCode ready .audio 0x04010200 [], checkCode State.reset .ctrl 0x1A000000 []] = [1, 8, 2, 3, 5, 4, 6, 7, 0, 0] ∧
    (queued .ctrl [0x1A000000] State.reset).hasRoom .ctrl (responseWords .ctrl 0x1A000000) = true ∧
    commandLength 0x01000200 ≤ [(0 : Word), 0].length + 1 := by decide +kernel
theorem witness_ErrorChangesOnlyItsRecord : checkError (.getp 7) State.reset = some .badSelector := by decide
/-- A bit that rises by an error, one that falls by CLRERR, one that falls by the reset pin. -/
theorem witness_StickyBitsRiseByErrorsAndFallTogether :
    (∃ t, step (queued .ctrl [0x05000000] State.reset) = .next t ∧ State.reset.sticky[1] = false ∧ t.sticky[1] = true) ∧
    (∃ t, step (queued .ctrl [0x1B000000] { State.reset with sticky := 0x0100 }) = .next t ∧ t.sticky[8] = false) ∧
    (∃ t, step { State.reset with sticky := 0x0002, env := ⟨[.host], [.rst], 0, 0⟩ } = .next t ∧ t.sticky[1] = false) := by
  refine ⟨⟨_, rfl, by decide, by decide⟩, ⟨_, rfl, by decide⟩, ⟨_, rfl, by decide⟩⟩
theorem witness_CommandsBeforeInit :
    State.reset.audio.initf = false ∧ (Instr.proc 1 0).wellFormed = true ∧ (Instr.issmooth 6).wellFormed = true ∧
      initArgsBad State.reset.cfg 1 0x4107700000000000 = false ∧ (Instr.setp 0 0x7FC00000).wellFormed = true := by decide +kernel
theorem witness_SettersNeverBlock :
    ∃ t, ctrlStep (queued .ctrl [0x16030000] (flying (.proc .mono 4) [] ready)) = some (.next t) := ⟨_, rfl⟩
theorem witness_AudioStepsLeaveCtrlStateAlone :
    (∃ t, audioStep (queued .audio [0x02000000] ready) = some (.next t)) ∧
      ∃ t, frameStep (flying (.mproc 1) [one32] ready) = some t :=
  ⟨⟨_, rfl⟩, Option.isSome_iff_exists.1 (by decide +kernel)⟩
theorem witness_OnlyTheHostEnables :
    (ctrlStep (queued .audio [0] ready) = none ∧ ∃ t, audioStep (queued .audio [0] ready) = some (.next t)) ∧
      (audioStep (queued .ctrl [0] ready) = none ∧ ∃ t, ctrlStep (queued .ctrl [0] ready) = some (.next t)) :=
  ⟨⟨rfl, _, rfl⟩, ⟨rfl, _, rfl⟩⟩
theorem witness_FramesWaitForTheirWords :
    (flying (.proc .stereo 1) [0] ready).audio.inflight = some (.proc .stereo 1) ∧
      (flying (.mproc 1) [] ready).audio.inflight = some (.mproc 1) ∧
      (let s : State := { ready with env := ⟨[.audio], [], 0, 0⟩ };
        s.env.sched = [.audio] ∧ agentStep .audio { s with env := { s.env with sched := [] } } = none) := ⟨rfl, rfl, rfl, rfl⟩
theorem witness_FramesIgnoreLaterControlWrites : checkError (.proc 2 512) ready = none ∧ (512 : BitVec 16) ≠ 0 := by decide
/-- Each register changes somewhere, and the block leaves its initialised state somewhere. -/
theorem witness_WritersOfPresetBypassAndInit :
    (run (.setp 4 0x3DCCCCCD) State.reset).ctrl.preset ≠ State.reset.ctrl.preset ∧
      (run (.setpre 3) State.reset).ctrl.pt ≠ State.reset.ctrl.pt ∧ (run (.setbyp 1) State.reset).ctrl.bypass ≠ State.reset.ctrl.bypass ∧
      (let s : State := { ready with env := ⟨[.host], [.rst], 0, 0⟩ };
        s.audio.initf = true ∧ (after (step s)).audio.initf = false) := by decide +kernel
/-- The largest legal sample rate and block size. -/
theorem witness_InitConfiguresTheBlock :
    isFinite64 0x4107700000000000 = true ∧ lt64 zero64 0x4107700000000000 = true ∧
      le64 0x4107700000000000 State.reset.cfg.fsMax = true ∧ (0xFFFF : BitVec 16) ≠ 0 := by decide +kernel
/-- NaN, zero, 192000.5, block size 0. -/
theorem witness_FailedInitChangesOnlyItsRecord :
    isFinite64 0x7FF8000000000000 = false ∧ lt64 zero64 0x0000000000000000 = false ∧
      le64 0x4107700400000000 State.reset.cfg.fsMax = false ∧ (0 : BitVec 16) = 0 := by decide +kernel
theorem witness_ResetAndClearRestartTheAudioState : ready.audio.initf = true := rfl
/-- Both channel counts; no frames and the largest block. -/
theorem witness_ProcLatchesTheTargets :
    ready.audio.initf = true ∧ (1 : BitVec 4).toNat = 1 ∧ (2 : BitVec 4).toNat = 2 ∧ (0 : BitVec 16) ≤ ready.audio.maxblk ∧
      (512 : BitVec 16) ≤ ready.audio.maxblk := by decide
theorem witness_ModulatedDelayCommands : ready.audio.initf = true ∧ (512 : BitVec 16) ≤ ready.audio.maxblk := by decide
/-- The first and the last selector, and the one with the exponential mapping. -/
theorem witness_SettersStoreClampedTargets :
    paramOfSel 0 = some .wetDryMix ∧ paramOfSel 1 = some .decayTime ∧ paramOfSel 6 = some .highFreqDamping := by decide
theorem witness_GettersAnswerTheTargets :
    paramOfSel 0 = some .wetDryMix ∧ paramOfSel 1 = some .decayTime ∧ paramOfSel 6 = some .highFreqDamping := by decide
theorem witness_BypassCommands : (0 : BitVec 4).toNat ≤ 1 ∧ (1 : BitVec 4).toNat ≤ 1 := by decide
theorem witness_PresetCommands : presetOfSel 0 = some .clean ∧ presetOfSel 4 = some .custom := by decide
theorem witness_IssmoothComparesWithTheHostTarget :
    paramOfSel 0 = some .wetDryMix ∧ paramOfSel 6 = some .highFreqDamping ∧ ready.audio.initf = true := by decide
/-- A tie (three halves of the spacing at `2^24`), in the larger of its two neighbours' favour; the last value that stays finite and the
first that does not; finite operands of either sign, the largest ones and a divisor that is not zero; the largest exact
integers; the largest fraction and the largest encoding; the subnormals next to a zero and next to the normal numbers. -/
theorem witness_RoundingIsToNearestTiesToEven :
    (0 < 1 ∧ fmt32.roundMag (16777219 * fmt32.one) 1 < fmt32.infEnc ∧ 0x4B800001 < fmt32.infEnc ∧
      fmt32.roundMag (16777219 * fmt32.one) 1 = 0x4B800002) ∧
    (let limit := fmt32.magOf (fmt32.infEnc - 1) + fmt32.magOf fmt32.infEnc;
      2 * (limit / 2 - 1) < limit * 1 ∧ limit * 1 ≤ 2 * (limit / 2)) ∧
    (fmt32.unpack (0x80000000 : F32).toNat = .fin true 0 ∧ fmt32.unpack (0x7F7FFFFF : F32).toNat = .fin false ((2 ^ 24 - 1) * 2 ^ 253) ∧
      (2 ^ 24 - 1) * 2 ^ 253 ≠ 0) ∧
    (fmt64.unpack (0x8000000000000000 : F64).toNat = .fin true 0 ∧
      fmt64.unpack (0x7FEFFFFFFFFFFFFF : F64).toNat = .fin false ((2 ^ 53 - 1) * 2 ^ 2045) ∧ (2 ^ 53 - 1) * 2 ^ 2045 ≠ 0) ∧
    (2 ^ 24 - 1 < 2 ^ 24 ∧ (1 - 2 ^ 53 : Int).natAbs < 2 ^ 53 ∧ 2 ^ 23 - 1 < 2 ^ fmt32.frac ∧ 0x7F7FFFFF ≤ fmt32.infEnc ∧ 0x7F800000 = fmt32.infEnc) ∧
    (isSubnormal32 0x00000001 = true ∧ isSubnormal32 0x807FFFFF = true ∧ isSubnormal32 0x80800000 = false) ∧
    isSubnormal64 0x8000000000000001 = true ∧ isSubnormal64 0x000FFFFFFFFFFFFF = true ∧ isSubnormal64 0x0010000000000000 = false := by
  decide +kernel
/-- Finite operands that are equal (the two zeros), an infinity, NaNs of either sign; one operand for each clause of the clamp, at its
boundary. -/
theorem witness_ClampFollowsItsLaw :
    (fmt32.unpack (zero32 : F32).toNat = .fin false 0 ∧ fmt32.unpack (0x80000000 : F32).toNat = .fin true 0 ∧
      fmt64.unpack (zero64 : F64).toNat = .fin false 0 ∧ fmt64.unpack (0x8000000000000000 : F64).toNat = .fin true 0 ∧
      isNaN32 0xFF800000 = false ∧ isNaN32 0xFF800001 = true ∧ isNaN64 0x7FF0000000000001 = true) ∧
    isNaN32 zero32 = false ∧ isNaN32 one32 = false ∧ isNaN32 0x7F800001 = true ∧ le32 one32 zero32 = false ∧
      le32 zero32 one32 = true ∧ isNaN32 0x80000001 = false ∧ le32 zero32 0x80000001 = false ∧ isNaN32 0x3F800001 = false ∧
      le32 0x3F800001 one32 = false ∧ le32 zero32 0x80000000 = true ∧ le32 0x80000000 one32 = true := by decide +kernel
theorem witness_CellReadsGiveTheLastWrite :
    CellMem.wf 8 [(0, one32), (7, 0x80000000)] = true ∧ 7 < 8 ∧ CellMem.wf 8 [] = true ∧
      (∀ k, cellRead [] k = cellRead [] k) := ⟨by decide, by decide, rfl, fun _ => rfl⟩
/-- The smallest capacity, and one operand for each clause. -/
theorem witness_DelaysAreClampedIntoRange :
    2 ≤ 2 ∧ isNaN32 0x7FC00000 = true ∧ le32 one32 0x3F7FFFFF = false ∧ isNaN32 0x3F800001 = false ∧
      le32 0x3F800001 (float32 (2 - 1)) = false ∧ le32 one32 one32 = true ∧ le32 one32 (float32 (2 - 1)) = true := by decide +kernel
/-- The smallest and the largest delay of a line of eight cells. -/
theorem witness_ProcessIsPeekThenPush :
    (8 : Nat) ≤ 2 ^ 24 ∧ 7 < 8 ∧ le32 one32 one32 = true ∧ le32 one32 (float32 (8 - 1)) = true ∧
      le32 one32 0x40E00000 = true ∧ le32 0x40E00000 (float32 (8 - 1)) = true := by decide +kernel
/-- The smallest and the largest delay of a line of eight cells, with as many pushes as each clause allows; the smallest fractional delay
and the largest, whose taps weight two cells. -/
theorem witness_IntegerDelayIsPure :
    (8 : Nat) ≤ 2 ^ 24 ∧ 1 ≤ 1 ∧ 7 ≤ 8 - 1 ∧ one32 = float32 1 ∧ (0x40E00000 : F32) = float32 7 ∧ 7 < 8 ∧
      CellMem.wf 8 [(7, one32)] = true ∧ ([] : List F32).length + 1 = 1 ∧ (List.replicate 6 one32).length + 1 = 7 ∧
      (List.replicate 6 one32).length < 7 ∧
      (le32 one32 0x3F800001 = true ∧ le32 0x3F800001 (float32 (8 - 1)) = true ∧ ([] : List F32).length + 2 = (ceil32 0x3F800001).toNat ∧
        eq32 (sub32 (float32 2) 0x3F800001) zero32 = false) ∧
      le32 one32 0x40DFFFFF = true ∧ le32 0x40DFFFFF (float32 (8 - 1)) = true ∧
      (List.replicate 5 one32).length + 2 = (ceil32 0x40DFFFFF).toNat ∧ eq32 (sub32 (float32 7) 0x40DFFFFF) zero32 = false := by
  decide +kernel
theorem witness_AllPassSubtractionForm :
    let l : DelayLine := ⟨8, [(6, one32)], 0, 0x40000000⟩
    isNaN32 (sub32 (dlPeek 8 l) (mul32 0x3F000000 one32)) = false ∧ CellMem.wf 8 l.cells = true := by decide +kernel
/-- NaN and -0.0, 1.0 and +infinity; the smallest normal state; a large input. -/
theorem witness_DampingAtItsCorners :
    isNaN32 0xFFC00000 = true ∧ le32 0x80000000 zero32 = true ∧ le32 one32 one32 = true ∧ le32 one32 0x7F800000 = true ∧
      isFinite32 0x00800000 = true ∧ isFinite32 0x7F7FFFFF = true ∧ isSubnormal32 0x00800000 = false ∧
      (0x00800000 : F32) ≠ zero32 ∧ (0x00800000 : F32) ≠ 0x80000000 := by decide +kernel
/-- The negative number next to 0; an empty range (room 0), a scaled value below 100 under a bound above it, one inside its bounds, one above the bound. -/
theorem witness_LengthsLieBetweenTheirBounds :
    fmt64.unpack (0x8000000000000001 : F64).toNat = .fin true 1 ∧
    let hi : F64 → F32 → Int := fun fs room => floor64 (mul64 (mul64 fs 0x3FB47AE147AE147B) (f64 room))
    let a : Nat → F32 → Int := fun prime room => floor64 (mul64 (float64 prime) (f64 room))
    hi 0x40E7700000000000 zero32 ≤ 100 ∧
      (a 1009 0x3DBB883D ≤ 100 ∧ 100 < hi 0x40E7700000000000 0x3DBB883D) ∧
      (100 ≤ a 1009 0x3F000000 ∧ a 1009 0x3F000000 ≤ hi 0x40E7700000000000 0x3F000000) ∧
      100 ≤ hi 0x40CF400000000000 0x3F000000 ∧ hi 0x40CF400000000000 0x3F000000 ≤ a 1301 0x3F000000 := by decide +kernel
/-- A row of finite entries without zeros; a NaN in the last line output. -/
theorem witness_NaNReachesEveryMatrixOutput :
    ((∀ k : Fin 8, isFinite32 (matScale one32)[(0 : Fin 8)][k] = true) ∧ (matScale one32)[(0 : Fin 8)][(7 : Fin 8)] ≠ zero32 ∧
        (matScale one32)[(0 : Fin 8)][(7 : Fin 8)] ≠ 0x80000000) ∧
      isNaN32 (#v[0, 0, 0, 0, 0, 0, 0, 0x7FC00000] : Vector F32 8)[(7 : Fin 8)] = true := by decide +kernel
theorem witness_NaNStateStays :
    let r := { ready.reverb with z := #v[0, 0x7FC00000, 0, 0, 0, 0, 0, 0] }
    isNaN32 r.z[(1 : Fin 8)] = true := by decide
/-- The first of two stereo frames, and the last mono frame. -/
theorem witness_ProcessedFrameStoresAtTheCursors :
    (∃ t, frameStep (flying (.proc .stereo (1 + 1)) [one32, zero32] ready) = some t) ∧
      (∃ t, frameStep (flying (.proc .mono (0 + 1)) [one32] ready) = some t) ∧ ready.reverb.bypL = false :=
  ⟨Option.isSome_iff_exists.1 (by decide +kernel), Option.isSome_iff_exists.1 (by decide +kernel), rfl⟩
theorem witness_ModulatedFrameStoresAtItsCursor : ∃ t, frameStep (flying (.mproc (0 + 1)) [one32] ready) = some t :=
  Option.isSome_iff_exists.1 (by decide +kernel)
/-- No frame, and two of three frames. -/
theorem witness_BypassedFramesCopyTheirWords :
    let s := flying (.proc .mono (1 + 2)) [1, 2, 3] { ready with reverb := { ready.reverb with bypL := true } }
    s.reverb.bypL = true ∧ (∃ t, framesAfter 2 s = some t) ∧ ∃ t, framesAfter 0 s = some t :=
  ⟨rfl, Option.isSome_iff_exists.1 (by decide +kernel), _, rfl⟩
/-- Both channel counts, an empty part, and a block of the largest size. -/
theorem witness_BlocksSplitAnywhere :
    (0 : BitVec 16).toNat + (512 : BitVec 16).toNat < 2 ^ 16 ∧ ready.audio.initf = true ∧ (1 : BitVec 4).toNat = 1 ∧
      (2 : BitVec 4).toNat = 2 ∧ (0 : BitVec 16).toNat + (512 : BitVec 16).toNat ≤ ready.audio.maxblk.toNat := by decide
theorem witness_CrossFeedReachesNoOutput :
    framesAfter 1 (flying (.proc .mono 1) [] ready) = none ∧ ∃ t, framesAfter 1 (flying (.proc .mono 1) [one32] ready) = some t :=
  ⟨rfl, Option.isSome_iff_exists.1 (by decide +kernel)⟩
theorem witness_ModulatedUnitIsNotInThePath :
    (flying (.proc .mono (1 + 1)) [one32] ready).audio.inflight = some (.proc .mono (1 + 1)) ∧
      (flying (.mproc (0 + 1)) [one32] ready).audio.inflight = some (.mproc (0 + 1)) := ⟨rfl, rfl⟩
/-- An infinite input with a finite wet signal, and a finite input with a subnormal wet signal. -/
theorem witness_MixAtItsEnds :
    isNaN32 0x7F800000 = false ∧ (0x7F800000 : F32) ≠ 0x80000000 ∧ isFinite32 0x7F7FFFFF = true ∧ isFinite32 0xFF7FFFFF = true ∧
      isNaN32 0x00000001 = false ∧ (0x00000001 : F32) ≠ zero32 ∧ (0x00000001 : F32) ≠ 0x80000000 := by decide +kernel
/-- The reference parameters are legal (00_scope.md R6, 47_engine_facade.md R266). -/
theorem reference_paramsOk : ParamsOk Params.reference where
  depth := by decide
  apLen := by decide
  fsMaxFinite := by decide +kernel
  fsMaxCap := by decide +kernel
  poweron := by decide
  rows := by
    have h : ∀ c ∈ [Preset.clean, .vocalBooth, .studio, .cathedral, .custom], ∀ row ∈ (PresetTable.reference.row? c).toList,
        ∀ p ∈ [Param.wetDryMix, .decayTime, .preDelay, .crossFeed, .roomSize, .density, .highFreqDamping],
          inRange p (row.get p) = true := by decide +kernel
    exact fun c row hr p => h c (by cases c <;> decide) row (by simpa [Params.reference] using hr) p (by cases p <;> decide)
/-- A state with a queued command before INIT; the same parameters but for `SMOOTH_TIME` 0, so that INIT sets a coefficient of 1.0. -/
def uninitialised : State :=
  queued .ctrl [0x14010000] { State.reset with cfg := { State.reset.cfg with smoothTime := zero64 } }
theorem uninitialised_inv : Inv uninitialised := by
  refine ⟨⟨reference_paramsOk.1, reference_paramsOk.2, reference_paramsOk.3, reference_paramsOk.4, reference_paramsOk.5,
    reference_paramsOk.6⟩, fun p => by cases p <;> decide +kernel, nofun, ⟨by decide, by decide, rfl, fun l hl => ?_⟩, nofun,
    ⟨by decide, by decide, by decide, rfl, nofun⟩, ?_, ?_, ?_⟩
  · obtain rfl : l = DelayLine.powerOn := by
      simpa [State.lines, uninitialised, queued, State.setCommands, State.reset, State.powerOn, Params.reference] using hl
    exact LineOk.powerOn
  · constructor <;> decide
  · constructor <;> decide +kernel
  · exact ⟨fun i => by revert i; decide +kernel, fun p => by cases p <;> decide +kernel⟩
/-- A state that meets the invariant and takes a next state, before INIT and after it; after it the smoothers' conditions hold. -/
theorem witness_StepKeepsTheInvariant :
    (Inv uninitialised ∧ ∃ t, step uninitialised = .next t) ∧
      let s := commandEffect (.init 512 0x4020000000000000) uninitialised
      Inv s ∧ (∃ t, step s = .next t) ∧ s.audio.initf = true ∧ le64 zero64 s.audio.k = true ∧ le64 s.audio.k one64 = true := by
  refine ⟨⟨uninitialised_inv, _, rfl⟩, inv_commandEffect uninitialised_inv (by decide +kernel) (by decide +kernel) fun _ => rfl,
    ⟨_, rfl⟩, rfl, by decide +kernel, by decide +kernel⟩
/-- A state initialised by INIT meets the first hypothesis; a value equal and a value unequal to the ones in use. -/
theorem witness_LengthsAndMatrixFollowTheirParameters :
    (let s := queued .ctrl [0] (run (.init 512 0x4020000000000000) State.reset);
      MatrixCoherent s ∧ s.audio.initf = true ∧ ∃ t, step s = .next t) ∧
      eq32 0x80000000 zero32 = true ∧ eq32 one32 zero32 = false := by
  refine ⟨⟨fun _ => ⟨rfl, rfl, rfl⟩, rfl, _, rfl⟩, by decide +kernel, by decide +kernel⟩
theorem witness_ResetPinGivesPowerOnValues :
    let s : State := { ready with env := ⟨[.host], [.rst], 0, 0⟩ }
    s.env.host = .rst :: [] ∧ s.env.sched = .host :: [] := ⟨rfl, rfl⟩
/-- A finished run, one finished with only a blocked pop left to the host, one stuck on half a command, one with a push behind a
blocked pop, and one that goes on. -/
theorem witness_RunsEndFinishedOrStuck :
    State.reset.env.sched = [] ∧ step State.reset = .fault .finished ∧
      step { State.reset with env := ⟨[], [.popOut], 0, 0⟩ } = .fault .finished ∧
      step { State.reset with ports := { State.reset.ports with aport := [0x01000200] } } = .fault .stuck ∧
      step { State.reset with env := ⟨[], [.popOut, .pushIn 0], 0, 0⟩ } = .fault .stuck ∧
      ∃ t, step { State.reset with ports := { State.reset.ports with aport := [0] } } = .next t :=
  ⟨rfl, rfl, rfl, rfl, rfl, _, rfl⟩

end Sys2Proof.Tests
end

section
/-! PROOFS. The family `30_encoding.md`: the three ways in which a command is refused by the decoder (R88 to R90, R92), each as one rule of
the command step. -/

namespace Sys2Proof

/-! ### The opcode table by OPC value (R87, R89) -/

/-- An OPC value names no opcode exactly where no port lists it (R89, R92). -/
theorem Opcode.ofByte_eq_none_iff (b : BitVec 8) :
    Opcode.ofByte b = none ↔ b.toNat ∉ Machine.portOpcodes .audio ∧ b.toNat ∉ Machine.portOpcodes .ctrl := by
  unfold Opcode.ofByte
  split <;> simp_all [Machine.portOpcodes]

/-- The port column of R87 agrees with the lists of opcodes by port. -/
theorem Opcode.validOn_iff_mem_portOpcodes (op : Opcode) (p : Port) :
    op.validOn p = true ↔ op.byte.toNat ∈ Machine.portOpcodes p := by
  cases p <;> cases op <;> decide

/-- The format column of R87 agrees with the masks by OPC value (R81). -/
theorem Opcode.reservedMaskOf_byte (op : Opcode) : Machine.reservedMaskOf op.byte.toNat = op.format.reservedMask := by
  cases op <;> rfl

/-- An OPC value that some port lists names an opcode, and the opcode is valid on just the ports that list the value. -/
theorem Opcode.exists_ofByte_of_mem_portOpcodes {b : BitVec 8} {q : Port} (h : b.toNat ∈ Machine.portOpcodes q) :
    ∃ op, Opcode.ofByte b = some op ∧ Machine.reservedMaskOf b.toNat = op.format.reservedMask ∧
      ∀ p, op.validOn p = true ↔ b.toNat ∈ Machine.portOpcodes p := by
  cases hop : Opcode.ofByte b with
  | none =>
    obtain ⟨ha, hc⟩ := (Opcode.ofByte_eq_none_iff b).1 hop
    cases q
    · exact absurd h ha
    · exact absurd h hc
  | some op =>
    obtain rfl := byte_of_ofByte hop
    exact ⟨op, rfl, op.reservedMaskOf_byte, op.validOn_iff_mem_portOpcodes⟩

theorem commandLength_of_ofByte {w : Word} {op : Opcode} (h : Opcode.ofByte (opcField w) = some op) :
    commandLength w = 1 + op.payload := by simp [commandLength, h]

/-- NOP is one word and is valid on both ports (R88). -/
theorem decode_nop (p : Port) (rest : List Word) : decode p (0x00000000 :: rest) = .command (.nop p) rest := by
  cases p <;> rfl

end Sys2Proof

namespace Sys2Proof.Machine

/-! ### The command step on a refused command (R250, R302) -/

theorem commandStep_of_fetch_rejected {p : Port} {s t : State} {r : Reject} (h : fetch p s = some (.rejected r t)) :
    commandStep p s = some (.next (t.endWithError p (Reject.err r) (Reject.resp r))) := by
  simp only [commandStep, h, endRejected]

variable {p : Port} {s : State} {w : Word} {rest : List Word}

/-- The check (1) of R301. -/
theorem commandStep_illegalOpcode (hq : s.commands p = w :: rest) (hop : Opcode.ofByte (opcField w) = none) :
    commandStep p s = some (.next ((s.setCommands p rest).endWithError p .illegalOpcode 0)) :=
  commandStep_of_fetch_rejected (r := .illegalOpcode) (by rw [fetch_cons hq, hop])

/-- The check (2) of R301, which asks for no room (log entry 11). -/
theorem commandStep_wrongPort {op : Opcode} (hq : s.commands p = w :: rest) (hop : Opcode.ofByte (opcField w) = some op)
    (hlen : op.payload ≤ rest.length) (hv : op.validOn p = false) :
    commandStep p s = some (.next ((s.setCommands p (rest.drop op.payload)).endWithError p .wrongPort 0)) :=
  commandStep_of_fetch_rejected (r := .wrongPort) (by simp [fetch_cons hq, hop, hlen, hv])

/-- The check (3) of R301. -/
theorem commandStep_reservedBits {op : Opcode} (hq : s.commands p = w :: rest) (hop : Opcode.ofByte (opcField w) = some op)
    (hlen : op.payload ≤ rest.length) (hv : op.validOn p = true) (hroom : s.hasRoom p op.resp = true)
    (hw : w &&& op.format.reservedMask ≠ 0) :
    commandStep p s = some (.next ((s.setCommands p (rest.drop op.payload)).endWithError p .reservedBits op.resp)) :=
  commandStep_of_fetch_rejected (r := .reservedBits op.resp) (by simpa [fetch_cons hq, hop, hlen, hv, hroom] using hw)

end Sys2Proof.Machine

namespace Sys2Proof.Proofs
open Sys2Proof Sys2Proof.Machine

/-- Settles O8: the three ranges are the OPC values that no port lists. -/
theorem unassignedOpcodeIsIllegal : Obligations.UnassignedOpcodeIsIllegal := by
  intro p s w rest hq hrange
  refine commandStep_illegalOpcode hq ((Opcode.ofByte_eq_none_iff _).2 ?_)
  simp only [portOpcodes, List.mem_cons, List.not_mem_nil, or_false] at hrange ⊢
  omega

/-- Settles O9: the values of each case are the other port's list without NOP, which both ports list. -/
theorem otherPortsOpcodeIsWrongPort : Obligations.OtherPortsOpcodeIsWrongPort := by
  refine ⟨decode_nop, fun p s w rest hq hother hlen => ?_⟩
  have hlists : (∃ q, (opcField w).toNat ∈ portOpcodes q) ∧ (opcField w).toNat ∉ portOpcodes p := by
    rcases hother with ⟨rfl, hopc⟩ | ⟨rfl, hlo, hhi⟩
    · refine ⟨⟨.audio, List.mem_cons_of_mem _ hopc⟩, ?_⟩
      simp only [portOpcodes, List.mem_cons, List.not_mem_nil, or_false] at hopc ⊢
      omega
    · refine ⟨⟨.ctrl, ?_⟩, ?_⟩ <;> simp only [portOpcodes, List.mem_cons, List.not_mem_nil, or_false] <;> omega
  obtain ⟨⟨q, hmem⟩, hnot⟩ := hlists
  obtain ⟨op, hop, -, hvalid⟩ := Opcode.exists_ofByte_of_mem_portOpcodes hmem
  rw [commandLength_of_ofByte hop] at hlen ⊢
  rw [Nat.add_sub_cancel_left]
  exact commandStep_wrongPort hq hop (by omega) (by simpa using mt (hvalid p).1 hnot)

/-- Settles O10. -/
theorem reservedBitsAreRefused : Obligations.ReservedBitsAreRefused := by
  intro p s w rest hq hmem hw hlen hroom
  obtain ⟨op, hop, hmask, hvalid⟩ := Opcode.exists_ofByte_of_mem_portOpcodes hmem
  have hv : op.validOn p = true := (hvalid p).2 hmem
  have hresp : responseWords p w = op.resp := by simp [responseWords, hop, hv]
  rw [commandLength_of_ofByte hop] at hlen ⊢
  rw [hresp] at hroom ⊢
  rw [Nat.add_sub_cancel_left]
  exact commandStep_reservedBits hq hop (by omega) hv hroom (hmask ▸ hw)

end Sys2Proof.Proofs
end

section
/-! PROOFS. The family `40_delay_line.md`: the tap of a legal line and its write do not meet (R118). -/

namespace Sys2Proof.Machine

/-- R114 in terms of R116: PROCESS leaves what PUSH leaves and taps the line after the write. -/
theorem dlProcess_eq (cap : Nat) (l : DelayLine) (x : F32) :
    dlProcess cap l x = (dlPush cap l x, dlTap cap (dlStore l x)) := rfl

end Sys2Proof.Machine

namespace Sys2Proof.Proofs
open Sys2Proof Sys2Proof.Machine

/-- Settles O38: PROCESS taps after its write and PEEK before PUSH's, and the tap of a legal line never reads the written cell. -/
theorem processIsPeekThenPush : Obligations.ProcessIsPeekThenPush := by
  intro cap l x hcap hw hlo hhi
  have htap : dlTap cap (dlStore l x) = dlPeek cap l := dlTap_dlStore hcap hw hlo hhi x
  rw [dlProcess_eq, htap]

end Sys2Proof.Proofs
end

section
/-! PROOFS. The family `43_fdn_core.md`: a block may be cut between any two of its frames (R166). -/

namespace Sys2Proof.Machine

/-! ### Frame steps and the count of the frames that remain (R253) -/

theorem framesAfter_add (m n : Nat) (s : State) : framesAfter (m + n) s = (framesAfter m s).bind (framesAfter n) := by
  induction m generalizing s with
  | zero => rw [Nat.zero_add]; rfl
  | succ m ih =>
    rw [Nat.succ_add]
    simp only [framesAfter, ih, Option.bind_assoc]

theorem launch_eq_retire {f : Nat → InFlight} {n : Nat} (h : n ≠ 0) (s : State) : launch (f n) s = retire f n s := by
  simp [launch, retire, h]

/-- A frame step is the same whatever the count of frames that remain, but for that count. -/
theorem frameStep_retire (ch : Channels) (n : Nat) (s : State) :
    frameStep (retire (.proc ch) (n + 1) s) = (procFrameStep ch 1 s).map (retire (.proc ch) n) := by
  have hstep : frameStep (retire (.proc ch) (n + 1) s) = procFrameStep ch (n + 1) (retire (.proc ch) (n + 1) s) := rfl
  rw [hstep]
  unfold procFrameStep
  rw [retire_ports, retire_cfg]
  split
  · rfl
  · split <;> rfl

/-- Frames of a longer block leave what the same frames leave as a block of their own, but for the count. -/
theorem framesAfter_retire_add (ch : Channels) (m n : Nat) (s : State) :
    framesAfter m (retire (.proc ch) (m + n) s) = (framesAfter m (retire (.proc ch) m s)).map (retire (.proc ch) n) := by
  induction m generalizing s with
  | zero => rw [Nat.zero_add]; rfl
  | succ m ih =>
    rw [Nat.succ_add]
    simp only [framesAfter, frameStep_retire]
    cases procFrameStep ch 1 s with
    | none => rfl
    | some t => exact ih t

/-- A block run to its end leaves no command in flight. -/
theorem retire_zero_of_framesAfter {ch : Channels} {n : Nat} {s t : State}
    (h : framesAfter n (retire (.proc ch) n s) = some t) : retire (.proc ch) 0 t = t := by
  have hend := framesAfter_retire_add ch n 0 s
  rw [Nat.add_zero, h] at hend
  exact (Option.some.inj hend).symm

/-! ### What a second PROC finds after the frames of a first (R253) -/

/-- A state in which a PROC of up to `n` frames passes its checks and its latch changes nothing. -/
structure Latched (n : BitVec 16) (s : State) : Prop where
  initf : s.audio.initf = true
  maxblk : n ≤ s.audio.maxblk
  lasterrA : s.audio.lasterrA = 0
  st : s.reverb.st = s.ctrl.pt
  bypL : s.reverb.bypL = s.ctrl.bypass

theorem latched_latchTargets {n : BitVec 16} {s : State} (hinit : s.audio.initf = true) (hmax : n ≤ s.audio.maxblk) :
    Latched n (latchTargets (s.setLasterr .audio 0)) :=
  ⟨hinit, hmax, rfl, rfl, rfl⟩

theorem Latched.latchTargets_eq {n : BitVec 16} {s : State} (h : Latched n s) : latchTargets (s.setLasterr .audio 0) = s := by
  obtain ⟨-, -, herr, hst, hbyp⟩ := h
  simp [latchTargets, State.setLasterr, ← herr, ← hst, ← hbyp]

theorem Latched.setLasterr_eq {n : BitVec 16} {s : State} (h : Latched n s) : s.setLasterr .audio 0 = s := by
  simp [State.setLasterr, ← h.lasterrA]

theorem Latched.keptByRetire {n : BitVec 16} {s : State} (h : Latched n s) (f : Nat → InFlight) (m : Nat) :
    Latched n (retire f m s) :=
  ⟨h.initf, h.maxblk, h.lasterrA, h.st, h.bypL⟩

theorem pathFrame_kept (s : State) (x : Frame) :
    (pathFrame s x).1.st = s.reverb.st ∧ (pathFrame s x).1.bypL = s.reverb.bypL := by
  unfold pathFrame
  split
  · exact ⟨rfl, rfl⟩
  · have h := fdnFrame_processed s.cfg s.audio.fs s.audio.cap s.audio.k s.reverb x
    exact ⟨h.st, h.bypL⟩

theorem Latched.keptByFrameStep {n : BitVec 16} {s t : State} (h : Latched n s) (hf : frameStep s = some t) : Latched n t := by
  rcases frameStep_cases hf with ⟨ch, m, x, rest, -, -, -, rfl⟩ | ⟨m, x, rest, -, -, -, rfl⟩
  · obtain ⟨hst, hbyp⟩ := pathFrame_kept s x
    exact ⟨h.initf, h.maxblk, h.lasterrA, hst.trans h.st, hbyp.trans h.bypL⟩
  · exact ⟨h.initf, h.maxblk, h.lasterrA, h.st, h.bypL⟩

theorem Latched.keptByFrames {n : BitVec 16} {k : Nat} {s t : State} (h : Latched n s) (hf : framesAfter k s = some t) :
    Latched n t := by
  induction k generalizing s with
  | zero => exact Option.some.inj hf ▸ h
  | succ k ih =>
    obtain ⟨u, hu, ht⟩ := Option.bind_eq_some_iff.1 hf
    exact ih (h.keptByFrameStep hu) ht

/-! ### A whole block as its frames -/

section
variable {sel : BitVec 4} {ch : Channels} {n : BitVec 16} {s : State} (hch : channelsOfSel sel = some ch)
  (hinit : s.audio.initf = true) (hmax : n ≤ s.audio.maxblk)
include hch hinit hmax

theorem checkError_proc_eq_none : checkError (.proc sel n) s = none := by
  have hsel : Instr.wellFormed (.proc sel n) = true := by
    have h := channelsOfSel_isSome sel
    rw [hch] at h
    simpa [Instr.wellFormed] using h.symm
  simp only [checkError, orElse_eq_none]
  exact ⟨selectorError_eq_none.2 hsel, notInit_eq_none.2 hinit, tooLarge_eq_none.2 hmax⟩

theorem runBlock_proc (k : Nat) : runBlock (.proc sel n) k s = framesAfter k (if n = 0 then s.setLasterr .audio 0
    else launch (.proc ch n.toNat) (latchTargets (s.setLasterr .audio 0))) := by
  rw [runBlock, exec_of_ok (checkError_proc_eq_none hch hinit hmax)]
  simp only [commandEffect, hch]

/-- A PROC with a count is its frames from the latched state. -/
theorem runBlock_proc_of_ne_zero (hn : n ≠ 0) (k : Nat) : runBlock (.proc sel n) k s =
    framesAfter k (retire (.proc ch) n.toNat (latchTargets (s.setLasterr .audio 0))) := by
  have hn' : n.toNat ≠ 0 := fun h => hn (BitVec.eq_of_toNat_eq h)
  rw [runBlock_proc hch hinit hmax, if_neg hn, launch_eq_retire hn']

end

/-- A PROC without frames records its success and nothing else. -/
theorem runBlock_proc_zero {sel : BitVec 4} {ch : Channels} {s : State} (hch : channelsOfSel sel = some ch)
    (hinit : s.audio.initf = true) : runBlock (.proc sel 0) 0 s = some (s.setLasterr .audio 0) := by
  rw [runBlock_proc hch hinit (BitVec.le_def.2 (Nat.zero_le _)), if_pos rfl]
  rfl

/-- PROC records its success (R253), so a success recorded before it is not seen. -/
theorem runBlock_proc_setLasterr {sel : BitVec 4} {ch : Channels} {n : BitVec 16} {s : State} (hch : channelsOfSel sel = some ch)
    (hinit : s.audio.initf = true) (hmax : n ≤ s.audio.maxblk) (k : Nat) :
    runBlock (.proc sel n) k (s.setLasterr .audio 0) = runBlock (.proc sel n) k s := by
  rw [runBlock_proc hch hinit hmax, runBlock_proc (s := s.setLasterr .audio 0) hch hinit hmax]
  rfl

/-- A PROC right after another one's frames, of any count. -/
theorem Latched.runBlock_proc_eq {sel : BitVec 4} {ch : Channels} {n : BitVec 16} {s : State} (h : Latched n s)
    (hch : channelsOfSel sel = some ch) (hidle : retire (.proc ch) 0 s = s) :
    runBlock (.proc sel n) n.toNat s = framesAfter n.toNat (retire (.proc ch) n.toNat s) := by
  by_cases hn : n = 0
  · subst hn
    rw [show (0 : BitVec 16).toNat = 0 from rfl, runBlock_proc_zero hch h.initf, h.setLasterr_eq, hidle]
    rfl
  · rw [runBlock_proc_of_ne_zero hch h.initf h.maxblk hn, h.latchTargets_eq]

/-- Frames of one block are frames of a first block and then of a second PROC on what the first left. -/
theorem Latched.framesAfter_split {sel : BitVec 4} {ch : Channels} {n : BitVec 16} {s : State} (h : Latched n s)
    (hch : channelsOfSel sel = some ch) (m : Nat) :
    framesAfter (m + n.toNat) (retire (.proc ch) (m + n.toNat) s) =
      (framesAfter m (retire (.proc ch) m s)).bind (runBlock (.proc sel n) n.toNat) := by
  rw [framesAfter_add, framesAfter_retire_add]
  cases hm : framesAfter m (retire (.proc ch) m s) with
  | none => rfl
  | some t =>
    exact (((h.keptByRetire _ _).keptByFrames hm).runBlock_proc_eq hch (retire_zero_of_framesAfter hm)).symm

end Sys2Proof.Machine

namespace Sys2Proof.Proofs
open Sys2Proof Sys2Proof.Machine

/-- Settles O50: a first part without frames latches nothing and only records its success; after any other the second PROC finds latched
what it would latch. -/
theorem blocksSplitAnywhere : Obligations.BlocksSplitAnywhere := by
  intro s sel a b hsum hinit hsel hmax
  obtain ⟨ch, hch⟩ : ∃ ch, channelsOfSel sel = some ch :=
    Option.isSome_iff_exists.1 ((channelsOfSel_isSome sel).trans (decide_eq_true hsel))
  have hab : (a + b).toNat = a.toNat + b.toNat := BitVec.toNat_add_of_lt hsum
  have hle : ∀ n : BitVec 16, n.toNat ≤ a.toNat + b.toNat → n ≤ s.audio.maxblk := fun n hn => BitVec.le_def.2 (hn.trans hmax)
  have hb := hle b (Nat.le_add_left _ _)
  by_cases ha : a = 0
  · subst ha
    rw [zero_add, show (0 : BitVec 16).toNat = 0 from rfl, Nat.zero_add, runBlock_proc_zero hch hinit, Option.bind_some,
      runBlock_proc_setLasterr hch hinit hb]
  · have hne : a + b ≠ 0 := fun h => ha (BitVec.eq_of_toNat_eq (Nat.eq_zero_of_add_eq_zero_right (hab.symm.trans (congrArg _ h))))
    rw [runBlock_proc_of_ne_zero hch hinit (hle _ hab.le) hne, runBlock_proc_of_ne_zero hch hinit (hle _ (Nat.le_add_right _ _)) ha,
      hab, (latched_latchTargets hinit hb).framesAfter_split hch]

end Sys2Proof.Proofs
end

section
/-! PROOFS. The family `47_engine_facade.md`: when a command step is enabled and what a step of the CTRL executor leaves alone (R270), and
the frames of a bypassed block (R271). -/

namespace Sys2Proof.Machine

/-! ### When a command step is enabled (R250, R72) -/

theorem hasRoom_iff (s : State) (p : Port) (n : Nat) :
    s.hasRoom p n = true ↔ n = 0 ∨ (s.responses p).length + n ≤ s.cfg.qDepth := decide_eq_true_iff

/-- A command is taken from a queue exactly where the head word's length is there and its responses have room. -/
theorem fetch_isSome_of_cons {p : Port} {s : State} {w : Word} {rest : List Word} (hq : s.commands p = w :: rest) :
    (fetch p s).isSome = true ↔ commandLength w ≤ rest.length + 1 ∧ s.hasRoom p (responseWords p w) = true := by
  rw [fetch_cons hq, responseWords]
  cases hop : Opcode.ofByte (opcField w) with
  | none => simp [commandLength, hop, hasRoom_zero]
  | some op =>
    rw [commandLength_of_ofByte hop, Nat.add_comm 1, Nat.add_le_add_iff_right]
    cases hv : op.validOn p with
    | false => simp [hv, apply_ite Option.isSome, hasRoom_zero]
    | true => simp [hv, apply_ite Option.isSome]

/-- A queue from which a command is taken is not empty. -/
theorem fetch_isSome_iff (p : Port) (s : State) :
    (fetch p s).isSome = true ↔ ∃ w rest, s.commands p = w :: rest ∧ commandLength w ≤ (s.commands p).length ∧
      (responseWords p w = 0 ∨ (s.responses p).length + responseWords p w ≤ s.cfg.qDepth) := by
  cases hq : s.commands p with
  | nil => simp [fetch_nil hq]
  | cons w rest => simp [fetch_isSome_of_cons hq, hasRoom_iff]

theorem commandStep_isSome_eq_fetch (p : Port) (s : State) : (commandStep p s).isSome = (fetch p s).isSome := by
  unfold commandStep
  rcases fetch p s with _ | _ | _ <;> rfl

/-! ### What a step of the CTRL executor leaves alone (20_memory.md R66) -/

/-- All of the state that the CTRL executor does not own: two states agree on it. -/
structure AgreeOffCtrl (s t : State) : Prop where
  cfg : t.cfg = s.cfg
  audio : t.audio = s.audio
  reverb : t.reverb = s.reverb
  modu : t.modu = s.modu
  aport : t.ports.aport = s.ports.aport
  inq : t.ports.inq = s.ports.inq
  outq : t.ports.outq = s.ports.outq
  aresp : t.ports.aresp = s.ports.aresp
  sched : t.env.sched = s.env.sched
  host : t.env.host = s.env.host

/-- What R302 writes on the CTRL port is CTRL-owned. -/
theorem agreeOffCtrl_endWithError (s : State) (q : List Word) (e : ErrCode) (n : Nat) :
    AgreeOffCtrl s ((s.setCommands .ctrl q).endWithError .ctrl e n) := by
  constructor <;> simp

theorem agreeOffCtrl_commandEffect {i : Instr} (hp : i.port = .ctrl) (s : State) (q : List Word) :
    AgreeOffCtrl s (commandEffect i (s.setCommands .ctrl q)) := by
  obtain ⟨haudio, hreverb, hmodu, hports⟩ := commandEffect_ctrl hp (s.setCommands .ctrl q)
  obtain ⟨hsched, hhost⟩ := commandEffect_sched i (s.setCommands .ctrl q)
  exact ⟨commandEffect_cfg i _, haudio, hreverb, hmodu, by rw [hports]; rfl, by rw [hports]; rfl, by rw [hports]; rfl,
    by rw [hports]; rfl, hsched, hhost⟩

theorem agreeOffCtrl_ctrlStep {s t : State} (h : ctrlStep s = some (.next t)) : AgreeOffCtrl s t := by
  rcases commandStep_next h with ⟨i, q, -, -, hp, -, rfl⟩ | ⟨q, e, n, -, rfl, -⟩
  · exact agreeOffCtrl_commandEffect hp s q
  · exact agreeOffCtrl_endWithError s q e n

/-! ### The frames of a bypassed block (43_fdn_core.md R163) -/

/-- The state with the words `ws` put out and `rest` left as the input. -/
def passWords (ws rest : List Word) (s : State) : State :=
  { s with ports := { s.ports with inq := rest, outq := s.ports.outq ++ ws } }

/-- Words passed on after others, whatever the count of remaining frames was between them, are one longer run of words. -/
theorem retire_passWords_retire_passWords (f : Nat → InFlight) (m n : Nat) (us vs us' vs' : List Word) (s : State) :
    retire f m (passWords vs vs' (retire f n (passWords us us' s))) = retire f m (passWords (us ++ vs) vs' s) := by
  simp [passWords, retire]

theorem pathFrame_of_bypL {s : State} (h : s.reverb.bypL = true) (x : Frame) : pathFrame s x = (s.reverb, x) := if_pos h

theorem frameStep_bypassed {ch : Channels} {n : Nat} {s t : State} (hin : s.audio.inflight = some (.proc ch (n + 1)))
    (hbyp : s.reverb.bypL = true) (h : frameStep s = some t) :
    ∃ ws rest, ws.length = ch.count ∧ s.ports.inq = ws ++ rest ∧ t = retire (.proc ch) n (passWords ws rest s) := by
  rcases frameStep_cases h with ⟨ch', n', x, rest, hin', htake, -, rfl⟩ | ⟨n', x, rest, hin', -, -, -⟩
  · obtain ⟨rfl, rfl⟩ : ch = ch' ∧ n = n' := by simpa [hin] using hin'
    obtain ⟨hq, hlen⟩ := takeFrame_some htake
    exact ⟨x.words, rest, hlen, hq, by rw [pathFrame_of_bypL hbyp, passWords]⟩
  · simp [hin] at hin'

/-- At least one frame has run, since `BUSY` is the frame count's only from the first frame on (log entry 12). -/
theorem framesAfter_bypassed {ch : Channels} {m : Nat} (k : Nat) {s t : State}
    (hin : s.audio.inflight = some (.proc ch (m + (k + 1)))) (hbyp : s.reverb.bypL = true) (h : framesAfter (k + 1) s = some t) :
    ∃ ws rest, ws.length = (k + 1) * ch.count ∧ s.ports.inq = ws ++ rest ∧ t = retire (.proc ch) m (passWords ws rest s) := by
  induction k generalizing s with
  | zero =>
    obtain ⟨u, hu, ht⟩ := Option.bind_eq_some_iff.1 h
    obtain rfl := Option.some.inj ht
    simpa using frameStep_bypassed hin hbyp hu
  | succ k ih =>
    obtain ⟨u, hu, ht⟩ := Option.bind_eq_some_iff.1 h
    obtain ⟨us, us', hus, hq, rfl⟩ := frameStep_bypassed hin hbyp hu
    obtain ⟨vs, vs', hvs, hq', rfl⟩ := ih (s := retire (.proc ch) (m + (k + 1)) (passWords us us' s)) rfl hbyp ht
    obtain rfl : us' = vs ++ vs' := hq'
    refine ⟨us ++ vs, vs', ?_, by rw [hq, List.append_assoc], retire_passWords_retire_passWords ..⟩
    rw [List.length_append, hus, hvs, Nat.succ_mul (k + 1), Nat.add_comm]

end Sys2Proof.Machine

namespace Sys2Proof.Proofs
open Sys2Proof Sys2Proof.Machine

/-- Settles O15: the CTRL step is the command step of the CTRL port, whatever the AUDIO executor is doing. -/
theorem settersNeverBlock : Obligations.SettersNeverBlock := by
  refine ⟨fun s => ?_, fun s t h => ?_⟩
  · rw [ctrlStep, commandStep_isSome_eq_fetch]
    exact fetch_isSome_iff .ctrl s
  · have hkept := agreeOffCtrl_ctrlStep h
    exact ⟨hkept.cfg, hkept.audio, hkept.reverb, hkept.modu, hkept.aport, hkept.inq, hkept.outq, hkept.aresp, hkept.sched, hkept.host⟩

/-- Settles O49: no frame changes nothing, and any more are one run of words passed on. -/
theorem bypassedFramesCopyTheirWords : Obligations.BypassedFramesCopyTheirWords := by
  intro s t ch m k hin hbyp h
  cases k with
  | zero =>
    obtain rfl := Option.some.inj h
    exact ⟨[], by simp, rfl, by simp⟩
  | succ k =>
    obtain ⟨ws, rest, hlen, hq, rfl⟩ := framesAfter_bypassed k hin hbyp h
    exact ⟨ws, hlen, hq, by simp [retire, passWords]⟩

end Sys2Proof.Proofs
end

section
/-! PROOFS. The family `60_exceptions.md`: the procedure CHECK (R301), which the decoder and the commands carry out in two parts, decides
how every enabled command step ends. -/

namespace Sys2Proof.Machine

/-! ### The checks (4) to (6) by their codes (R300, R301) -/

/-- The code with which a check ends: 0 where it passes. -/
def codeOf : Option ErrCode → Nat
  | none => 0
  | some e => e.code

theorem ErrCode.code_ne_zero (e : ErrCode) : e.code ≠ 0 := by cases e <;> decide

theorem codeOf_ite (P : Prop) [Decidable P] (e : ErrCode) : codeOf (if P then some e else none) = if P then e.code else 0 :=
  apply_ite codeOf P (some e) none

theorem codeOf_ite_orElse (P : Prop) [Decidable P] (e : ErrCode) (r : Option ErrCode) :
    codeOf ((if P then some e else none) <|> r) = if P then e.code else codeOf r := by
  by_cases h : P <;> simp [h, codeOf]

theorem selectorError_decide (P : Prop) [Decidable P] (e : ErrCode) :
    selectorError (decide P) e = if ¬ P then some e else none := by
  by_cases h : P <;> simp [selectorError, h]

theorem notInit_eq_ite (s : State) : notInit s = if s.audio.initf = false then some .notInit else none := by
  cases h : s.audio.initf <;> simp [notInit, h]

theorem tooLarge_eq_ite (s : State) (n : BitVec 16) :
    tooLarge s n = if s.audio.maxblk.toNat < n.toNat then some .blockTooLarge else none := rfl

/-- The checks read only the parameters and the AUDIO registers, so they do not see that the command's words are consumed. -/
theorem checkError_setCommands (i : Instr) (s : State) (p : Port) (q : List Word) :
    checkError i (s.setCommands p q) = checkError i s := by
  cases i <;> simp [checkError, notInit, tooLarge]

theorem State.setCommands_lasterr (s : State) (p q : Port) (ws : List Word) : (s.setCommands p ws).lasterr q = s.lasterr q := by
  cases p <;> rfl

/-! ### The last-error register after a command that succeeds (R250, R265) -/

/-- A command whose checks pass writes 0 to its port's last-error register; only GETSTAT leaves the code it found. -/
theorem commandEffect_lasterr {i : Instr} {s : State} (h : checkError i s = none) :
    (commandEffect i s).lasterr i.port = if i = .getstat then s.lasterr i.port else 0 := by
  cases i with
  | getstat => rfl
  | setp sel | getp sel | setpn sel | getpn sel | issmooth sel =>
    have hsel : (paramOfSel sel).isSome = true := by
      rw [paramOfSel_isSome]
      simp_all [checkError, selectorError_eq_none, Instr.wellFormed]
    obtain ⟨c, hc⟩ := Option.isSome_iff_exists.1 hsel
    simp [commandEffect, hc, Instr.port, State.lasterr]
  | setpre sel =>
    have hsel : (presetOfSel sel).isSome = true := by
      rw [presetOfSel_isSome]
      simpa [checkError, selectorError_eq_none, Instr.wellFormed] using h
    obtain ⟨c, hc⟩ := Option.isSome_iff_exists.1 hsel
    simp [commandEffect, hc, Instr.port, State.lasterr]
  | proc sel cnt =>
    simp only [commandEffect, reduceCtorEq, if_false]
    split <;> (try split) <;> simp [Instr.port, State.lasterr]
  | mproc cnt =>
    simp only [commandEffect, reduceCtorEq, if_false]
    split <;> simp [Instr.port, State.lasterr]
  | nop p => simp [commandEffect, Instr.port]
  | init | reset | clear | msetm | msetb | mclr | setbyp | getbyp | getpre | getcpu | isinit | clrerr =>
    simp [commandEffect, Instr.port, State.lasterr]

/-! ### The procedure CHECK on each kind of head word (R301) -/

variable {p : Port} {s : State} {w : Word} {rest : List Word} {op : Opcode}

/-- The check (1). -/
theorem checkCode_illegalOpcode (hop : Opcode.ofByte (opcField w) = none) : checkCode s p w rest = 1 :=
  if_pos ((Opcode.ofByte_eq_none_iff _).1 hop)

/-- Past the check (1): an opcode's value stands in one of the two lists. -/
theorem listed_of_ofByte (hop : Opcode.ofByte (opcField w) = some op) :
    ¬ ((opcField w).toNat ∉ portOpcodes .audio ∧ (opcField w).toNat ∉ portOpcodes .ctrl) :=
  fun h => by simp [(Opcode.ofByte_eq_none_iff _).2 h] at hop

theorem mem_portOpcodes_iff (hop : Opcode.ofByte (opcField w) = some op) :
    (opcField w).toNat ∈ portOpcodes p ↔ op.validOn p = true := by
  rw [byte_of_ofByte hop, Opcode.validOn_iff_mem_portOpcodes]

/-- The check (2). -/
theorem checkCode_wrongPort (hop : Opcode.ofByte (opcField w) = some op) (hv : op.validOn p = false) :
    checkCode s p w rest = 8 := by
  have hnot : (opcField w).toNat ∉ portOpcodes p := by simp [mem_portOpcodes_iff hop, hv]
  rw [checkCode, if_neg (listed_of_ofByte hop), if_pos hnot]

/-- The check (3). -/
theorem checkCode_reservedBits (hop : Opcode.ofByte (opcField w) = some op) (hv : op.validOn p = true)
    (hw : w &&& op.format.reservedMask ≠ 0) : checkCode s p w rest = 2 := by
  have hmem : (opcField w).toNat ∈ portOpcodes p := (mem_portOpcodes_iff hop).2 hv
  have hmask : w &&& reservedMaskOf (opcField w).toNat ≠ 0 := by rwa [byte_of_ofByte hop, Opcode.reservedMaskOf_byte]
  rw [checkCode, if_neg (listed_of_ofByte hop), if_neg (not_not.2 hmem), if_pos hmask]

/-- Past the checks (1) to (3) the procedure is the decoded command's own checks. -/
theorem checkCode_command (hop : Opcode.ofByte (opcField w) = some op) (hv : op.validOn p = true)
    (hw : w &&& op.format.reservedMask = 0) :
    checkCode s p w rest = codeOf (checkError (op.command p w (rest.getD 0 0) (rest.getD 1 0)) s) := by
  have hmem : (opcField w).toNat ∈ portOpcodes p := (mem_portOpcodes_iff hop).2 hv
  have hmask : w &&& reservedMaskOf (opcField w).toNat = 0 := by rwa [byte_of_ofByte hop, Opcode.reservedMaskOf_byte]
  rw [checkCode, if_neg (listed_of_ofByte hop), if_neg (not_not.2 hmem), if_neg (not_not.2 hmask), byte_of_ofByte hop]
  cases op with
  | nop | getbyp | getpre | getcpu | isinit | getstat | clrerr => simp [Opcode.byte, Opcode.command, checkError, codeOf]
  | setp | getp | setpn | getpn | setbyp | setpre | issmooth | proc | mproc | reset | clear | msetm | msetb | mclr | init =>
    simp only [Opcode.command, checkError, Instr.wellFormed, selectorError_decide, notInit_eq_ite, tooLarge_eq_ite,
      codeOf_ite_orElse, codeOf_ite]
    simp [Opcode.byte, ErrCode.code]

/-! ### How an enabled command step ends (R250, R301) -/

/-- Past the checks (1) to (3) the step is the execution of the decoded command, and the rest of CHECK is that command's checks. -/
theorem commandStep_decoded (hq : s.commands p = w :: rest) (hop : Opcode.ofByte (opcField w) = some op)
    (hlen : op.payload ≤ rest.length) (hv : op.validOn p = true) (hroom : s.hasRoom p op.resp = true)
    (hw : w &&& op.format.reservedMask = 0) :
    ∃ i, i.opcode = op ∧ i.port = p ∧
      checkCode s p w rest = codeOf (checkError i (s.setCommands p (rest.drop op.payload))) ∧
      commandStep p s = some (exec i (s.setCommands p (rest.drop op.payload))) := by
  refine ⟨op.command p w (rest.getD 0 0) (rest.getD 1 0), opcode_command .., port_command hv, ?_, ?_⟩
  · rw [checkError_setCommands, checkCode_command hop hv hw]
  · rw [commandStep, fetch_cons hq, hop]
    simp only [Nat.not_lt.2 hlen, hv, hroom, hw, Bool.true_eq_false, if_true, if_false]

/-- The error of CHECK ends the step, or CHECK finds none and the step is the execution of a command whose own checks pass. -/
theorem commandStep_of_checkCode {t : State} (hq : s.commands p = w :: rest) (hlen : commandLength w ≤ rest.length + 1)
    (hroom : s.hasRoom p (responseWords p w) = true) (ht : t = s.setCommands p (rest.drop (commandLength w - 1))) :
    (∃ e : ErrCode, checkCode s p w rest = e.code ∧
      commandStep p s = some (.next (t.endWithError p e (responseWords p w)))) ∨
    (checkCode s p w rest = 0 ∧ ∃ i, i.opcode.byte = opcField w ∧ i.port = p ∧ checkError i t = none ∧
      commandStep p s = some (exec i t)) := by
  cases hop : Opcode.ofByte (opcField w) with
  | none =>
    refine .inl ⟨.illegalOpcode, checkCode_illegalOpcode hop, ?_⟩
    simpa [ht, commandLength, responseWords, hop] using commandStep_illegalOpcode hq hop
  | some op =>
    rw [commandLength_of_ofByte hop] at hlen ht
    rw [Nat.add_sub_cancel_left] at ht
    subst ht
    have hpayload : op.payload ≤ rest.length := by omega
    cases hv : op.validOn p with
    | false =>
      have hresp : responseWords p w = 0 := by simp [responseWords, hop, hv]
      rw [hresp]
      exact .inl ⟨.wrongPort, checkCode_wrongPort hop hv, commandStep_wrongPort hq hop hpayload hv⟩
    | true =>
      have hresp : responseWords p w = op.resp := by simp [responseWords, hop, hv]
      rw [hresp] at hroom ⊢
      by_cases hw : w &&& op.format.reservedMask = 0
      · obtain ⟨i, rfl, rfl, hcode, hstep⟩ := commandStep_decoded hq hop hpayload hv hroom hw
        cases hcheck : checkError i (s.setCommands i.port (rest.drop i.opcode.payload)) with
        | none => exact .inr ⟨by rw [hcode, hcheck, codeOf], i, (byte_of_ofByte hop).symm, rfl, hcheck, hstep⟩
        | some e => exact .inl ⟨e, by rw [hcode, hcheck, codeOf], by rw [hstep, exec_of_error hcheck]⟩
      · exact .inl ⟨.reservedBits, checkCode_reservedBits hop hv hw, commandStep_reservedBits hq hop hpayload hv hroom hw⟩

end Sys2Proof.Machine

namespace Sys2Proof.Proofs
open Sys2Proof Sys2Proof.Machine

/-- Settles O11: the two parts of CHECK together end every enabled step, and a command whose checks pass leaves code 0. -/
theorem checkOrderDecidesTheOutcome : Obligations.CheckOrderDecidesTheOutcome := by
  intro p s w rest hq hlen hroom t
  rcases commandStep_of_checkCode hq hlen hroom (t := t) rfl with ⟨e, hcode, hstep⟩ | ⟨hcode, i, hbyte, rfl, hcheck, hstep⟩
  · exact ⟨fun h => absurd (hcode.symm.trans h) e.code_ne_zero, fun _ => ⟨e, hcode.symm, hstep⟩⟩
  · refine ⟨fun _ => ⟨i, commandEffect i t, hbyte, hstep, exec_of_ok hcheck, ?_, ?_⟩, fun h => absurd hcode h⟩
    · rw [commandEffect_lasterr hcheck, State.setCommands_lasterr]
    · rw [commandEffect_sticky, State.setCommands_sticky]

end Sys2Proof.Proofs
end

section
/-! PROOFS. The family `70_reset_and_hazards.md`: what each command does before the first successful INIT (R335). -/

namespace Sys2Proof.Machine

variable {i : Instr} {s : State}

/-! ### The checks of a command with a legal selector on a block that is not initialised (R301) -/

theorem checkError_notInit (hinit : s.audio.initf = false) (hw : i.wellFormed = true) (hi : needsInit i = true) :
    checkError i s = some .notInit := by
  have hnot : notInit s = some .notInit := by simp [notInit, hinit]
  cases i with
  | reset | clear | msetm | msetb | mclr => exact hnot
  | mproc => simp [checkError, hnot]
  | proc | issmooth => simp [checkError, selectorError, hw, hnot]
  | nop | init | setp | getp | setpn | getpn | setbyp | getbyp | setpre | getpre | getcpu | isinit | getstat | clrerr =>
    cases hi

theorem checkError_init (n : BitVec 16) (fs : F64) (h : initArgsBad s.cfg n fs = false) : checkError (.init n fs) s = none := by
  simp [checkError, h]

/-- CTRL commands but ISSMOOTH have no check besides their selector's. -/
theorem checkError_ctrl (hp : i.port = .ctrl) (hw : i.wellFormed = true) (hi : needsInit i = false) : checkError i s = none := by
  cases i with
  | nop | getbyp | getpre | getcpu | isinit | getstat | clrerr => rfl
  | setp | getp | setpn | getpn | setpre | setbyp => exact selectorError_eq_none.2 hw
  | issmooth => cases hi
  | init | reset | clear | proc | msetm | msetb | mproc | mclr => cases hp

/-! ### The ends of a command that R335 tells apart -/

theorem exec_notInit (hinit : s.audio.initf = false) (hw : i.wellFormed = true) (hi : needsInit i = true) :
    exec i s = .next (s.endWithError i.port .notInit i.opcode.resp) :=
  exec_of_error (checkError_notInit hinit hw hi)

/-- A command whose checks pass completes without error; GETSTAT is apart, since it keeps the code it reports. -/
theorem exec_completes (h : checkError i s = none) (hne : i ≠ .getstat) : ∃ t, exec i s = .next t ∧ t.lasterr i.port = 0 :=
  ⟨commandEffect i s, exec_of_ok h, by rw [commandEffect_lasterr h, if_neg hne]⟩

theorem commandEffect_init_initf (n : BitVec 16) (fs : F64) : (commandEffect (.init n fs) s).audio.initf = true := rfl

theorem commandEffect_getstat_ctrl : (commandEffect .getstat s).ctrl = s.ctrl := rfl

end Sys2Proof.Machine

namespace Sys2Proof.Proofs
open Sys2Proof Sys2Proof.Machine

/-- Settles O14: the check NOT_INIT splits the commands with a legal selector, and where it does not stand the other checks pass. -/
theorem commandsBeforeInit : Obligations.CommandsBeforeInit := by
  intro i s hinit hw
  cases i with
  | reset | clear | proc | msetm | msetb | mproc | mclr | issmooth => exact exec_notInit hinit hw rfl
  | init n fs =>
    intro hargs
    have hcheck := checkError_init n fs hargs
    exact ⟨_, exec_of_ok hcheck, commandEffect_init_initf n fs, commandEffect_lasterr hcheck⟩
  | nop p => exact exec_completes (i := .nop p) rfl nofun
  | getstat => exact ⟨_, exec_of_ok rfl, commandEffect_getstat_ctrl⟩
  | setp | getp | setpn | getpn | setbyp | getbyp | setpre | getpre | getcpu | isinit | clrerr =>
    exact exec_completes (checkError_ctrl rfl hw rfl) nofun

end Sys2Proof.Proofs
end

section
/-! PROOFS. The encoding (30_encoding.md): the encoder and the decoder are inverse to each other (R80 to R83, R90), the tables of
R84 to R87, and what the command step takes from its queue (R82, 47_engine_facade.md R250). -/

namespace Sys2Proof

/-! ### Decoding what the encoder writes -/

theorem Instr.opcode_validOn_port (i : Instr) : i.opcode.validOn i.port = true := by cases i <;> rfl

theorem Instr.payloadWords_length (i : Instr) : i.payloadWords.length = i.opcode.payload := by cases i <;> rfl

theorem encode_length (i : Instr) : (encode i).length = 1 + i.opcode.payload := (Laws.HeadFields.all i).2.2

/-- The fields of a command's own words make the command (R80, R83). -/
theorem Opcode.command_of_encoding (i : Instr) (rest : List Word) :
    i.opcode.command i.port i.head ((i.payloadWords ++ rest).getD 0 0) ((i.payloadWords ++ rest).getD 1 0) = i := by
  cases i with
  | nop | reset | clear | msetm | msetb | mclr | getbyp | getpre | getcpu | isinit | getstat | clrerr => rfl
  | init n fs =>
    simp only [Instr.opcode, command, Instr.head, cntField_commandWord]
    exact congrArg _ (highWord_lowWord fs)
  | proc sel n => simp only [Instr.opcode, command, Instr.head, selField_commandWord, cntField_commandWord]
  | mproc n => simp only [Instr.opcode, command, Instr.head, cntField_commandWord]
  | setp sel v | setpn sel v =>
    simp only [Instr.opcode, command, Instr.head, selField_commandWord]
    rfl
  | getp sel | getpn sel | setbyp sel | setpre sel | issmooth sel =>
    simp only [Instr.opcode, command, Instr.head, selField_commandWord]

/-- What passes the checks (1) to (3) decodes to the command of its fields (R82). -/
theorem decode_cons_of_valid {p : Port} {w : Word} {after : List Word} {op : Opcode} (hop : Opcode.ofByte (opcField w) = some op)
    (hlen : op.payload ≤ after.length) (hv : op.validOn p = true) (hm : w &&& op.format.reservedMask = 0) :
    decode p (w :: after) = .command (op.command p w (after.getD 0 0) (after.getD 1 0)) (after.drop op.payload) := by
  simp only [decode, hop, Nat.not_lt.2 hlen, hv, hm, ne_eq, not_true_eq_false, Bool.true_eq_false, if_false]

theorem decode_encode (i : Instr) (rest : List Word) : decode i.port (encode i ++ rest) = .command i rest := by
  obtain ⟨hopc, hmask, -⟩ := Laws.HeadFields.all i
  have hop : Opcode.ofByte (opcField i.head) = some i.opcode := by rw [hopc, ofByte_byte]
  have hlen : i.opcode.payload ≤ (i.payloadWords ++ rest).length := by rw [List.length_append, i.payloadWords_length]; omega
  rw [encode, List.cons_append, decode_cons_of_valid hop hlen i.opcode_validOn_port hmask, Opcode.command_of_encoding,
    ← i.payloadWords_length, List.drop_left]

/-! ### Encoding what the decoder reads -/

/-- The word of an opcode without reserved bits is the head of the command it makes: no other bit is free (R81, R90). -/
theorem head_command {op : Opcode} {w : Word} (p : Port) (a b : Word) (hop : Opcode.ofByte (opcField w) = some op)
    (hm : w &&& op.format.reservedMask = 0) : (op.command p w a b).head = w := by
  have hrsv : w &&& 0x00F00000 = 0 := and_mask_of_and_mask hm (by cases op <;> rfl)
  have hsel : op.format = .Z ∨ op.format = .K → selField w = 0 := fun hf =>
    selField_eq_zero (and_mask_of_and_mask hm (by rcases hf with hf | hf <;> rw [hf] <;> rfl))
  have hcnt : op.format = .Z ∨ op.format = .S → cntField w = 0 := fun hf =>
    cntField_eq_zero (and_mask_of_and_mask hm (by rcases hf with hf | hf <;> rw [hf] <;> rfl))
  have hw : w = commandWord op.byte (selField w) (cntField w) := by
    rw [← byte_of_ofByte hop]
    exact word_eq_commandWord w hrsv
  cases op with
  | proc => exact hw.symm
  | init | mproc => rw [hsel (.inr rfl)] at hw; exact hw.symm
  | setp | getp | setpn | getpn | setbyp | setpre | issmooth => rw [hcnt (.inr rfl)] at hw; exact hw.symm
  | nop | reset | clear | msetm | msetb | mclr | getbyp | getpre | getcpu | isinit | getstat | clrerr =>
    rw [hsel (.inl rfl), hcnt (.inl rfl)] at hw; exact hw.symm

theorem payloadWords_command (op : Opcode) (p : Port) (w : Word) {after : List Word} (hlen : op.payload ≤ after.length) :
    (op.command p w (after.getD 0 0) (after.getD 1 0)).payloadWords = after.take op.payload := by
  cases op with
  | init | msetm =>
    obtain ⟨a, b, rest, rfl⟩ : ∃ a b rest, after = a :: b :: rest := by
      match after, hlen with
      | a :: b :: rest, _ => exact ⟨a, b, rest, rfl⟩
    simp [Opcode.command, Instr.payloadWords, lowWord_append, highWord_append, Opcode.payload]
  | msetb | setp | setpn =>
    obtain ⟨a, rest, rfl⟩ := List.exists_cons_of_length_pos hlen
    rfl
  | nop | reset | clear | proc | mproc | mclr | getp | getpn | setbyp | getbyp | setpre | getpre | getcpu | isinit | getstat
  | clrerr | issmooth => rfl

/-- What the decoder reads as a command is the command's encoding, and the command is the port's own. -/
theorem eq_encode_of_decode {p : Port} {q : List Word} {i : Instr} {rest : List Word} (h : decode p q = .command i rest) :
    q = encode i ++ rest := by
  obtain ⟨w, after, op, rfl, hop, hlen, -, hm, rfl, rfl⟩ := Machine.decode_command h
  rw [encode, head_command p _ _ hop hm, payloadWords_command op p w hlen, List.cons_append, List.take_append_drop]

/-- A refused command is consumed in its full length, which is one word for an unassigned OPC (R82, R89). -/
theorem rest_of_decode_rejected {p : Port} {q : List Word} {r : Reject} {rest : List Word} (h : decode p q = .rejected r rest) :
    rest = q.drop (commandLength (q.headD 0)) := by
  cases q with
  | nil => cases h
  | cons w after =>
    rw [List.headD_cons]
    cases hop : Opcode.ofByte (opcField w) with
    | none =>
      simp only [decode, hop, Decoded.rejected.injEq] at h
      simp [commandLength, hop, h.2]
    | some op =>
      rw [commandLength_of_ofByte hop, Nat.add_comm, List.drop_succ_cons]
      simp only [decode, hop] at h
      split at h
      · cases h
      · split at h
        · exact (Decoded.rejected.inj h).2.symm
        · split at h
          · exact (Decoded.rejected.inj h).2.symm
          · cases h

end Sys2Proof

namespace Sys2Proof.Machine

/-! ### What a fetch takes (47_engine_facade.md R250) -/

theorem commandLength_head (i : Instr) : commandLength i.head = (encode i).length := by
  rw [encode_length, commandLength_of_ofByte (op := i.opcode)]
  rw [(Laws.HeadFields.all i).1, ofByte_byte]

/-- Everything a fetch can be: a command's words, or a refused command's. -/
theorem fetch_cases {p : Port} {s : State} {f : Fetched} (h : fetch p s = some f) :
    (∃ i rest, s.commands p = encode i ++ rest ∧ i.port = p ∧ f = .command i (s.setCommands p rest)) ∨
      ∃ r, f = .rejected r (s.setCommands p ((s.commands p).drop (commandLength ((s.commands p).headD 0)))) := by
  unfold fetch at h
  cases hd : decode p (s.commands p) with
  | incomplete => simp [hd] at h
  | command i rest =>
    simp only [hd, Option.ite_none_right_eq_some, Option.some.injEq] at h
    exact .inl ⟨i, rest, eq_encode_of_decode hd, port_of_decode hd, h.2.symm⟩
  | rejected r rest =>
    simp only [hd, Option.ite_none_right_eq_some, Option.some.injEq] at h
    exact .inr ⟨r, by rw [← rest_of_decode_rejected hd]; exact h.2.symm⟩

end Sys2Proof.Machine

namespace Sys2Proof.Proofs
open Sys2Proof Sys2Proof.Machine

/-- Settles O1. -/
theorem decodeOfEncode : Obligations.DecodeOfEncode := decode_encode

/-- Settles O2. -/
theorem decodedCommandIsItsEncoding : Obligations.DecodedCommandIsItsEncoding :=
  fun _ _ _ _ h => ⟨eq_encode_of_decode h, port_of_decode h⟩

/-- Settles O6: a fetched command's words are its encoding, a refused command's are the length its OPC gives. -/
theorem fetchTakesOneWholeCommand : Obligations.FetchTakesOneWholeCommand := by
  refine ⟨fun p s f h => ?_, fetch_isSome_iff⟩
  obtain ⟨w, rest, hq, hlen, -⟩ := (fetch_isSome_iff p s).1 (by rw [h]; rfl)
  refine ⟨w, rest, hq, hlen, ?_⟩
  rcases fetch_cases h with ⟨i, after, henc, hport, rfl⟩ | ⟨r, rfl⟩
  · obtain rfl : w = i.head := by rw [hq] at henc; exact (List.cons.inj henc).1
    rw [henc, commandLength_head, List.drop_left, List.take_left]
    exact ⟨rfl, rfl, hport⟩
  · rw [hq]; rfl

/-- Settles O3: each word is evaluated by the decoder. -/
theorem exampleWordsDecode : Obligations.ExampleWordsDecode := by
  refine ⟨?_, ?_, ?_, ?_, ?_, ?_, ?_, ?_, ?_, ?_, ?_, ?_, ?_, ?_⟩ <;> decide

/-- Settles O4. -/
theorem opcodeMapRows : Obligations.OpcodeMapRows := ⟨by decide, ofByte_byte⟩

/-- Settles O5. -/
theorem selectorAndRangeTables : Obligations.SelectorAndRangeTables := by
  refine ⟨by decide, by decide, by decide, fun c => ?_, by decide⟩
  cases c <;> rfl

/-- Settles O7: the scheduled agent's step is the command step of its port, and the fetch succeeds. -/
theorem stepRunsDecodedCommand : Obligations.StepRunsDecodedCommand := by
  intro p s later i q hsched hidle hdecode hroom
  obtain ⟨t, ht⟩ : ∃ t : State, t = { s with env := { s.env with sched := later } } := ⟨_, rfl⟩
  have hstep : commandStep p t = some (exec i (t.setCommands p q)) := by
    have hd : decode p (t.commands p) = .command i q := by rw [ht]; cases p <;> exact hdecode
    have hr : t.hasRoom p i.opcode.resp = true := by rw [ht]; cases p <;> exact hroom
    simp only [commandStep, fetch, hd, hr, if_true]
  have hagent : agentStep (Port.agent p) t = commandStep p t := by
    cases p with
    | audio => simp only [Port.agent, agentStep, audioStep, ht, hidle rfl]
    | ctrl => rfl
  simp only [step, interleavedStep, hsched, scheduledStep, ← ht, hagent, hstep]

end Sys2Proof.Proofs
end

section
/-! PROOFS. The invariant (10_state.md, 46_parameter_smoother.md R233 and the other rules that Safety.lean cites): it holds at power-on and
every step keeps it; lengths and matrix follow their parameters (44_feedback_matrix.md R186). -/

namespace Sys2Proof.Machine

/-! ### Power-on (70_reset_and_hazards.md R330) -/

theorem powerOnTargets_inRange {cfg : Params} (h : ParamsOk cfg) (p : Param) : inRange p ((powerOnTargets cfg).get p) = true := by
  obtain ⟨row, hrow⟩ : ∃ row, cfg.presetTable.row? cfg.poweronPreset = some row := by
    have hne := h.poweron
    cases hc : cfg.poweronPreset with
    | custom => exact absurd hc hne
    | clean | vocalBooth | studio | cathedral => exact ⟨_, rfl⟩
  rw [powerOnTargets, hrow]
  exact h.rows _ row hrow p

theorem lines_powerOn (cfg : Params) (env : Env) : ∀ l ∈ (State.powerOn cfg env).lines, l = DelayLine.powerOn := by
  intro l hl
  simp only [State.lines, State.powerOn, List.mem_cons, List.mem_append, List.mem_map, Vector.toList_replicate,
    List.mem_replicate] at hl
  rcases hl with h | h | ⟨-, -, h⟩ | ⟨-, h⟩
  · exact h
  · exact h
  · exact h.symm
  · exact h

/-- The power-on state meets the invariant for every legal choice of the parameters. -/
theorem inv_powerOn {cfg : Params} (h : ParamsOk cfg) (env : Env) : Inv (State.powerOn cfg env) where
  params := h
  targets p := ⟨powerOnTargets_inRange h p, powerOnTargets_inRange h p⟩
  smoothers := nofun
  lines := ⟨le_rfl, (by decide : 2 ≤ 2 ^ 24), by simp [State.powerOn], fun l hl => lines_powerOn cfg env l hl ▸ LineOk.powerOn⟩
  matrix := nofun
  status := ⟨by simp [State.powerOn], by simp [State.powerOn], by simp [State.powerOn], rfl, nofun⟩
  ports := ⟨Nat.zero_le _, Nat.zero_le _, Nat.zero_le _, Nat.zero_le _, Nat.zero_le _, Nat.zero_le _⟩
  modu :=
    have hone : le32 one32 one32 = true := by decide +kernel
    ⟨hone, by rw [show float32 ((State.powerOn cfg env).audio.cap - 1) = one32 from float32_one]; exact hone,
      (by decide +kernel : isFinite32 zero32 = true), (by decide +kernel : isFinite32 zero32 = true),
      (by decide +kernel : le64 zero64 zero64 = true), (by decide +kernel : lt64 zero64 twoPi = true)⟩
  flushed :=
    ⟨fun i => by simp only [State.powerOn, Fin.getElem_fin, Vector.getElem_replicate]; decide,
      fun p => by rw [show (State.powerOn cfg env).reverb.cur.get p = zero64 by cases p <;> rfl]; decide⟩

theorem paramsOk_reference : ParamsOk Params.reference where
  depth := by decide
  apLen := by decide
  fsMaxFinite := by decide +kernel
  fsMaxCap := by decide +kernel
  poweron := by decide
  rows c row h p := by
    cases c with
    | custom => cases h
    | clean | vocalBooth | studio | cathedral => cases h; cases p <;> decide +kernel

/-! ### The steps of the executors and of the host -/

/-- Queues within their bound may be replaced. -/
theorem inv_withPorts {s : State} (h : Inv s) {q : Ports} (hq : PortsOk { s with ports := q }) : Inv { s with ports := q } :=
  inv_of_records s _ h rfl rfl rfl rfl rfl
    ⟨h.status.sticky, h.status.lasterrC, h.status.lasterrA, h.status.busy, h.status.inflight⟩ hq

theorem pushWord_length {depth : Nat} {q q' : List Word} {w : Word} (h : pushWord depth q w = some q') : q'.length ≤ depth := by
  simp only [pushWord, Option.ite_none_right_eq_some, Option.some.injEq] at h
  obtain ⟨hlt, rfl⟩ := h
  rw [List.length_append, List.length_singleton]
  omega

theorem popWord_length {q q' : List Word} (h : popWord q = some q') : q'.length ≤ q.length := by
  cases q with
  | nil => cases h
  | cons w q => cases h; exact Nat.le_succ _

theorem inv_hostAct {a : HostAct} {s t : State} (h : Inv s) (ha : hostAct a s = some t) : Inv t := by
  obtain ⟨hc, haud, hin, hout, hcr, har⟩ := h.ports
  cases a with
  | rst => cases ha; exact inv_powerOn h.params _
  | pushCport w | pushAport w | pushIn w =>
    obtain ⟨q, hq, rfl⟩ := Option.map_eq_some_iff.1 ha
    have hlen := pushWord_length hq
    exact inv_withPorts h (by constructor <;> assumption)
  | popCresp =>
    obtain ⟨q, hq, rfl⟩ := Option.map_eq_some_iff.1 ha
    exact inv_withPorts h ⟨hc, haud, hin, hout, (popWord_length hq).trans hcr, har⟩
  | popAresp =>
    obtain ⟨q, hq, rfl⟩ := Option.map_eq_some_iff.1 ha
    exact inv_withPorts h ⟨hc, haud, hin, hout, hcr, (popWord_length hq).trans har⟩
  | popOut =>
    obtain ⟨q, hq, rfl⟩ := Option.map_eq_some_iff.1 ha
    exact inv_withPorts h ⟨hc, haud, hin, (popWord_length hq).trans hout, hcr, har⟩

theorem setCommands_hasRoom (s : State) (p : Port) (q : List Word) (n : Nat) : (s.setCommands p q).hasRoom p n = s.hasRoom p n := by
  simp [State.hasRoom]

/-- A decoded command's words are gone from the head of its queue (30_encoding.md R82). -/
theorem rest_of_decode_command {p : Port} {q : List Word} {i : Instr} {rest : List Word} (h : decode p q = .command i rest) :
    rest = q.drop (encode i).length := by rw [eq_encode_of_decode h, List.drop_left]

/-- Every command step keeps the invariant, refused or not. -/
theorem inv_commandStep {p : Port} {s t : State} (h : Inv s) (hidle : p = .audio → s.audio.inflight = none)
    (hs : commandStep p s = some (.next t)) : Inv t := by
  rcases commandStep_next hs with ⟨i, q, hd, hroom, rfl, hcheck, rfl⟩ | ⟨q, e, n, hroom, rfl, k, rfl⟩
  · rw [rest_of_decode_command hd] at hcheck ⊢
    refine inv_commandEffect (inv_dropWords h _ _) hcheck ?_ fun hp => ?_
    · rwa [setCommands_hasRoom]
    · rw [State.setCommands_audio]
      exact hidle hp
  · exact inv_endWithError (inv_dropWords h p k) p e n (by rwa [setCommands_hasRoom])

/-! ### Lengths and matrix (44_feedback_matrix.md R186) -/

theorem matrixCoherent_of_kept {s t : State} (h : MatrixCoherent s) (hcfg : t.cfg = s.cfg) (hinit : t.audio.initf = s.audio.initf)
    (hfs : t.audio.fs = s.audio.fs) (hr : t.reverb = { s.reverb with st := t.reverb.st, bypL := t.reverb.bypL }) :
    MatrixCoherent t := by
  unfold MatrixCoherent
  rw [hcfg, hinit, hfs, hr]
  exact h

/-- A clear recomputes both from the targets, whatever they were. -/
theorem AfterClear.matrixCoherent {t : State} {cap : Nat} {pt : PerParam F32} {old : Reverb}
    (h : AfterClear t.cfg t.audio.fs cap pt old t.reverb) : MatrixCoherent t := by
  intro _
  rw [h.len, h.aroom, h.dg, h.adecay, h.mat]
  exact ⟨rfl, rfl, rfl⟩

theorem matrixCoherent_commandEffect (i : Instr) {s : State} (h : MatrixCoherent s) : MatrixCoherent (commandEffect i s) := by
  cases hp : i.port with
  | ctrl =>
    obtain ⟨haudio, hreverb, -, -⟩ := commandEffect_ctrl hp s
    exact matrixCoherent_of_kept h (commandEffect_cfg _ s) (by rw [haudio]) (by rw [haudio]) (by rw [hreverb])
  | audio => cases i with
  | reset | clear => exact AfterClear.matrixCoherent (t := commandEffect .clear s) (reverbClear_afterClear s.cfg s.audio.fs _ _ s.reverb)
  | init n fs =>
    exact AfterClear.matrixCoherent (t := commandEffect (.init n fs) s)
      (reverbClear_afterClear s.cfg fs (capacityOf fs) s.ctrl.pt (reverbResize (capacityOf fs) s.reverb))
  | proc sel cnt =>
    simp only [commandEffect]
    split
    · exact matrixCoherent_of_kept h rfl rfl rfl rfl
    · split <;> exact matrixCoherent_of_kept h rfl rfl rfl rfl
  | mproc cnt =>
    simp only [commandEffect]
    split <;> exact matrixCoherent_of_kept h rfl rfl rfl rfl
  | nop p => cases p <;> exact matrixCoherent_of_kept h rfl rfl rfl rfl
  | msetm | msetb | mclr => exact matrixCoherent_of_kept h rfl rfl rfl rfl
  | setp | getp | setpn | getpn | setbyp | getbyp | setpre | getpre | getcpu | isinit | getstat | clrerr | issmooth => cases hp

theorem matrixCoherent_commandStep {p : Port} {s t : State} (h : MatrixCoherent s) (hs : commandStep p s = some (.next t)) :
    MatrixCoherent t := by
  rcases commandStep_next hs with ⟨i, q, -, -, -, -, rfl⟩ | ⟨q, e, n, -, rfl, -⟩
  · exact matrixCoherent_commandEffect i
      (matrixCoherent_of_kept h (by simp) (by simp) (by simp) (by simp))
  · exact matrixCoherent_of_kept h (by simp) (by simp) (by simp) (by simp)

theorem pathFrame_of_not_bypL {s : State} (h : s.reverb.bypL = false) (x : Frame) :
    pathFrame s x = fdnFrame s.cfg s.audio.fs s.audio.cap s.audio.k s.reverb x := if_neg (by simp [h])

theorem matrixCoherent_frameStep {s t : State} (h : MatrixCoherent s) (hf : frameStep s = some t) : MatrixCoherent t := by
  rcases frameStep_cases hf with ⟨ch, n, x, rest, -, -, -, rfl⟩ | ⟨n, x, rest, -, -, -, rfl⟩
  · intro hinit
    cases hbyp : s.reverb.bypL with
    | true => rw [pathFrame_of_bypL hbyp]; exact h hinit
    | false =>
      rw [pathFrame_of_not_bypL hbyp]
      exact fdnFrame_matrix _ _ _ _ _ _ (h hinit)
  · exact matrixCoherent_of_kept h rfl rfl rfl rfl

theorem matrixCoherent_hostAct {a : HostAct} {s t : State} (h : MatrixCoherent s) (ha : hostAct a s = some t) : MatrixCoherent t := by
  cases a with
  | rst => cases ha; exact nofun
  | pushCport | pushAport | pushIn | popCresp | popAresp | popOut =>
    obtain ⟨q, -, rfl⟩ := Option.map_eq_some_iff.1 ha
    exact matrixCoherent_of_kept h rfl rfl rfl rfl

end Sys2Proof.Machine

namespace Sys2Proof.Proofs
open Sys2Proof Sys2Proof.Machine

/-- Settles O55: the invariant is kept by each command step, each frame and each act of the host. -/
theorem stepKeepsTheInvariant : Obligations.StepKeepsTheInvariant :=
  step_keeps inv_withEnv (fun _ _ _ h => inv_commandStep h) (fun _ _ => inv_frameStep) fun _ _ _ => inv_hostAct

/-- Settles O54. -/
theorem resetMeetsTheInvariant : Obligations.ResetMeetsTheInvariant := inv_powerOn paramsOk_reference _

/-- Settles O56: a step either keeps both or recomputes both; a frame recomputes each exactly on a differing value. -/
theorem lengthsAndMatrixFollowTheirParameters : Obligations.LengthsAndMatrixFollowTheirParameters := by
  refine ⟨step_keeps (fun _ _ h => h) (fun _ _ _ h _ => matrixCoherent_commandStep h) (fun _ _ => matrixCoherent_frameStep)
    fun _ _ _ => matrixCoherent_hostAct, ?_⟩
  intro cfg fs cap v r t
  obtain ⟨hroom, hdecay, -, -⟩ := fdnApply_false cfg fs cap v r
  have differs : ∀ a b : F32, eq32 a b = false → ne32 a b = true := fun a b h => by rw [ne32, h]; rfl
  have agrees : ∀ a b : F32, eq32 a b = true → ¬ ne32 a b = true := fun a b h => by rw [ne32, h]; exact nofun
  refine ⟨fun h => ?_, fun h => ?_, fun h => ?_, fun h => ?_⟩
  · exact (if_neg (agrees _ _ h)).mp hroom
  · obtain ⟨haroom, hlen, hfdn⟩ := (if_pos (differs _ _ h)).mp hroom
    exact ⟨haroom, hlen, fun i => by rw [← hlen]; exact hfdn i⟩
  · exact (if_neg (agrees _ _ h)).mp hdecay
  · obtain ⟨hadecay, hdg, hmat⟩ := (if_pos (differs _ _ h)).mp hdecay
    refine ⟨hadecay, hdg, by rw [← hdg]; exact hmat, hdg, fun i j => ?_⟩
    rw [hmat]
    simp only [matScale, Fin.getElem_fin, tab8_getElem]
    rfl

end Sys2Proof.Proofs
end

section
/-! PROOFS. The agents (20_memory.md R66, R68, R72): what a step of each can write, what enables it, and how a run ends
(70_reset_and_hazards.md R355). -/

namespace Sys2Proof.Machine

/-! ### `STICKY` (60_exceptions.md R317) -/

/-- What a step does to `STICKY`: nothing, a clear by CLRERR or the reset pin, or the bit of the error it records. -/
inductive StickyChange (s t : State) : Prop where
  | kept (h : t.sticky = s.sticky)
  | cleared (h : t.sticky = 0)
      (cause : (∃ q, decode .ctrl s.ports.cport = .command .clrerr q) ∨ s.env.host.head? = some .rst)
  | recorded (p : Port) (e : ErrCode) (h : t.sticky = s.sticky ||| (1#16 <<< e.code)) (code : t.lasterr p = BitVec.ofNat 8 e.code)

theorem stickyChange_commandStep {p : Port} {s t : State} (h : commandStep p s = some (.next t)) : StickyChange s t := by
  rcases commandStep_next h with ⟨i, q, hd, -, hp, -, rfl⟩ | ⟨q, e, n, -, rfl, -⟩
  · by_cases hi : i = .clrerr
    · subst hi
      obtain rfl : p = .ctrl := hp.symm
      exact .cleared (by rw [commandEffect_sticky, if_pos rfl]) (.inl ⟨q, hd⟩)
    · exact .kept (by rw [commandEffect_sticky, if_neg hi, State.setCommands_sticky])
  · exact .recorded p e (by simp) (by simp)

theorem stickyChange_step {s t : State} (h : step s = .next t) : StickyChange s t := by
  obtain ⟨env, hhost, -, rfl | ⟨a, ha⟩⟩ := step_cases h
  · exact .kept rfl
  · have back : StickyChange { s with env := env } t → StickyChange s t
      | .kept h => .kept h
      | .cleared h hcause => .cleared h (by rwa [← hhost])
      | .recorded p e h code => .recorded p e h code
    refine back ?_
    cases a with
    | ctrl => exact stickyChange_commandStep ha
    | audio =>
      rcases audioStep_cases ha with ⟨-, hc⟩ | hf
      · exact stickyChange_commandStep hc
      · rcases frameStep_cases hf with ⟨ch, n, x, rest, -, -, -, rfl⟩ | ⟨n, x, rest, -, -, -, rfl⟩ <;> exact .kept rfl
    | host =>
      obtain ⟨act, rest, hq, hact⟩ := hostStep_cases ha
      cases act with
      | rst => cases hact; exact .cleared rfl (.inr (by rw [hq]; rfl))
      | pushCport | pushAport | pushIn | popCresp | popAresp | popOut =>
        obtain ⟨q, -, rfl⟩ := Option.map_eq_some_iff.1 hact
        exact .kept rfl

/-- The bit that an error code sets is its own number, which lies in 1 to 8 (R300). -/
theorem getElem_errorBit (e : ErrCode) (k : Fin 16) : (1#16 <<< e.code)[k] = decide (k.val = e.code) := by
  cases e <;> revert k <;> decide

theorem ErrCode.code_mem (e : ErrCode) : 1 ≤ e.code ∧ e.code ≤ 8 := by cases e <;> decide

/-! ### The AUDIO executor and CTRL-owned state (20_memory.md R66) -/

/-- All of the state that the AUDIO executor does not own: two states agree on it. -/
structure AgreeOffAudio (s t : State) : Prop where
  cfg : t.cfg = s.cfg
  ctrl : t.ctrl = s.ctrl
  cport : t.ports.cport = s.ports.cport
  cresp : t.ports.cresp = s.ports.cresp
  env : t.env = s.env

theorem agreeOffAudio_commandEffect {i : Instr} (hp : i.port = .audio) (s : State) (q : List Word) :
    AgreeOffAudio s (commandEffect i (s.setCommands .audio q)) := by
  obtain ⟨hctrl, -, henv, hports⟩ := commandEffect_audio hp (s.setCommands .audio q)
  exact ⟨commandEffect_cfg i _, hctrl, by rw [hports]; rfl, by rw [hports]; rfl, henv⟩

theorem agreeOffAudio_frameStep {s t : State} (h : frameStep s = some t) : AgreeOffAudio s t := by
  rcases frameStep_cases h with ⟨ch, n, x, rest, -, -, -, rfl⟩ | ⟨n, x, rest, -, -, -, rfl⟩ <;> exact ⟨rfl, rfl, rfl, rfl, rfl⟩

theorem agreeOffAudio_audioStep {s t : State} (h : audioStep s = some (.next t)) : AgreeOffAudio s t := by
  rcases audioStep_cases h with ⟨-, hc⟩ | hf
  · rcases commandStep_next hc with ⟨i, q, -, -, hp, -, rfl⟩ | ⟨q, e, n, -, rfl, -⟩
    · exact agreeOffAudio_commandEffect hp s q
    · constructor <;> simp
  · exact agreeOffAudio_frameStep hf

/-! ### What enables a step (20_memory.md R72) -/

/-- A command step reads only its own two queues and the queue depth for being enabled. -/
theorem commandStep_eq_none_congr {p : Port} {s t : State} (hq : t.commands p = s.commands p) (hr : t.responses p = s.responses p)
    (hc : t.cfg = s.cfg) : commandStep p t = none ↔ commandStep p s = none := by
  rw [← Option.isNone_iff_eq_none, ← Option.isNone_iff_eq_none, ← Option.not_isSome, ← Option.not_isSome, commandStep_isSome,
    commandStep_isSome]
  simp only [State.hasRoom, hq, hr, hc]

/-- The words that one frame takes from `IN` and puts on `OUT` (20_memory.md R65, 45_modulated_delay.md R207). -/
def InFlight.words : InFlight → Nat
  | .proc ch _ => ch.count
  | .mproc _ => 1

/-- A frame step is enabled by the frames that remain and the two stream queues alone. -/
theorem frameStep_isSome_iff (s : State) : (frameStep s).isSome = true ↔ ∃ f, s.audio.inflight = some f ∧ 0 < f.remaining ∧
    f.words ≤ s.ports.inq.length ∧ s.ports.outq.length + f.words ≤ s.cfg.qDepth := by
  unfold frameStep
  cases hf : s.audio.inflight with
  | none => simp
  | some f =>
    cases f with
    | proc ch n =>
      simp only [Option.some.injEq, exists_eq_left', InFlight.remaining, InFlight.words]
      rcases Nat.eq_zero_or_pos n with rfl | hn
      · simp
      · have htake := takeFrame_isSome ch s.ports.inq
        rw [if_neg (by omega), procFrameStep]
        cases hx : takeFrame ch s.ports.inq with
        | none =>
          rw [hx] at htake
          simp only [Option.isSome_none, Bool.false_eq_true, false_iff, not_and]
          exact fun _ h => absurd htake.symm (by simpa using h)
        | some y =>
          rw [hx] at htake
          have hlen : ch.count ≤ s.ports.inq.length := of_decide_eq_true htake.symm
          by_cases hroom : s.ports.outq.length + ch.count ≤ s.cfg.qDepth <;> simp [hroom, hn, hlen]
    | mproc n =>
      simp only [Option.some.injEq, exists_eq_left', InFlight.remaining, InFlight.words]
      rcases Nat.eq_zero_or_pos n with rfl | hn
      · simp
      · rw [if_neg (by omega), mprocFrameStep]
        cases hq : s.ports.inq with
        | nil => simp
        | cons x rest => by_cases hroom : s.ports.outq.length + 1 ≤ s.cfg.qDepth <;> simp [hroom, hn]

/-- An AUDIO step sees nothing that a CTRL step writes, for being enabled. -/
theorem audioStep_eq_none_of_agreeOffCtrl {s t : State} (h : AgreeOffCtrl s t) (hs : audioStep s = none) : audioStep t = none := by
  unfold audioStep at hs ⊢
  rw [h.audio]
  cases hf : s.audio.inflight with
  | none =>
    rw [hf] at hs
    exact (commandStep_eq_none_congr (p := .audio) h.aport h.aresp h.cfg).2 hs
  | some f =>
    simp only [hf, Option.map_eq_none_iff] at hs ⊢
    rw [← Option.not_isSome_iff_eq_none] at hs ⊢
    rw [frameStep_isSome_iff, h.audio, h.inq, h.outq, h.cfg, ← frameStep_isSome_iff]
    exact hs

/-! ### How a step ends (70_reset_and_hazards.md R355; 60_exceptions.md R308) -/

/-- No step of an agent faults and none is refused. -/
theorem agentStep_next {a : Agent} {s : State} {o : Host.Outcome State Fault Refusal} (h : agentStep a s = some o) :
    ∃ t, o = .next t := by
  have command : ∀ p, commandStep p s = some o → ∃ t, o = .next t := fun p hc => by
    rcases commandStep_cases hc with ⟨i, q, -, -, -, rfl⟩ | ⟨r, q, -, -, rfl⟩
    · exact ⟨_, exec_next i _⟩
    · exact ⟨_, rfl⟩
  cases a with
  | ctrl => exact command .ctrl h
  | audio =>
    simp only [agentStep, audioStep] at h
    split at h
    · exact command .audio h
    · obtain ⟨t, -, rfl⟩ := Option.map_eq_some_iff.1 h
      exact ⟨t, rfl⟩
  | host =>
    simp only [agentStep, hostStep] at h
    split at h
    · cases h
    · obtain ⟨t, -, rfl⟩ := Option.map_eq_some_iff.1 h
      exact ⟨t, rfl⟩

theorem scheduledStep_next (a : Agent) (s : State) : ∃ t, scheduledStep a s = .next t := by
  unfold scheduledStep
  cases h : agentStep a s with
  | none => exact ⟨s, rfl⟩
  | some o => exact agentStep_next h

theorem enabledAgents_eq_nil_iff (s : State) :
    enabledAgents s = [] ↔ audioStep s = none ∧ ctrlStep s = none ∧ hostStep s = none := by
  simp [enabledAgents, List.filter_eq_nil_iff, agentStep]

/-- An unscheduled step ends the run where no agent is enabled, and takes a next state everywhere else. -/
theorem unscheduledStep_cases (s : State) :
    (enabledAgents s = [] ∧ unscheduledStep s = .fault (if s.finished then .finished else .stuck)) ∨
      (enabledAgents s ≠ [] ∧ ∃ t, unscheduledStep s = .next t) := by
  unfold unscheduledStep
  split
  · exact .inl ⟨by assumption, rfl⟩
  · exact .inr ⟨by simp_all, scheduledStep_next _ _⟩
  · exact .inr ⟨by simp_all, scheduledStep_next _ _⟩

theorem step_of_unscheduled {s : State} (h : s.env.sched = []) : step s = unscheduledStep s := by
  simp only [step, interleavedStep, h]

/-- The host has no push left, act by act. -/
theorem noPush_iff (acts : List HostAct) :
    acts.any HostAct.isPush = false ↔ ∀ w, .pushCport w ∉ acts ∧ .pushAport w ∉ acts ∧ .pushIn w ∉ acts := by
  rw [List.any_eq_false]
  constructor
  · exact fun h w => ⟨fun hw => h _ hw rfl, fun hw => h _ hw rfl, fun hw => h _ hw rfl⟩
  · intro h a ha
    cases a with
    | pushCport w => exact absurd ha (h w).1
    | pushAport w => exact absurd ha (h w).2.1
    | pushIn w => exact absurd ha (h w).2.2
    | popCresp | popAresp | popOut | rst => exact nofun

theorem finished_iff (s : State) : s.finished = true ↔ s.ports.cport = [] ∧ s.ports.aport = [] ∧ s.audio.inflight = none ∧
    ∀ w, .pushCport w ∉ s.env.host ∧ .pushAport w ∉ s.env.host ∧ .pushIn w ∉ s.env.host := by
  rw [← noPush_iff]
  simp [State.finished, and_assoc]

/-- No executor moves on empty command queues with nothing in flight. -/
theorem executors_idle {s : State} (hc : s.ports.cport = []) (ha : s.ports.aport = []) (hf : s.audio.inflight = none) :
    audioStep s = none ∧ ctrlStep s = none := by
  constructor
  · simp only [audioStep, hf, commandStep, fetch_nil (p := .audio) ha]
  · simp only [ctrlStep, commandStep, fetch_nil (p := .ctrl) hc]

/-! ### Writers of the CTRL registers and of `INITF` (47_engine_facade.md R263, R269) -/

theorem commandEffect_targets {i : Instr} {s : State} (hp : ∀ sel v, i ≠ .setp sel v) (hn : ∀ sel v, i ≠ .setpn sel v)
    (hr : ∀ sel, i ≠ .setpre sel) :
    (commandEffect i s).ctrl.preset = s.ctrl.preset ∧ (commandEffect i s).ctrl.pt = s.ctrl.pt := by
  cases hport : i.port with
  | audio => rw [(commandEffect_audio hport s).1]; exact ⟨rfl, rfl⟩
  | ctrl => cases i with
  | setp sel v => exact absurd rfl (hp sel v)
  | setpn sel v => exact absurd rfl (hn sel v)
  | setpre sel => exact absurd rfl (hr sel)
  | getp sel | getpn sel | issmooth sel => cases hs : paramOfSel sel <;> simp [commandEffect, hs]
  | nop | setbyp | getbyp | getpre | getcpu | isinit | getstat | clrerr => simp [commandEffect]
  | init | reset | clear | proc | msetm | msetb | mproc | mclr => cases hport

theorem commandEffect_bypass {i : Instr} {s : State} (h : ∀ sel, i ≠ .setbyp sel) :
    (commandEffect i s).ctrl.bypass = s.ctrl.bypass := by
  cases hport : i.port with
  | audio => rw [(commandEffect_audio hport s).1]
  | ctrl => cases i with
  | setbyp sel => exact absurd rfl (h sel)
  | setp sel | getp sel | setpn sel | getpn sel | issmooth sel => cases hs : paramOfSel sel <;> simp [commandEffect, hs]
  | setpre sel => cases hs : presetOfSel sel <;> simp [commandEffect, hs]
  | nop | getbyp | getpre | getcpu | isinit | getstat | clrerr => simp [commandEffect]
  | init | reset | clear | proc | msetm | msetb | mproc | mclr => cases hport

/-- No command clears `INITF`. -/
theorem commandEffect_initf (i : Instr) {s : State} (h : s.audio.initf = true) : (commandEffect i s).audio.initf = true := by
  cases hport : i.port with
  | ctrl => rw [(commandEffect_ctrl hport s).1, h]
  | audio => cases i with
  | init n fs => rfl
  | nop | reset | clear | msetm | msetb | mclr => simp [commandEffect, h]
  | proc sel n =>
    simp only [commandEffect]
    split
    · simp [h]
    · split <;> simp [h]
  | mproc n =>
    simp only [commandEffect]
    split <;> simp [h]
  | setp | getp | setpn | getpn | setbyp | getbyp | setpre | getpre | getcpu | isinit | getstat | clrerr | issmooth => cases hport

theorem initf_commandStep {p : Port} {s t : State} (h : s.audio.initf = true) (hs : commandStep p s = some (.next t)) :
    t.audio.initf = true := by
  rcases commandStep_next hs with ⟨i, q, -, -, -, -, rfl⟩ | ⟨q, e, n, -, rfl, -⟩
  · exact commandEffect_initf i (by simpa using h)
  · simpa using h

theorem initf_agentStep {a : Agent} {s t : State} (h : s.audio.initf = true) (hs : agentStep a s = some (.next t)) :
    t.audio.initf = true ∨ s.env.host.head? = some .rst := by
  cases a with
  | ctrl => exact .inl (initf_commandStep h hs)
  | audio =>
    rcases audioStep_cases hs with ⟨-, hc⟩ | hf
    · exact .inl (initf_commandStep h hc)
    · rcases frameStep_cases hf with ⟨ch, n, x, rest, -, -, -, rfl⟩ | ⟨n, x, rest, -, -, -, rfl⟩ <;> exact .inl h
  | host =>
    obtain ⟨act, rest, hq, hact⟩ := hostStep_cases hs
    cases act with
    | rst => exact .inr (by rw [hq]; rfl)
    | pushCport | pushAport | pushIn | popCresp | popAresp | popOut =>
      obtain ⟨q, -, rfl⟩ := Option.map_eq_some_iff.1 hact
      exact .inl h

end Sys2Proof.Machine

namespace Sys2Proof.Proofs
open Sys2Proof Sys2Proof.Machine

/-- Settles O13: a step keeps `STICKY`, clears it whole, or sets the one bit of the error it records. -/
theorem stickyBitsRiseByErrorsAndFallTogether : Obligations.StickyBitsRiseByErrorsAndFallTogether := by
  intro s t k h
  cases stickyChange_step h with
  | kept h =>
    rw [h]
    exact ⟨fun h0 h1 => absurd h1 (by simp [h0]), fun h1 h0 => absurd h1 (by simp [h0])⟩
  | cleared h hcause => exact ⟨fun _ h1 => absurd h1 (by simp [h]), fun _ _ => ⟨h, hcause⟩⟩
  | recorded p e h hcode =>
    have hbit : t.sticky[k] = (s.sticky[k] || decide (k.val = e.code)) := by
      rw [h, ← getElem_errorBit e k]
      exact BitVec.getElem_or ..
    refine ⟨fun h0 h1 => ?_, fun h1 h0 => by simp [hbit, h1] at h0⟩
    have hk : k.val = e.code := by simpa [hbit, h0] using h1
    rw [hk]
    exact ⟨e.code_mem.1, e.code_mem.2, p, hcode⟩

/-- Settles O16. -/
theorem audioStepsLeaveCtrlStateAlone : Obligations.AudioStepsLeaveCtrlStateAlone := by
  intro s t h
  obtain ⟨hcfg, hctrl, hcport, hcresp, henv⟩ := agreeOffAudio_audioStep h
  exact ⟨hcfg, hctrl, hcport, hcresp, henv⟩

/-- Settles O17: what enables a step of one executor is nothing that the other one writes. -/
theorem onlyTheHostEnables : Obligations.OnlyTheHostEnables := by
  refine ⟨fun s t hs h => ?_, fun s t hs h => audioStep_eq_none_of_agreeOffCtrl (agreeOffCtrl_ctrlStep h) hs⟩
  have hkept := agreeOffAudio_audioStep h
  exact (commandStep_eq_none_congr (p := .ctrl) hkept.cport hkept.cresp hkept.cfg).2 hs

/-- Settles O18. -/
theorem framesWaitForTheirWords : Obligations.FramesWaitForTheirWords := by
  refine ⟨fun s ch n hin hn => ?_, fun s n hin hn => ?_, fun s a later hsched hnone => ?_⟩
  · simp [frameStep_isSome_iff, hin, InFlight.remaining, InFlight.words, hn]
  · simp [frameStep_isSome_iff, hin, InFlight.remaining, InFlight.words, hn]
  · simp only [step, interleavedStep, hsched, scheduledStep, hnone]

/-- Settles O20: a refused command writes neither, a command that runs is one of the named writers or keeps them. -/
theorem writersOfPresetBypassAndInit : Obligations.WritersOfPresetBypassAndInit := by
  refine ⟨fun i s t h => ?_, fun s t h hinit hend => ?_⟩
  · rcases exec_cases h with ⟨e, -, rfl⟩ | ⟨-, rfl⟩
    · exact ⟨fun h => by simp at h, fun h => by simp at h⟩
    · refine ⟨fun h => ?_, fun h => ?_⟩
      · by_contra hno
        push Not at hno
        obtain ⟨hpreset, hpt⟩ := commandEffect_targets (s := s) (fun sel => (hno sel).1) (fun sel => (hno sel).2.1)
          (fun sel => (hno sel).2.2)
        rcases h with h | h
        · exact h hpreset
        · exact h hpt
      · by_contra hno
        push Not at hno
        exact h (commandEffect_bypass hno)
  · obtain ⟨env, hhost, -, rfl | ⟨a, ha⟩⟩ := step_cases h
    · simp [hinit] at hend
    · rw [← hhost]
      exact (initf_agentStep (s := { s with env := env }) hinit ha).resolve_left (by simp [hend])

/-- Settles O59: a step that is not scheduled ends the run or takes a next state, by whether an agent is enabled. -/
theorem runsEndFinishedOrStuck : Obligations.RunsEndFinishedOrStuck := by
  intro s hsched
  rw [step_of_unscheduled hsched, ← enabledAgents_eq_nil_iff]
  rcases unscheduledStep_cases s with ⟨hnil, hstep⟩ | ⟨hne, t, hstep⟩
  · obtain ⟨-, -, hhost⟩ := (enabledAgents_eq_nil_iff s).1 hnil
    have hfin := finished_iff s
    refine ⟨⟨fun _ => hnil, fun _ => ⟨_, hstep⟩⟩, ?_, fun r h => by simp [hstep] at h⟩
    rw [hstep]
    cases hb : s.finished <;> simp_all
  · refine ⟨⟨fun ⟨f, h⟩ => by simp [hstep] at h, fun h => absurd h hne⟩, ⟨fun h => by simp [hstep] at h, ?_⟩,
      fun r h => by simp [hstep] at h⟩
    rintro ⟨hc, ha, hf, hhost, -⟩
    obtain ⟨hno, hno'⟩ := executors_idle hc ha hf
    exact absurd ((enabledAgents_eq_nil_iff s).2 ⟨hno, hno', hhost⟩) hne

end Sys2Proof.Proofs
end

section
/-! PROOFS. The commands (47_engine_facade.md R251 to R268, 45_modulated_delay.md R205 to R208), refusals (60_exceptions.md R302), and the
reset pin and the first INIT (70_reset_and_hazards.md R330 to R336). -/

namespace Sys2Proof.Machine

/-! ### Selectors that are legal (30_encoding.md R84 to R86) -/

theorem selectorError_of_paramOfSel {sel : BitVec 4} {p : Param} (h : paramOfSel sel = some p) :
    selectorError (decide (sel.toNat ≤ 6)) .badSelector = none :=
  selectorError_eq_none.2 (decide_eq_true (le_of_paramOfSel h))

theorem bypassOfSel_eq {sel : BitVec 4} (h : sel.toNat ≤ 1) : bypassOfSel sel = decide (sel.toNat = 1) := by
  revert sel; decide

theorem channelsOfSel_eq {sel : BitVec 4} (h : sel.toNat = 1 ∨ sel.toNat = 2) :
    channelsOfSel sel = some (if sel.toNat = 1 then .mono else .stereo) := by
  revert sel; decide

/-! ### The mappings of 46_parameter_smoother.md R226, R227 in one formula -/

theorem normToValue_eq (p : Param) (x : F32) : normToValue p x = if p = .decayTime then smExpToValue p x else smLinToValue p x := by
  cases p <;> simp [normToValue]

theorem valueToNorm_eq (p : Param) (v : F32) : valueToNorm p v = if p = .decayTime then smExpToNorm p v else smLinToNorm p v := by
  cases p <;> simp [valueToNorm]

/-! ### The status word (30_encoding.md R95) -/

/-- The status word from its fields, lowest last. -/
theorem statusWord_fields (s : State) :
    let w := statusWord s
    w.getLsbD 0 = s.audio.initf ∧ w.getLsbD 1 = s.ctrl.bypass ∧ w.getLsbD 2 = s.audio.busy ∧ w.getLsbD 3 = false ∧
      w.extractLsb' 4 3 = presetCode s.ctrl.preset ∧ w.getLsbD 7 = false ∧ w.extractLsb' 8 8 = s.audio.lasterrA ∧
      w.extractLsb' 16 8 = s.ctrl.lasterrC ∧ w.extractLsb' 24 8 = 0 := by
  refine ⟨?_, ?_, ?_, ?_, ?_, ?_, ?_, ?_, ?_⟩
  case refine_5 | refine_7 | refine_8 | refine_9 =>
    refine BitVec.eq_of_getLsbD_eq fun i hi => ?_
    simp only [statusWord, BitVec.getLsbD_extractLsb', BitVec.getLsbD_append]
    interval_cases i <;> simp
  all_goals
    simp only [statusWord, BitVec.getLsbD_append]
    simp

/-! ### Refusals (60_exceptions.md R302) -/

theorem errorBit_eq (e : ErrCode) : (1#16 <<< e.code) = BitVec.ofNat 16 (2 ^ e.code) := by cases e <;> rfl

/-- The four bad arguments of INIT (R252) are all that its check asks. -/
theorem initArgsBad_iff (cfg : Params) (n : BitVec 16) (fs : F64) : initArgsBad cfg n fs = true ↔
    isFinite64 fs = false ∨ lt64 zero64 fs = false ∨ le64 fs cfg.fsMax = false ∨ n = 0 := by
  simp [initArgsBad, or_assoc]

/-- A clear keeps the buffers' sizes (40_delay_line.md R117). -/
theorem AfterClear.sized {cfg : Params} {fs : F64} {cap n : Nat} {pt : PerParam F32} {old r : Reverb}
    (h : AfterClear cfg fs cap pt old r) (hpre : old.pre.size = n) (hap : ∀ l ∈ old.ap, l.size = n)
    (hfdn : ∀ i : Fin 8, old.fdn[i].size = n) : ∀ l ∈ r.pre :: r.ap ++ r.fdn.toList, l.size = n := by
  intro l hl
  simp only [List.mem_append, List.mem_cons] at hl
  rcases hl with (rfl | hl) | hl
  · rw [h.pre]
    exact hpre
  · rw [h.ap, List.mem_iff_getElem] at hl
    obtain ⟨i, hi, rfl⟩ := hl
    rw [List.getElem_zipWith]
    exact hap (old.ap[i]'(by simp only [List.length_zipWith] at hi; omega)) (List.getElem_mem _)
  · rw [Vector.mem_toList_iff, Vector.mem_iff_getElem] at hl
    obtain ⟨i, hi, rfl⟩ := hl
    have hline := h.fdn ⟨i, hi⟩
    simp only [Fin.getElem_fin] at hline
    rw [hline]
    exact hfdn ⟨i, hi⟩

end Sys2Proof.Machine

namespace Sys2Proof.Proofs
open Sys2Proof Sys2Proof.Machine

/-- Settles O12. -/
theorem errorChangesOnlyItsRecord : Obligations.ErrorChangesOnlyItsRecord := by
  refine ⟨fun i s e h => exec_of_error h, fun s e n => ?_, fun s e n => ?_, rfl⟩ <;> rw [← errorBit_eq] <;> rfl

/-- Settles O21: NOP has no check. -/
theorem nopWritesOnlyLasterr : Obligations.NopWritesOnlyLasterr := fun _ => ⟨exec_of_ok rfl, exec_of_ok rfl⟩

/-- Settles O22: the check passes, and the clear restarts the audio state that the configuration left. -/
theorem initConfiguresTheBlock : Obligations.InitConfiguresTheBlock := by
  intro n fs s hfin hpos hmax hn
  have hargs : initArgsBad s.cfg n fs = false := by
    rw [← Bool.not_eq_true, initArgsBad_iff, hfin, hpos, hmax]
    simpa using hn
  have hclear := reverbClear_afterClear s.cfg fs (capacityOf fs) s.ctrl.pt (reverbResize (capacityOf fs) s.reverb)
  have hsized := hclear.sized (n := capacityOf fs) rfl (by simp [reverbResize]) fun i => by simp [reverbResize]
  exact ⟨_, exec_of_ok (checkError_init n fs hargs), rfl, hclear, hsized, rfl, rfl, rfl, rfl, rfl, rfl⟩

/-- Settles O23. -/
theorem failedInitChangesOnlyItsRecord : Obligations.FailedInitChangesOnlyItsRecord := by
  intro n fs s h
  have hcheck : checkError (.init n fs) s = some .badInitArgs := if_pos ((initArgsBad_iff s.cfg n fs).2 h)
  exact exec_of_error hcheck

/-- Settles O24: RESET and CLEAR have the one check NOT_INIT and the one effect ENGINE.CLEARALL. -/
theorem resetAndClearRestartTheAudioState : Obligations.ResetAndClearRestartTheAudioState := by
  intro s hinit
  have hcheck : notInit s = none := notInit_eq_none.2 hinit
  exact ⟨_, exec_of_ok hcheck, exec_of_ok (i := .clear) hcheck, reverbClear_afterClear .., rfl, rfl, rfl, rfl, rfl, rfl, rfl⟩

/-- Settles O25. -/
theorem procLatchesTheTargets : Obligations.ProcLatchesTheTargets := by
  intro sel n s hinit hsel hn
  have hch := channelsOfSel_eq hsel
  rw [exec_of_ok (checkError_proc_eq_none hch hinit hn)]
  simp only [commandEffect, hch]
  split <;> rfl

/-- Settles O26: the commands of the unit have the check NOT_INIT, MPROC also its frame count's. -/
theorem modulatedDelayCommands : Obligations.ModulatedDelayCommands := by
  intro s hinit
  have hcheck : notInit s = none := notInit_eq_none.2 hinit
  refine ⟨fun depth rate => exec_of_ok hcheck, fun base => exec_of_ok hcheck, exec_of_ok hcheck, fun n hn => ?_⟩
  have hcheck' : checkError (.mproc n) s = none := by
    simp only [checkError, orElse_eq_none]
    exact ⟨hcheck, tooLarge_eq_none.2 hn⟩
  rw [exec_of_ok hcheck']
  simp only [commandEffect]
  split <;> rfl

/-- Settles O27. -/
theorem settersStoreClampedTargets : Obligations.SettersStoreClampedTargets := by
  intro sel p v s hp lo hi x
  have hcheck := selectorError_of_paramOfSel hp
  constructor
  · rw [exec_of_ok (i := .setp sel v) hcheck]
    simp only [commandEffect, hp]
    rfl
  · rw [exec_of_ok (i := .setpn sel v) hcheck]
    simp only [commandEffect, hp, normToValue_eq]
    rfl

/-- Settles O28. -/
theorem gettersAnswerTheTargets : Obligations.GettersAnswerTheTargets := by
  intro sel p s hp lo hi v
  have hcheck := selectorError_of_paramOfSel hp
  constructor
  · rw [exec_of_ok (i := .getp sel) hcheck]
    simp only [commandEffect, hp]
    rfl
  · rw [exec_of_ok (i := .getpn sel) hcheck]
    simp only [commandEffect, hp, valueToNorm_eq]
    rfl

/-- Settles O29. -/
theorem bypassCommands : Obligations.BypassCommands := by
  intro s
  refine ⟨fun sel hsel => ?_, exec_of_ok rfl⟩
  have hcheck : checkError (.setbyp sel) s = none := selectorError_eq_none.2 (decide_eq_true hsel)
  rw [exec_of_ok hcheck, ← bypassOfSel_eq hsel]
  rfl

/-- Settles O30. -/
theorem presetCommands : Obligations.PresetCommands := by
  intro s
  refine ⟨fun c sel hc => ?_, ?_⟩
  · have hcheck : checkError (.setpre sel) s = none := selectorError_eq_none.2 (decide_eq_true (le_of_presetOfSel hc))
    rw [exec_of_ok hcheck]
    simp only [commandEffect, hc, presetTargets]
    cases hrow : s.cfg.presetTable.row? c <;> rfl
  · have hword : ∀ c : Preset, (presetCode c).setWidth 32 =
        (match c with | .clean => 0 | .vocalBooth => 1 | .studio => 2 | .cathedral => 3 | .custom => 4 : Word) := fun c => by
      cases c <;> rfl
    rw [exec_of_ok rfl, commandEffect, hword]
    rfl

/-- Settles O31. -/
theorem initFlagCpuAndClrerrCommands : Obligations.InitFlagCpuAndClrerrCommands :=
  fun s => ⟨exec_of_ok rfl, ⟨Config.cpuDraw s.env.cpuDraws, exec_of_ok rfl⟩, exec_of_ok rfl⟩

/-- Settles O32. -/
theorem getstatAnswersTheStatus : Obligations.GetstatAnswersTheStatus :=
  fun s => ⟨statusWord s, exec_of_ok rfl, statusWord_fields s⟩

/-- Settles O33. -/
theorem issmoothComparesWithTheHostTarget : Obligations.IssmoothComparesWithTheHostTarget := by
  intro sel p s hp hinit
  have hcheck : checkError (.issmooth sel) s = none := by
    simp only [checkError, orElse_eq_none]
    exact ⟨selectorError_of_paramOfSel hp, notInit_eq_none.2 hinit⟩
  rw [exec_of_ok hcheck]
  simp only [commandEffect, hp]
  rfl

/-- Settles O57. -/
theorem resetPinGivesPowerOnValues : Obligations.ResetPinGivesPowerOnValues := by
  intro s acts later hhost hsched
  have hstep : step s = .next (State.powerOn s.cfg { s.env with host := acts, sched := later }) := by
    simp only [step, interleavedStep, hsched, scheduledStep, agentStep, hostStep, hhost]
    rfl
  refine ⟨_, hstep, rfl, rfl, rfl, rfl, rfl, fun p => by cases p <;> rfl, rfl, rfl, rfl, ?_, rfl, ?_, rfl, rfl, ?_,
    lines_powerOn _ _, rfl, rfl, rfl, rfl, rfl, rfl⟩
  · intro i; simp [State.powerOn]
  · intro i j; simp [State.powerOn]
  · intro i; simp [State.powerOn]

/-- Settles O58: the placed words decode to INIT, and its lengths are evaluated from the Studio room size. -/
theorem resetStateRunsItsFirstInit : Obligations.ResetStateRunsItsFirstInit := by
  refine ⟨rfl, rfl, rfl, rfl, by decide, ?_⟩
  have hstep := stepRunsDecodedCommand .audio (State.reset.withFetchWord 96 0x40E770000000000001000200) []
    (.init 512 0x40E7700000000000) [] (by decide +kernel) (fun _ => by decide +kernel) (by decide +kernel) (by decide +kernel)
  obtain ⟨t, ht, haudio, hclear, -, -, -, -, -, -, hports⟩ := initConfiguresTheBlock 512 0x40E7700000000000
    (({ State.reset.withFetchWord 96 0x40E770000000000001000200 with
        env := { (State.reset.withFetchWord 96 0x40E770000000000001000200).env with sched := [] } } : State).setCommands .audio [])
    (by decide +kernel) (by decide +kernel) (by decide +kernel) (by decide)
  refine ⟨t, hstep.trans ht, ?_⟩
  rw [haudio, hports, hclear.len]
  exact ⟨rfl, rfl, rfl, by decide +kernel, by decide +kernel, by decide +kernel⟩

end Sys2Proof.Proofs
end

section
/-! PROOFS. Arithmetic (00_scope.md R8 to R12, 60_exceptions.md R303): rounding to nearest with ties to even, the exact
operations and flushing. -/

namespace Sys2Proof.Machine

/-! ### Rounding between two neighbours (00_scope.md R10) -/

/-- Between a number of the format and the next one the spacing is theirs. -/
theorem Fmt.rawMag_of_mem (f : Fmt) {n q e num den : Nat} (hd : 0 < den) (hn : n = e * 2 ^ f.frac + q) (hq : q < 2 ^ (f.frac + 1))
    (he : e = 0 ∨ 2 ^ f.frac ≤ q) (hlo : q * 2 ^ e * den ≤ num) (hhi : num < (q + 1) * 2 ^ e * den) :
    f.rawMag num den = e * 2 ^ f.frac + roundTiesEven num (den * 2 ^ e) ∧ num / (den * 2 ^ e) = q := by
  have hlo' : q * 2 ^ e ≤ num / den := (Nat.le_div_iff_mul_le hd).2 hlo
  have hhi' : num / den < (q + 1) * 2 ^ e := (Nat.div_lt_iff_lt_mul hd).2 hhi
  have hup : num / den < 2 ^ (f.frac + e + 1) := by
    refine hhi'.trans_le ?_
    rw [Nat.add_right_comm, pow_add]
    exact Nat.mul_le_mul_right _ hq
  have hj : (num / den).log2 - f.frac = e := by
    rcases he with rfl | he
    · rcases Nat.eq_zero_or_pos (num / den) with h0 | h0
      · simp [h0]
      · have := (Nat.log2_lt (n := num / den) (by omega)).2 hup
        omega
    · refine log2_of_mem ?_ hup
      rw [pow_add]
      exact (Nat.mul_le_mul_right _ he).trans hlo'
  refine ⟨by rw [Fmt.rawMag, hj], ?_⟩
  rw [← Nat.div_div_eq_div_mul]
  exact Nat.div_eq_of_lt_le hlo' hhi'

/-- A value between two neighbours is rounded to the nearer one, and to the even one from their midpoint. -/
theorem Fmt.rawMag_between (f : Fmt) (hf : 1 ≤ f.frac) {n num den : Nat} (hd : 0 < den) (hlo : f.magOf n * den ≤ num)
    (hhi : num < f.magOf (n + 1) * den) :
    let mid := (f.magOf n + f.magOf (n + 1)) * den
    (2 * num < mid → f.rawMag num den = n) ∧ (mid < 2 * num → f.rawMag num den = n + 1) ∧
      (2 * num = mid → f.rawMag num den = n + n % 2) := by
  intro mid
  obtain ⟨q, e, h1, h2, hn, hq, he⟩ := f.magOf_succ n
  rw [h1] at hlo
  rw [h2] at hhi
  obtain ⟨hraw, hdiv⟩ := f.rawMag_of_mem hd hn hq he hlo hhi
  have hmid : mid = (2 * q + 1) * (den * 2 ^ e) := by simp only [mid, h1, h2]; ring
  have hparity : n % 2 = q % 2 := by
    obtain ⟨p, hp⟩ : ∃ p, 2 ^ f.frac = 2 * p := ⟨2 ^ (f.frac - 1), by rw [← pow_succ', Nat.sub_add_cancel hf]⟩
    rw [hn, hp, Nat.mul_left_comm]
    omega
  have hmod := Nat.div_add_mod num (den * 2 ^ e)
  rw [hdiv] at hmod
  rw [hraw, hmid, hparity, hn, roundTiesEven, hdiv]
  generalize den * 2 ^ e = d at hmod ⊢
  generalize num % d = r at hmod ⊢
  have hsplit : 2 * num = 2 * q * d + 2 * r := by rw [← hmod]; ring
  have hexpand : (2 * q + 1) * d = 2 * q * d + d := by ring
  rw [hsplit, hexpand]
  refine ⟨fun h => ?_, fun h => ?_, fun h => ?_⟩
  · rw [if_pos (by omega)]
  · rw [if_neg (by omega), if_pos (by omega), Nat.add_assoc]
  · rw [if_neg (by omega), if_neg (by omega), Nat.add_assoc]

/-- From above the midpoint of two neighbours on a value is rounded to the upper one at least. -/
theorem Fmt.lt_roundMag_of_mid_lt (f : Fmt) (hf : 1 ≤ f.frac) {n num den : Nat} (hd : 0 < den) (hn : n < f.infEnc)
    (h : (f.magOf n + f.magOf (n + 1)) * den < 2 * num) : n < f.roundMag num den := by
  rcases Nat.lt_or_ge num (f.magOf (n + 1) * den) with hhi | hhi
  · have hlo : f.magOf n * den ≤ num := by
      have := Nat.mul_le_mul_right den (f.magOf_strictMono (show n < n + 1 by omega)).le
      rw [Nat.add_mul] at h
      omega
    rw [f.roundMag_eq, (f.rawMag_between hf hd hlo hhi).2.1 h]
    omega
  · exact f.le_roundMag hd hn hhi

/-- The midpoint of two neighbours is rounded to the even one. -/
theorem Fmt.roundMag_of_mid (f : Fmt) (hf : 1 ≤ f.frac) {n num den : Nat} (hd : 0 < den) (hn : n < f.infEnc)
    (h : 2 * num = (f.magOf n + f.magOf (n + 1)) * den) : f.roundMag num den = n + n % 2 := by
  have hlt := Nat.mul_lt_mul_of_pos_right (f.magOf_strictMono (show n < n + 1 by omega)) hd
  rw [Nat.add_mul] at h
  rw [f.roundMag_eq, (f.rawMag_between (n := n) hf hd (by omega) (by omega)).2.2 (by rw [Nat.add_mul]; exact h)]
  omega

/-- The rounded number is at least as near as any other, and even where another one is as near. -/
theorem Fmt.roundMag_nearest (f : Fmt) (hf : 1 ≤ f.frac) {num den n : Nat} (hd : 0 < den)
    (hr : f.roundMag num den < f.infEnc) :
    let near : Int := (f.magOf (f.roundMag num den) : Int) * den - num
    let other : Int := (f.magOf n : Int) * den - num
    near.natAbs ≤ other.natAbs ∧ (near.natAbs = other.natAbs → n = f.roundMag num den ∨ f.roundMag num den % 2 = 0) := by
  intro near other
  obtain ⟨r, hrdef⟩ : ∃ r, r = f.roundMag num den := ⟨_, rfl⟩
  simp only [near, other, ← hrdef] at hr ⊢
  have scaled : ∀ {a b : Nat}, a < b → f.magOf a * den < f.magOf b * den := fun h =>
    Nat.mul_lt_mul_of_pos_right (f.magOf_strictMono h) hd
  have scaled_le : ∀ {a b : Nat}, a ≤ b → f.magOf a * den ≤ f.magOf b * den := fun h =>
    Nat.mul_le_mul_right den ((f.magOf_le_iff _ _).2 h)
  rw [← Nat.cast_mul, ← Nat.cast_mul]
  rcases Nat.lt_trichotomy n r with hlt | rfl | hgt
  · -- `r` is above `n`, so the value is not below the midpoint of `r - 1` and `r`
    obtain ⟨m, rfl⟩ : ∃ m, r = m + 1 := ⟨r - 1, by omega⟩
    have hmid : (f.magOf m + f.magOf (m + 1)) * den ≤ 2 * num := by
      by_contra hc
      have := f.roundMag_le_of_lt_mid hd (by omega) (Nat.lt_of_not_le hc)
      omega
    have htie : 2 * num = (f.magOf m + f.magOf (m + 1)) * den → (m + 1) % 2 = 0 := fun h => by
      have := f.roundMag_of_mid hf hd (by omega) h
      omega
    have hnm := scaled_le (Nat.le_of_lt_succ hlt)
    have hstep := scaled (Nat.lt_succ_self m)
    rw [Nat.add_mul] at hmid htie
    generalize f.magOf (m + 1) * den = u at *
    generalize f.magOf m * den = v at *
    generalize f.magOf n * den = w at *
    exact ⟨by omega, fun h => .inr (htie (by omega))⟩
  · exact ⟨le_rfl, fun _ => .inl rfl⟩
  · -- `r` is below `n`, so the value is not above the midpoint of `r` and `r + 1`
    have hmid : 2 * num ≤ (f.magOf r + f.magOf (r + 1)) * den := by
      by_contra hc
      have := f.lt_roundMag_of_mid_lt hf hd hr (Nat.lt_of_not_le hc)
      omega
    have htie : 2 * num = (f.magOf r + f.magOf (r + 1)) * den → r % 2 = 0 := fun h => by
      have := f.roundMag_of_mid hf hd hr h
      omega
    have hnm := scaled_le (Nat.succ_le_of_lt hgt)
    have hstep := scaled (Nat.lt_succ_self r)
    rw [Nat.add_mul] at hmid htie
    generalize f.magOf (r + 1) * den = u at *
    generalize f.magOf r * den = v at *
    generalize f.magOf n * den = w at *
    exact ⟨by omega, fun h => .inr (htie (by omega))⟩

/-- Overflow begins half a step above the largest number (60_exceptions.md R303). -/
theorem Fmt.roundMag_overflow (f : Fmt) (hf : 1 ≤ f.frac) (he : 1 ≤ f.ebits) {num den : Nat} (hd : 0 < den) :
    (2 * num < (f.magOf (f.infEnc - 1) + f.magOf f.infEnc) * den → f.roundMag num den < f.infEnc) ∧
      ((f.magOf (f.infEnc - 1) + f.magOf f.infEnc) * den ≤ 2 * num → f.roundMag num den = f.infEnc) := by
  obtain ⟨p, hp⟩ : ∃ p, 2 ^ f.frac = 2 * p := ⟨2 ^ (f.frac - 1), by rw [← pow_succ', Nat.sub_add_cancel hf]⟩
  have heven : f.infEnc % 2 = 0 := by
    rw [Fmt.infEnc, hp, Nat.mul_left_comm]
    exact Nat.mul_mod_right 2 _
  have hpos : 0 < f.infEnc := by
    have : 2 ≤ 2 ^ f.ebits := Nat.le_self_pow (by omega) 2
    exact Nat.mul_pos (by omega) (Nat.two_pow_pos _)
  obtain ⟨m, hm⟩ : ∃ m, f.infEnc = m + 1 := ⟨f.infEnc - 1, by omega⟩
  have hle := f.roundMag_le_inf num den
  rw [hm] at heven hle ⊢
  rw [Nat.add_sub_cancel]
  refine ⟨fun h => Nat.lt_succ_of_le (f.roundMag_le_of_lt_mid hd (by omega) h), fun h => ?_⟩
  rcases h.lt_or_eq with hlt | heq
  · have := f.lt_roundMag_of_mid_lt hf hd (by omega) hlt
    omega
  · have := f.roundMag_of_mid hf hd (by omega) heq.symm
    omega

/-- The magnitude of an encoding by its fields (R9). -/
theorem Fmt.magOf_fields (f : Fmt) (e : Nat) {m : Nat} (hm : m < 2 ^ f.frac) :
    f.magOf m = m ∧ f.magOf ((e + 1) * 2 ^ f.frac + m) = (2 ^ f.frac + m) * 2 ^ e := by
  refine ⟨if_pos (Nat.div_eq_of_lt hm), ?_⟩
  have hdiv : ((e + 1) * 2 ^ f.frac + m) / 2 ^ f.frac = e + 1 := by
    rw [Nat.mul_comm, Nat.mul_add_div (Nat.two_pow_pos _), Nat.div_eq_of_lt hm, Nat.add_zero]
  have hmod : ((e + 1) * 2 ^ f.frac + m) % 2 ^ f.frac = m := by rw [Nat.mul_comm, Nat.mul_add_mod, Nat.mod_eq_of_lt hm]
  rw [Fmt.magOf, hdiv, hmod, if_neg (Nat.succ_ne_zero e), Nat.add_sub_cancel]

/-! ### Operations on finite operands (R10) -/

theorem signedInt_not (s : Bool) (n : Nat) : signedInt (!s) n = -signedInt s n := by cases s <;> simp [signedInt]

theorem sumSign_signedInt {s t u : Bool} {n : Nat} (h0 : n = 0 → (s && t) = u) : sumSign s t (signedInt u n) = u := by
  rcases Nat.eq_zero_or_pos n with rfl | hn
  · rw [show signedInt u 0 = 0 by cases u <;> rfl, sumSign, if_pos rfl, h0 rfl]
  · have hne : signedInt u n ≠ 0 := fun h => by
      have := natAbs_signedInt u n
      rw [h] at this
      omega
    rw [sumSign, if_neg hne]
    cases u
    · simp [signedInt]
    · simpa [signedInt] using hn

/-- The sum of finite values is their exact sum, rounded once, with the sign of the sum. -/
theorem Fmt.add_fin_eq (f : Fmt) (s t : Bool) (x y : Nat) :
    let z := signedInt s x + signedInt t y
    f.add (.fin s x) (.fin t y) = some (f.signed (sumSign s t z) (f.roundMag z.natAbs 1)) := by
  intro z
  have result : ∀ (u : Bool) (n : Nat), z = signedInt u n → (n = 0 → (s && t) = u) →
      f.signed (sumSign s t z) (f.roundMag z.natAbs 1) = f.signed u (f.roundMag n 1) := fun u n hz h0 => by
    rw [hz, natAbs_signedInt, sumSign_signedInt h0]
  rw [Fmt.add]
  split
  · rename_i hst
    subst hst
    rw [result s (x + y) (by cases s <;> simp [z, signedInt]; ring) fun _ => Bool.and_self s]
  · rename_i hst
    obtain rfl : t = !s := by cases s <;> cases t <;> simp_all
    split
    · rw [result s (x - y) (by simp only [z, signedInt]; cases s <;> simp <;> omega) (by omega)]
    · split
      · rw [result (!s) (y - x) (by simp only [z, signedInt]; cases s <;> simp <;> omega) (by omega)]
      · obtain rfl : x = y := by omega
        rw [result false 0 (by simp only [z, signedInt]; cases s <;> simp) (by simp)]
        simp [f.roundMag_zero, Fmt.signed]

/-- The difference likewise. -/
theorem Fmt.sub_fin_eq (f : Fmt) (s t : Bool) (x y : Nat) :
    let z := signedInt s x - signedInt t y
    f.add (.fin s x) (Fp.fin t y).neg = some (f.signed (sumSign s (!t) z) (f.roundMag z.natAbs 1)) := by
  intro z
  have hz : z = signedInt s x + signedInt (!t) y := by rw [signedInt_not]; ring
  rw [hz]
  exact f.add_fin_eq s (!t) x y

theorem Fmt.div_fin_eq (f : Fmt) (s t : Bool) (x : Nat) {y : Nat} (hy : y ≠ 0) :
    f.div (.fin s x) (.fin t y) = some (f.signed (s != t) (f.roundMag (x * f.one) y)) := if_neg hy

/-- An integer below `2^53` is a binary64 (R10). -/
theorem unpack_float64 {n : Int} (h : n.natAbs < 2 ^ 53) :
    fmt64.unpack (float64 n).toNat = .fin (decide (n < 0)) (n.natAbs * fmt64.one) := by
  rw [fmt64_one]
  obtain ⟨hlt, hmag⟩ := fmt64.magOf_roundMag (s := n.natAbs) (e := 1074) h (by
    rw [magOf64_inf]
    calc n.natAbs * 2 ^ 1074 < 2 ^ 53 * 2 ^ 1074 := Nat.mul_lt_mul_of_pos_right h (Nat.two_pow_pos _)
      _ ≤ 2 ^ 2098 := by rw [← pow_add]; exact Nat.pow_le_pow_right (by omega) (by omega))
  rw [float64, fmt64_one, toNat_ofNat64 (fmt64.signed_lt _ (hlt.trans fmt64.infEnc_lt)), fmt64.unpack_signed _ hlt.le,
    fmt64.value_of_lt _ hlt, hmag]

/-! ### Flushing (R12) -/

theorem and_signBit {w : Nat} (v : BitVec (w + 1)) :
    v &&& BitVec.ofNat (w + 1) (2 ^ w) = if v.msb then BitVec.ofNat (w + 1) (2 ^ w) else 0 := by
  refine BitVec.eq_of_toNat_eq ?_
  have hpow : (BitVec.ofNat (w + 1) (2 ^ w)).toNat = 2 ^ w := by
    rw [BitVec.toNat_ofNat, Nat.mod_eq_of_lt (Nat.pow_lt_pow_right (by omega) (by omega))]
  rw [BitVec.toNat_and, hpow, Nat.and_two_pow, BitVec.msb_eq_getLsbD_last, Nat.add_sub_cancel, BitVec.getLsbD]
  cases v.toNat.testBit w
  · simp
  · rw [if_pos rfl, hpow, Bool.toNat_true, Nat.one_mul]

theorem ftz32_eq (v : F32) : ftz32 v =
    if 0 < v.toNat % 2 ^ 31 ∧ v.toNat % 2 ^ 31 < 2 ^ 23 then (if v.msb then 0x80000000 else 0x00000000) else v := by
  rw [ftz32, isSubnormal32, fmt32_signBit, fmt32_frac, show v &&& 0x80000000 = _ from and_signBit v]
  simp only [decide_eq_true_eq]
  rfl

theorem ftz64_eq (v : F64) : ftz64 v =
    if 0 < v.toNat % 2 ^ 63 ∧ v.toNat % 2 ^ 63 < 2 ^ 52 then (if v.msb then 0x8000000000000000 else 0x0000000000000000) else v := by
  rw [ftz64, isSubnormal64, fmt64_signBit, fmt64_frac, show v &&& 0x8000000000000000 = _ from and_signBit v]
  simp only [decide_eq_true_eq]
  rfl

end Sys2Proof.Machine

namespace Sys2Proof.Proofs
open Sys2Proof Sys2Proof.Machine

/-- Settles O34: the clauses on the formats hold for every format with a fraction and an exponent field, the operations are one rounding of
the exact result, and the exact conversions round nothing. -/
theorem roundingIsToNearestTiesToEven : Obligations.RoundingIsToNearestTiesToEven := by
  refine ⟨⟨fmt32_infEnc, fmt64_infEnc, fmt32_one, fmt64_one⟩, ?_, ?_, ?_, ?_, fun a s m h => (f64_finite h).1, ?_,
    fun n => unpack_float64, ftz32_eq, ftz64_eq⟩
  · intro f hf
    have hfrac : 1 ≤ f.frac := by rcases hf with rfl | rfl <;> decide
    have hebits : 1 ≤ f.ebits := by rcases hf with rfl | rfl <;> decide
    exact ⟨fun e m => f.magOf_fields e, fun s n => f.unpack_signed s, fun num den n hd hr _ => f.roundMag_nearest hfrac hd hr,
      fun num den => f.roundMag_overflow hfrac hebits⟩
  · intro a b s t x y ha hb sum diff
    simp only [add32, sub32, mul32, div32, ha, hb]
    rw [fmt32.add_fin_eq, fmt32.sub_fin_eq]
    exact ⟨rfl, rfl, rfl, fun hy => by rw [fmt32.div_fin_eq _ _ _ hy]; rfl⟩
  · intro a b s t x y ha hb sum diff
    simp only [add64, sub64, mul64, div64, ha, hb]
    rw [fmt64.add_fin_eq, fmt64.sub_fin_eq]
    exact ⟨rfl, rfl, rfl, fun hy => by rw [fmt64.div_fin_eq _ _ _ hy]; rfl⟩
  · intro x s m h
    rw [round32, h, Fmt.convert_fin, Nat.mul_one]
    rfl
  · intro n hn
    rw [unpack_float32 hn.le, fmt32_one]

end Sys2Proof.Proofs
end

section
/-! PROOFS. Comparisons by value, the clamp and the floor (00_scope.md R8, R10, R11) and the units that rest on them: delay lengths
(44_feedback_matrix.md R180), damping (42_damping.md), the clamped delay (40_delay_line.md R112) and the mix (43_fdn_core.md R162). -/

namespace Sys2Proof.Machine

/-! ### Comparisons (R10) -/

/-- A finite encoding has a place in the order, and its value is the value at that place. -/
theorem Fmt.order_of_unpack_fin (f : Fmt) {n x : Nat} {s : Bool} (h : f.unpack n = .fin s x) :
    ∃ o, f.order n = some o ∧ f.valueAt o = signedInt s x := by
  unfold Fmt.unpack at h
  dsimp only at h
  split at h
  · cases h
  · rename_i hle
    split at h
    · cases h
    · obtain ⟨rfl, rfl⟩ := Fp.fin.inj h
      refine ⟨signedInt (n / f.signBit % 2 == 1) (n % f.signBit), ?_, f.valueAt_signedInt _ _⟩
      rw [Fmt.order, if_neg hle]
      by_cases hs : n / f.signBit % 2 = 1 <;> simp [hs, signedInt]

theorem Fmt.valueAt_lt_iff (f : Fmt) (m n : Int) : f.valueAt m < f.valueAt n ↔ m < n := by
  rw [← Int.not_le, f.valueAt_le_iff, Int.not_le]

theorem Fmt.valueAt_inj (f : Fmt) {m n : Int} : f.valueAt m = f.valueAt n ↔ m = n := by
  rw [Int.le_antisymm_iff, Int.le_antisymm_iff, f.valueAt_le_iff, f.valueAt_le_iff]

/-- Comparisons of finite encodings are those of their values. -/
theorem Fmt.compare_fin (f : Fmt) {a b x y : Nat} {s t : Bool} (ha : f.unpack a = .fin s x) (hb : f.unpack b = .fin t y) :
    (f.le a b = true ↔ signedInt s x ≤ signedInt t y) ∧ (f.lt a b = true ↔ signedInt s x < signedInt t y) ∧
      (f.eq a b = true ↔ signedInt s x = signedInt t y) := by
  obtain ⟨o, ho, hx⟩ := f.order_of_unpack_fin ha
  obtain ⟨q, hq, hy⟩ := f.order_of_unpack_fin hb
  rw [← hx, ← hy, f.valueAt_le_iff, f.valueAt_lt_iff, f.valueAt_inj]
  simp [Fmt.le, Fmt.lt, Fmt.eq, ho, hq]

/-- No comparison holds where an operand has no place in the order. -/
theorem Fmt.compare_none (f : Fmt) {a b : Nat} (h : f.order a = none ∨ f.order b = none) :
    f.le a b = false ∧ f.lt a b = false ∧ f.eq a b = false := by
  rw [Fmt.le, Fmt.lt, Fmt.eq]
  rcases h with h | h
  · rw [h]
    cases f.order b <;> exact ⟨rfl, rfl, rfl⟩
  · rw [h]
    cases f.order a <;> exact ⟨rfl, rfl, rfl⟩

theorem order64_of_nan {a : F64} (h : isNaN64 a = true) : fmt64.order a.toNat = none := if_pos (of_decide_eq_true h)

/-- The places of the infinities bound every other place. -/
theorem le32_infinities {a : F32} (h : isNaN32 a = false) : le32 0xFF800000 a = true ∧ le32 a 0x7F800000 = true := by
  obtain ⟨o, ho⟩ := order32_of_not_nan h
  obtain ⟨hle, hsign⟩ := fmt32.order_some ho
  have hbound := natAbs_signedInt (a.toNat / fmt32.signBit % 2 == 1) (a.toNat % fmt32.signBit)
  rw [← hsign] at hbound
  have hneg : fmt32.order (0xFF800000 : F32).toNat = some (-2139095040) := by decide +kernel
  have hpos : fmt32.order (0x7F800000 : F32).toNat = some 2139095040 := by decide +kernel
  rw [fmt32_infEnc] at hle
  exact ⟨(le32_iff _ _).2 ⟨_, _, hneg, ho, by omega⟩, (le32_iff _ _).2 ⟨_, _, ho, hpos, by omega⟩⟩

/-! ### The clamp (R11) -/

theorem clampInt_eq (x lo hi : Int) : (hi < lo → clampInt x lo hi = lo) ∧ (lo ≤ hi → clampInt x lo hi = max lo (min x hi)) := by
  unfold clampInt
  dsimp only
  constructor <;> intro h <;> split_ifs <;> omega

theorem clamp32_of_nan {x : F32} (lo hi : F32) (h : isNaN32 x = true) : clamp32 x lo hi = lo := by simp [clamp32, h]

theorem clamp32_of_empty {x lo hi : F32} (h : le32 lo hi = false) : clamp32 x lo hi = lo := by
  rcases clamp32_cases x lo hi with he | ⟨hlo, he | ⟨he, hhi⟩⟩
  · exact he
  · rw [he, h] at hlo; cases hlo
  · rw [he] at hlo
    rw [le32_trans hlo hhi] at h
    cases h

theorem clamp32_of_below {x lo hi : F32} (hr : le32 lo hi = true) (h : le32 lo x = false) : clamp32 x lo hi = lo := by
  rcases clamp32_cases x lo hi with he | ⟨hlo, he | ⟨he, -⟩⟩
  · exact he
  · cases hx : isNaN32 x with
    | true => exact clamp32_of_nan lo hi hx
    | false =>
      have hxl : le32 x lo = true := (le32_total hx (le32_not_nan hr).1).resolve_right (by simp [h])
      simp [clamp32, hx, le32_trans hxl hr, h]
  · rw [he, h] at hlo; cases hlo

theorem clamp32_of_above {x lo hi : F32} (hr : le32 lo hi = true) (hx : isNaN32 x = false) (h : le32 x hi = false) :
    clamp32 x lo hi = hi := by simp [clamp32, hx, h, hr]

/-! ### The floor (R8) -/

/-- The floor of a finite value is the largest integer that is not above it. -/
theorem Fmt.floorInt_bounds (f : Fmt) {n m : Nat} {s : Bool} (h : f.unpack n = .fin s m) :
    f.floorInt n * f.one ≤ signedInt s m ∧ signedInt s m < (f.floorInt n + 1) * f.one := by
  have hone : 0 < f.one := Nat.two_pow_pos _
  rw [Fmt.floorInt, h]
  generalize f.one = k at hone ⊢
  cases s
  · have hlo := Nat.div_mul_le_self m k
    have hhi := Nat.lt_div_mul_add (a := m) hone
    simp only [signedInt, Bool.false_eq_true, if_false]
    constructor
    · exact_mod_cast hlo
    · rw [add_mul, one_mul]
      exact_mod_cast hhi
  · have hlo := Nat.div_mul_le_self (m + (k - 1)) k
    have hhi := Nat.lt_div_mul_add (a := m + (k - 1)) hone
    simp only [signedInt, if_true]
    generalize (m + (k - 1)) / k = q at hlo hhi ⊢
    have hlo' : (q : Int) * k ≤ m + (k - 1) := by
      have : ((q * k : Nat) : Int) ≤ ((m + (k - 1) : Nat) : Int) := by exact_mod_cast hlo
      push_cast [Nat.cast_sub hone] at this
      exact this
    have hhi' : (m : Int) ≤ q * k := by
      have : m ≤ q * k := by omega
      exact_mod_cast this
    constructor
    · rw [neg_mul]; omega
    · rw [add_mul, neg_mul, one_mul]; omega

/-! ### Delay lengths (44_feedback_matrix.md R180) -/

theorem matLengths_eq (cfg : Params) (fs : F64) (room : F32) (i : Fin 8) :
    ((matLengths cfg fs room)[i] : Int) = clampInt (lengthScaled cfg.primeBasis[i] room) 100 (lengthHi fs room) := by
  have hnonneg : 0 ≤ clampInt (lengthScaled cfg.primeBasis[i] room) 100 (lengthHi fs room) := by
    unfold clampInt
    dsimp only
    split <;> split <;> omega
  simp only [matLengths, Fin.getElem_fin, tab8_getElem]
  exact Int.toNat_of_nonneg hnonneg

/-! ### Damping (42_damping.md R140, R141) -/

theorem clamp32_of_nonpos {a : F32} (h : isNaN32 a = true ∨ le32 a zero32 = true) :
    clamp32 a zero32 one32 = zero32 ∨ clamp32 a zero32 one32 = 0x80000000 := by
  have hr : le32 zero32 one32 = true := by decide +kernel
  rcases h with h | h
  · exact .inl (clamp32_of_nan _ _ h)
  · cases hlo : le32 zero32 a with
    | false => exact .inl (clamp32_of_below hr hlo)
    | true =>
      rw [clamp32_of_mem hlo (le32_trans h hr)]
      obtain ⟨o, z, ho, hz, hle⟩ := (le32_iff _ _).1 h
      obtain ⟨z', o', hz', ho', hge⟩ := (le32_iff _ _).1 hlo
      have h0 : fmt32.order (zero32 : F32).toNat = some 0 := by decide +kernel
      obtain rfl : z = 0 := Option.some.inj (hz.symm.trans h0)
      obtain rfl : z' = 0 := Option.some.inj (hz'.symm.trans h0)
      obtain rfl : o' = o := Option.some.inj (ho'.symm.trans ho)
      obtain ⟨-, hsign⟩ := fmt32.order_some ho
      have hmag := natAbs_signedInt (a.toNat / fmt32.signBit % 2 == 1) (a.toNat % fmt32.signBit)
      rw [← hsign, fmt32_signBit] at hmag
      have hlt := a.isLt
      rcases Nat.lt_or_ge a.toNat (2 ^ 31) with hs | hs
      · exact .inl (BitVec.eq_of_toNat_eq (show a.toNat = 0 by omega))
      · exact .inr (BitVec.eq_of_toNat_eq (show a.toNat = 2 ^ 31 by omega))

theorem clamp32_of_one_le {a : F32} (h : le32 one32 a = true) : clamp32 a zero32 one32 = one32 := by
  have hr : le32 zero32 one32 = true := by decide +kernel
  cases hhi : le32 a one32 with
  | false => exact clamp32_of_above hr (le32_not_nan h).2 hhi
  | true =>
    rw [clamp32_of_mem (le32_trans hr h) hhi]
    obtain ⟨h1, h2⟩ := le32_pos (by decide) (by decide) h
    obtain ⟨h3, -⟩ := le32_pos (lt_of_lt_of_le (by decide) h1) h2 hhi
    exact BitVec.eq_of_toNat_eq (le_antisymm h3 h1)

theorem sub32_one_zero : sub32 one32 zero32 = one32 := by decide +kernel
theorem sub32_one_one : sub32 one32 one32 = zero32 := by decide +kernel

/-- +0.0 times a finite number is a zero. -/
theorem unpack_zero_mul32 {a : F32} (h : isFinite32 a = true) : ∃ t, fmt32.unpack (mul32 zero32 a).toNat = .fin t 0 := by
  obtain ⟨s, m, hm⟩ := (isFinite32_iff a).1 h
  have hr : fmt32.mul (fmt32.unpack (zero32 : F32).toNat) (fmt32.unpack a.toNat) = some (fmt32.signed (false != s) 0) := by
    rw [hm, unpack_zero32, Fmt.mul, Nat.zero_mul, fmt32.roundMag_zero (den := fmt32.one) (Nat.two_pow_pos _)]
  refine ⟨false != s, ?_⟩
  rw [show (mul32 zero32 a).toNat = fmt32.signed (false != s) 0 from (finish32 (fmt32.result_mul _ _) .mul32 _ _).2 _ hr]
  cases s <;> decide +kernel

/-- +0.0 plus a zero of either sign is +0.0. -/
theorem add32_zero_zero {z : F32} {t : Bool} (hz : fmt32.unpack z.toNat = .fin t 0) : add32 zero32 z = zero32 := by
  refine finish32_eq (fmt32.result_add _ _) ?_
  rw [hz, unpack_zero32]
  cases t <;> rfl

/-- A sum with a zero of either sign is the other operand, if that is no negative zero. -/
theorem add32_of_right_zero {a z : F32} {t : Bool} (h : isNaN32 a = false) (ha : a ≠ 0x80000000)
    (hz : fmt32.unpack z.toNat = .fin t 0) : add32 a z = a := by
  by_cases h0 : a = zero32
  · rw [h0, add32_zero_zero hz]
  · exact add32_zero_right h ha hz fun h => absurd (BitVec.eq_of_toNat_eq h) h0

end Sys2Proof.Machine

namespace Sys2Proof.Proofs
open Sys2Proof Sys2Proof.Machine

/-- Settles O35. -/
theorem clampFollowsItsLaw : Obligations.ClampFollowsItsLaw := by
  refine ⟨fun a b s t x y ha hb => ?_, fun a b s t x y ha hb => fmt64.compare_fin ha hb, fun a h => le32_infinities h,
    fun a b h => ?_, fun a b h => fmt64.compare_none (h.imp order64_of_nan order64_of_nan), clampInt_eq, fun x lo hi _ _ => ?_⟩
  · obtain ⟨hle, -, heq⟩ := fmt32.compare_fin ha hb
    exact ⟨hle, heq⟩
  · obtain ⟨hle, -, heq⟩ := fmt32.compare_none (h.imp (order32_eq_none_iff a).2 (order32_eq_none_iff b).2)
    exact ⟨hle, heq, congrArg not heq⟩
  · exact ⟨clamp32_of_nan lo hi, clamp32_of_empty, fun _ hr => clamp32_of_below hr, fun hx hr => clamp32_of_above hr hx,
      clamp32_of_mem⟩

/-- Settles O37: the clamp's laws for the range `[1, C-1]`, which is not empty. -/
theorem delaysAreClampedIntoRange : Obligations.DelaysAreClampedIntoRange := by
  intro cap l d hcap t
  have hr : le32 one32 (float32 (cap - 1)) = true := one_le_float32 (by omega)
  obtain ⟨hlo, hhi⟩ := clampDelay_mem hcap d
  exact ⟨hlo, hhi, fun h => h.elim (clamp32_of_nan _ _) (clamp32_of_below hr), fun hx => clamp32_of_above hr hx, clamp32_of_mem,
    rfl, rfl, rfl⟩

/-- Settles O41: at amount 0 or 1 one product is a zero and the other one its factor. -/
theorem dampingAtItsCorners : Obligations.DampingAtItsCorners := by
  refine ⟨fun a h => ?_, fun a h => ?_, fun z x hz hx hsub h0 hn => ?_, fun z x hz hx hsub h0 hn => ?_⟩
  · rcases clamp32_of_nonpos h with hc | hc <;> rw [dampCoeff, hc]
    · exact sub32_one_zero
    · decide +kernel
  · rw [dampCoeff, clamp32_of_one_le h, sub32_one_one]
  · obtain ⟨t, ht⟩ := unpack_zero_mul32 hx
    have hnan := not_nan_of_finite32 hz
    rw [dampProcess, sub32_one_zero, mul32_one_left hnan, add32_zero_left hnan h0 hn ht, ftz32_of_not_subnormal hsub]
  · obtain ⟨t, ht⟩ := unpack_zero_mul32 hz
    have hnan := not_nan_of_finite32 hx
    rw [dampProcess, sub32_one_one, mul32_one_left hnan, add32_of_right_zero hnan hn ht, ftz32_of_not_subnormal hsub]

/-- Settles O42. -/
theorem lengthsLieBetweenTheirBounds : Obligations.LengthsLieBetweenTheirBounds := by
  refine ⟨fun x s m h => fmt64.floorInt_bounds h, ?_⟩
  intro cfg fs room i hi a
  have hlen : ((matLengths cfg fs room)[i] : Int) = clampInt a 100 hi := matLengths_eq cfg fs room i
  obtain ⟨hempty, hrange⟩ := clampInt_eq a 100 hi
  generalize (matLengths cfg fs room)[i] = n at *
  generalize clampInt a 100 hi = c at *
  generalize hi = h at *
  generalize a = b at *
  rcases lt_or_ge h 100 with hlt | hge
  · have := hempty hlt
    omega
  · have := hrange hge
    omega

/-- Settles O46: a wrapped phase that is out of range is replaced. -/
theorem phaseStaysInRange : Obligations.PhaseStaysInRange := by
  intro fs cap u x
  show le64 zero64 (wrapPhase _) = true ∧ lt64 (wrapPhase _) twoPi = true
  unfold wrapPhase
  dsimp only
  split
  · rename_i h
    exact (Bool.and_eq_true _ _).mp h
  · decide +kernel

/-- Settles O53: at mix 0 or 1 one product is a zero and the other one its factor. -/
theorem mixAtItsEnds : Obligations.MixAtItsEnds := by
  refine ⟨fun x w hx hn hw => ?_, fun x w hx hw h0 hn => ?_⟩
  · obtain ⟨t, ht⟩ := unpack_mul32_zero hw
    rw [fdnMix, sub32_one_zero, mul32_one_right hx, add32_of_right_zero hx hn ht]
  · obtain ⟨t, ht⟩ := unpack_mul32_zero hx
    rw [fdnMix, sub32_one_one, mul32_one_right hw, add32_zero_left hw h0 hn ht]

end Sys2Proof.Proofs
end

section
/-! PROOFS. The units of the path bit by bit: buffer cells (20_memory.md R60), the all-pass (41_allpass.md R131), the feedback matrix
(44_feedback_matrix.md R182, R184, R185), a NaN's way through a frame (70_reset_and_hazards.md R343), and what one frame step does to the
whole state (47_engine_facade.md R253, 45_modulated_delay.md R207). -/

namespace Sys2Proof.Machine

/-! ### Negation and the all-pass (41_allpass.md R131) -/

/-- Negation flips the sign and keeps the magnitude, a NaN's as well. -/
theorem unpack_neg32 (a : F32) : fmt32.unpack (neg32 a).toNat = (fmt32.unpack a.toNat).neg := by
  have hlt : a.toNat < 2 ^ 32 := a.isLt
  have hmod : (neg32 a).toNat % fmt32.signBit = a.toNat % fmt32.signBit := by
    rw [fmt32_signBit, neg32, BitVec.toNat_xor, Nat.xor_mod_two_pow, show (0x80000000 : F32).toNat % 2 ^ 31 = 0 by decide, Nat.xor_zero]
  have hdiv : (neg32 a).toNat / fmt32.signBit % 2 = 1 - a.toNat / fmt32.signBit % 2 := by
    rw [fmt32_signBit, neg32, BitVec.toNat_xor, Nat.xor_div_two_pow, show (0x80000000 : F32).toNat / 2 ^ 31 = 1 by decide]
    have hq : a.toNat / 2 ^ 31 < 2 := by omega
    interval_cases a.toNat / 2 ^ 31 <;> rfl
  simp only [Fmt.unpack, hmod, hdiv]
  have hbit : (1 - a.toNat / fmt32.signBit % 2 == 1) = !(a.toNat / fmt32.signBit % 2 == 1) := by
    rcases Nat.mod_two_eq_zero_or_one (a.toNat / fmt32.signBit) with h | h <;> rw [h] <;> rfl
  rw [hbit, apply_ite Fp.neg, apply_ite Fp.neg]
  rfl

theorem Fmt.value_not (f : Fmt) (s : Bool) (n : Nat) : f.value (!s) n = (f.value s n).neg := by
  unfold Fmt.value
  split <;> rfl

/-- A product with a negated factor has the other sign, or is a NaN as the product is. -/
theorem Fmt.mul_neg_left (f : Fmt) (u v : Fp) : f.mul u v = none ∧ f.mul u.neg v = none ∨
    ∃ s n, n ≤ f.infEnc ∧ f.mul u v = some (f.signed s n) ∧ f.mul u.neg v = some (f.signed (!s) n) := by
  rcases u with _ | s | ⟨s, x⟩ <;> rcases v with _ | t | ⟨t, y⟩
  · exact .inl ⟨rfl, rfl⟩
  · exact .inl ⟨rfl, rfl⟩
  · exact .inl ⟨rfl, rfl⟩
  · exact .inl ⟨rfl, rfl⟩
  · exact .inr ⟨s != t, _, le_rfl, rfl, by cases s <;> cases t <;> rfl⟩
  · by_cases hy : y = 0
    · exact .inl ⟨if_pos hy, if_pos hy⟩
    · exact .inr ⟨s != t, _, le_rfl, if_neg hy, (if_neg hy).trans (by cases s <;> cases t <;> rfl)⟩
  · exact .inl ⟨rfl, rfl⟩
  · by_cases hx : x = 0
    · exact .inl ⟨if_pos hx, if_pos hx⟩
    · exact .inr ⟨s != t, _, le_rfl, if_neg hx, (if_neg hx).trans (by cases s <;> cases t <;> rfl)⟩
  · exact .inr ⟨s != t, _, f.roundMag_le_inf _ _, rfl, by cases s <;> cases t <;> rfl⟩

theorem unpack_mul32_neg32 (g x : F32) : fmt32.unpack (mul32 (neg32 g) x).toNat = (fmt32.unpack (mul32 g x).toNat).neg := by
  rcases fmt32.mul_neg_left (fmt32.unpack g.toNat) (fmt32.unpack x.toNat) with ⟨h, h'⟩ | ⟨s, n, hn, h, h'⟩ <;>
    rw [← unpack_neg32] at h'
  · have hnan : fmt32.unpack (mul32 g x).toNat = .nan := (unpack_nan_iff32 _).2 (by rw [isNaN32_mul32, h]; rfl)
    have hnan' : fmt32.unpack (mul32 (neg32 g) x).toNat = .nan := (unpack_nan_iff32 _).2 (by rw [isNaN32_mul32, h']; rfl)
    rw [hnan, hnan']
    rfl
  · rw [show (mul32 g x).toNat = _ from (finish32 (fmt32.result_mul _ _) .mul32 _ _).2 _ h,
      show (mul32 (neg32 g) x).toNat = _ from (finish32 (fmt32.result_mul _ _) .mul32 _ _).2 _ h',
      fmt32.unpack_signed _ hn, fmt32.unpack_signed _ hn, fmt32.value_not]

theorem Fmt.add_comm (f : Fmt) (u v : Fp) : f.add u v = f.add v u := by
  cases u with
  | nan => exact (f.add_nan_right v).symm
  | inf s => cases v with
    | nan | fin => rfl
    | inf t =>
      by_cases h : s = t
      · rw [h]
      · rw [Fmt.add, Fmt.add, if_neg h, if_neg (Ne.symm h)]
  | fin s x => cases v with
    | nan | inf => rfl
    | fin t y =>
      rw [Fmt.add, Fmt.add]
      by_cases h : s = t
      · rw [if_pos h, if_pos h.symm, h, Nat.add_comm]
      · rw [if_neg h, if_neg (Ne.symm h)]
        rcases lt_trichotomy x y with hlt | heq | hgt
        · rw [if_neg hlt.le.not_gt, if_pos hlt, if_pos hlt]
        · rw [if_neg heq.not_gt, if_neg heq.not_lt, if_neg heq.not_lt, if_neg heq.not_gt]
        · rw [if_pos hgt, if_neg hgt.le.not_gt, if_pos hgt]

/-- A difference that is no NaN is the sum with the negated product, in either order. -/
theorem add32_neg_product {g x d : F32} (h : isNaN32 (sub32 d (mul32 g x)) = false) :
    add32 (mul32 (neg32 g) x) d = sub32 d (mul32 g x) := by
  rw [isNaN32_sub32, Option.isNone_eq_false_iff, Option.isSome_iff_exists] at h
  obtain ⟨n, hn⟩ := h
  have hsub := (finish32 (fmt32.result_add _ _) .sub32 d.toNat (mul32 g x).toNat).2 n hn
  rw [fmt32.add_comm, ← unpack_mul32_neg32] at hn
  exact finish32_eq (fmt32.result_add _ _) (hn.trans (congrArg some hsub.symm))

/-! ### The feedback matrix (44_feedback_matrix.md R185) -/

/-- A row's terms in their order: that of line 0, then those of the other lines. -/
theorem matRow_eq (row o : Vector F32 8) :
    matRow row o = ([1, 2, 3, 4, 5, 6, 7] : List (Fin 8)).foldl (fun a k => add32 a (mul32 row[k] o[k]))
      (mul32 row[(0 : Fin 8)] o[(0 : Fin 8)]) := rfl

theorem matApply_eq_matRow (m : Vector (Vector F32 8) 8) (o : Vector F32 8) (i : Fin 8) : (matApply m o)[i] = matRow m[i] o := by
  simp [matApply]

theorem mem_allLines : ∀ i : Fin 8, i = 0 ∨ i ∈ ([1, 2, 3, 4, 5, 6, 7] : List (Fin 8)) := by decide
theorem mem_oddLines : ∀ i : Fin 8, i.val % 2 = 1 → i = 1 ∨ i ∈ ([3, 5, 7] : List (Fin 8)) := by decide
theorem mem_evenLines : ∀ i : Fin 8, ¬ i.val % 2 = 1 → i = 0 ∨ i ∈ ([2, 4, 6] : List (Fin 8)) := by decide

/-- A sum of zeros and one other term is that term, whether it is already in the accumulator or still to come. -/
theorem foldl_add32_single {p : Fin 8 → F32} {j : Fin 8} (hnan : isNaN32 (p j) = false) (h0 : p j ≠ zero32) (hn : p j ≠ 0x80000000)
    (hz : ∀ k, k ≠ j → ∃ t, fmt32.unpack (p k).toNat = .fin t 0) {l : List (Fin 8)} (hl : l.Nodup) {acc : F32}
    (h : acc = p j ∧ j ∉ l ∨ (∃ t, fmt32.unpack acc.toNat = .fin t 0) ∧ j ∈ l) :
    l.foldl (fun a k => add32 a (p k)) acc = p j := by
  induction l generalizing acc with
  | nil =>
    rcases h with ⟨h, -⟩ | ⟨-, h⟩
    · exact h
    · cases h
  | cons k l ih =>
    obtain ⟨hk, hl⟩ := List.nodup_cons.1 hl
    refine ih hl ?_
    rcases h with ⟨rfl, hj⟩ | ⟨⟨s, hs⟩, hj⟩
    · rw [List.mem_cons, not_or] at hj
      obtain ⟨t, ht⟩ := hz k (Ne.symm hj.1)
      exact .inl ⟨add32_of_right_zero hnan hn ht, hj.2⟩
    · by_cases he : k = j
      · subst he
        exact .inl ⟨add32_zero_left hnan h0 hn hs, hk⟩
      · obtain ⟨t, ht⟩ := hz k he
        exact .inr ⟨unpack_add32_zeros hs ht, (List.mem_cons.1 hj).resolve_left (Ne.symm he)⟩

/-- A NaN in the accumulator or in a term still to come makes the sum a NaN. -/
theorem isNaN32_foldl_add32 {p : Fin 8 → F32} {j : Fin 8} (hj : isNaN32 (p j) = true) {l : List (Fin 8)} {acc : F32}
    (h : isNaN32 acc = true ∨ j ∈ l) : isNaN32 (l.foldl (fun a k => add32 a (p k)) acc) = true := by
  induction l generalizing acc with
  | nil => exact h.resolve_right List.not_mem_nil
  | cons k l ih =>
    refine ih ?_
    rcases h with h | h
    · exact .inl (isNaN32_add32_left _ h)
    · rcases List.mem_cons.1 h with rfl | h
      · exact .inl (isNaN32_add32_right _ hj)
      · exact .inr h

/-- A NaN among the terms of a sum makes the sum a NaN. -/
theorem isNaN32_sum {p : Fin 8 → F32} {j i : Fin 8} (hj : isNaN32 (p j) = true) {l : List (Fin 8)} (h : j = i ∨ j ∈ l) :
    isNaN32 (l.foldl (fun a k => add32 a (p k)) (p i)) = true :=
  isNaN32_foldl_add32 hj (h.imp_left fun (h : j = i) => by rwa [← h])

theorem matRow_unit {row : Vector F32 8} {j : Fin 8} (hrow : ∀ k : Fin 8, isFinite32 row[k] = true) (h0 : row[j] ≠ zero32)
    (hn : row[j] ≠ 0x80000000) : matRow row (tab8 fun k => if k = j then one32 else zero32) = row[j] := by
  let p : Fin 8 → F32 := fun k => mul32 row[k] (tab8 fun k => if k = j then one32 else zero32)[k]
  have hp : p j = row[j] := by
    simp only [p, Fin.getElem_fin, tab8_getElem, Fin.eta, if_true]
    exact mul32_one_right (not_nan_of_finite32 (hrow j))
  have hz : ∀ k, k ≠ j → ∃ t, fmt32.unpack (p k).toNat = .fin t 0 := by
    intro k hk
    simp only [p, Fin.getElem_fin, tab8_getElem, Fin.eta, if_neg hk]
    exact unpack_mul32_zero (hrow k)
  rw [matRow_eq, ← hp]
  rw [← hp] at h0 hn
  refine foldl_add32_single (p := p) ?_ h0 hn hz (by decide) ?_
  · rw [hp]
    exact not_nan_of_finite32 (hrow j)
  · by_cases hj : j = 0
    · subst hj
      exact .inl ⟨rfl, by decide⟩
    · exact .inr ⟨hz 0 (Ne.symm hj), (mem_allLines j).resolve_left hj⟩

theorem isNaN32_matRow (row : Vector F32 8) {o : Vector F32 8} {j : Fin 8} (h : isNaN32 o[j] = true) :
    isNaN32 (matRow row o) = true := by
  have hp : isNaN32 (mul32 row[j] o[j]) = true := isNaN32_mul32_right _ h
  rw [matRow_eq]
  exact isNaN32_sum (p := fun k => mul32 row[k] o[k]) hp (mem_allLines j)

/-! ### A NaN's way through a frame (70_reset_and_hazards.md R343) -/

theorem isNaN32_channelOutput (r : Reverb) (x : F32) {w : F32} (h : isNaN32 w = true) : isNaN32 (channelOutput r x w) = true :=
  isNaN32_add32_right _ (isNaN32_mul32_left _ h)

/-- The sums of the wet signal (R160, R161): over all lines, over the odd ones and over the even ones. -/
theorem isNaN32_lineSum {z : Vector F32 8} {i : Fin 8} (h : isNaN32 z[i] = true) :
    isNaN32 (add32 (add32 (add32 (add32 (add32 (add32 (add32 z[0] z[1]) z[2]) z[3]) z[4]) z[5]) z[6]) z[7]) = true := by
  have hsum := isNaN32_sum (p := fun k => z[k]) h (mem_allLines i)
  exact hsum

@[inherit_doc isNaN32_lineSum]
theorem isNaN32_oddLineSum {z : Vector F32 8} {i : Fin 8} (h : isNaN32 z[i] = true) (hi : i.val % 2 = 1) :
    isNaN32 (add32 (add32 (add32 z[1] z[3]) z[5]) z[7]) = true := by
  have hsum := isNaN32_sum (p := fun k => z[k]) h (mem_oddLines i hi)
  exact hsum

@[inherit_doc isNaN32_lineSum]
theorem isNaN32_evenLineSum {z : Vector F32 8} {i : Fin 8} (h : isNaN32 z[i] = true) (hi : ¬ i.val % 2 = 1) :
    isNaN32 (add32 (add32 (add32 z[0] z[2]) z[4]) z[6]) = true := by
  have hsum := isNaN32_sum (p := fun k => z[k]) h (mem_evenLines i hi)
  exact hsum

end Sys2Proof.Machine

namespace Sys2Proof.Proofs
open Sys2Proof Sys2Proof.Machine

/-- Settles O36. -/
theorem cellReadsGiveTheLastWrite : Obligations.CellReadsGiveTheLastWrite :=
  fun _ _ hm => ⟨fun k j v hk => ⟨cellRead_cellWrite hm k v j, CellMem.wf_cellWrite hm hk v⟩, fun _ hm' h => cells_ext hm hm' h⟩

/-- Settles O40: the negated product is the product's negation, so the sum with it is the difference. -/
theorem allPassSubtractionForm : Obligations.AllPassSubtractionForm :=
  fun cap _ _ l => ⟨rfl, add32_neg_product, .push cap l _, rfl, fun _ hm => cellRead_cellWrite_self hm _⟩

/-- Settles O43: the entries of `H` in quarters, whose exact square is the identity. -/
theorem householderIsItsOwnInverse : Obligations.HouseholderIsItsOwnInverse := by
  refine ⟨by decide +kernel, by decide +kernel, by decide +kernel, fun dg i j => ?_⟩
  simp only [matScale, Fin.getElem_fin, tab8_getElem]
  rfl

/-- Settles O44: a sum of zeros and one other term is that term, and a NaN term makes the sum a NaN. -/
theorem naNReachesEveryMatrixOutput : Obligations.NaNReachesEveryMatrixOutput := by
  refine fun m => ⟨fun o i => matApply_getElem m o i, fun i j hrow h0 hn => ?_, fun o j h i => ?_⟩
  · rw [matApply_eq_matRow]
    exact matRow_unit hrow h0 hn
  · rw [matApply_eq_matRow]
    exact isNaN32_matRow m[i] h

/-- Settles O45: the new state is a sum with a multiple of the old one, and the wet signal a sum with the new one. -/
theorem naNStateStays : Obligations.NaNStateStays := by
  intro cfg fs cap k r x i hi
  have hframe := fdnFrame_processed cfg fs cap k r x
  have hz : isNaN32 (fdnFrame cfg fs cap k r x).1.z[i] = true := by
    rw [hframe.z i]
    exact isNaN32_ftz32 (isNaN32_add32_right _ (isNaN32_mul32_right _ hi))
  refine ⟨hz, ?_⟩
  have hout := hframe.out
  cases x with
  | mono x =>
    rw [hout]
    exact isNaN32_channelOutput _ _ (isNaN32_mul32_right _ (isNaN32_lineSum hz))
  | stereo l r' =>
    rw [hout]
    dsimp only
    split
    · rename_i hodd
      exact isNaN32_channelOutput _ _ (isNaN32_mul32_right _ (isNaN32_oddLineSum hz hodd))
    · rename_i heven
      exact isNaN32_channelOutput _ _ (isNaN32_mul32_right _ (isNaN32_evenLineSum hz heven))

/-- Settles O47: a frame step of an unbypassed PROC is `FDN.FRAME` on the words taken. -/
theorem processedFrameStoresAtTheCursors : Obligations.ProcessedFrameStoresAtTheCursors := by
  intro s t ch n hin hbyp hstep
  rcases frameStep_cases hstep with ⟨ch', n', x, rest, hin', htake, -, rfl⟩ | ⟨n', x, rest, hin', -⟩
  · obtain ⟨rfl, rfl⟩ : ch = ch' ∧ n = n' := by simpa [hin] using hin'
    obtain ⟨hq, hlen⟩ := takeFrame_some htake
    obtain ⟨-, -, hpre, haplen, hap, hfdn⟩ := fdnFrame_lines s.cfg s.audio.fs s.audio.cap s.audio.k s.reverb x
    have hframe := fdnFrame_processed s.cfg s.audio.fs s.audio.cap s.audio.k s.reverb x
    rw [← pathFrame_of_not_bypL hbyp] at hpre haplen hap hfdn hframe
    exact ⟨x, (pathFrame s x).2, hlen, (pathFrame_words_length s x).trans hlen, hq, rfl, rfl, rfl, rfl, rfl, rfl, rfl, hframe, hpre,
      haplen, hap, hfdn⟩
  · simp [hin] at hin'

/-- Settles O48: a frame step of MPROC is `MOD.PROCESS` on the word taken. -/
theorem modulatedFrameStoresAtItsCursor : Obligations.ModulatedFrameStoresAtItsCursor := by
  intro s t n hin hstep
  rcases frameStep_cases hstep with ⟨ch, n', x, rest, hin', -⟩ | ⟨n', x, rest, hin', hq, -, rfl⟩
  · simp [hin] at hin'
  · obtain rfl : n = n' := by simpa [hin] using hin'
    exact ⟨x, _, hq, rfl, rfl, rfl, rfl, rfl, rfl, rfl, rfl, rfl, rfl, .push_set _ _ _ _⟩

end Sys2Proof.Proofs
end

section
/-! PROOFS. The tap of a delay line in terms of the values pushed into it (40_delay_line.md R111, R113, R119, R120). -/

namespace Sys2Proof.Machine

/-! ### The cursor -/

/-- Fewer steps than there are cells do not bring the cursor back to where it was. -/
theorem cursor_add_ne {w n cap : Nat} (hw : w < cap) (h0 : 0 < n) (hn : n < cap) : (w + n) % cap ≠ w := by
  rcases Nat.lt_or_ge (w + n) cap with h | h
  · rw [Nat.mod_eq_of_lt h]; omega
  · rw [Nat.mod_eq_sub_mod h, Nat.mod_eq_of_lt (by omega)]; omega

/-- The cell `n` steps behind the cursor is where the cursor was before `n` steps. -/
theorem cursor_add_sub {w n cap : Nat} (hw : w < cap) (hn : n < cap) : ((w + n) % cap + cap - n) % cap = w := by
  rcases Nat.lt_or_ge (w + n) cap with h | h
  · rw [Nat.mod_eq_of_lt h, show w + n + cap - n = w + cap by omega, Nat.add_mod_right, Nat.mod_eq_of_lt hw]
  · rw [Nat.mod_eq_sub_mod h, Nat.mod_eq_of_lt (a := w + n - cap) (by omega), show w + n - cap + cap - n = w by omega,
      Nat.mod_eq_of_lt hw]

/-! ### A sequence of pushes -/

@[simp] theorem pushes_d (cap : Nat) (zs : List F32) (l : DelayLine) : (zs.foldl (dlPush cap) l).d = l.d := by
  induction zs generalizing l with
  | nil => rfl
  | cons z zs ih => exact ih _

theorem pushes_w {cap : Nat} (zs : List F32) {l : DelayLine} (hw : l.w < cap) :
    (zs.foldl (dlPush cap) l).w = (l.w + zs.length) % cap := by
  induction zs generalizing l with
  | nil => exact (Nat.mod_eq_of_lt hw).symm
  | cons z zs ih =>
    rw [List.foldl_cons, ih (Nat.mod_lt _ (by omega)), dlPush_w, Nat.mod_add_mod, List.length_cons]
    congr 1
    omega

/-- Pushes keep the cells that the cursor does not pass. -/
theorem cellRead_pushes_ne {cap c : Nat} (zs : List F32) {l : DelayLine} (hw : l.w < cap)
    (h : ∀ i < zs.length, (l.w + i) % cap ≠ c) : cellRead (zs.foldl (dlPush cap) l).cells c = cellRead l.cells c := by
  induction zs generalizing l with
  | nil => rfl
  | cons z zs ih =>
    have hfirst : c ≠ l.w := by
      have := h 0 (by simp)
      rwa [Nat.add_zero, Nat.mod_eq_of_lt hw, ne_comm] at this
    rw [List.foldl_cons, ih (Nat.mod_lt _ (by omega)) fun i hi => ?_, dlPush_cells, cellRead_cellWrite_ne hfirst]
    rw [dlPush_w, Nat.mod_add_mod, Nat.add_right_comm, Nat.add_assoc]
    exact h (i + 1) (by simpa using hi)

/-- The cell that a push stored to reads the value pushed, flushed, until the cursor comes round to it. -/
theorem cellRead_pushes {cap i : Nat} {zs : List F32} (hi : i < zs.length) (hlen : zs.length ≤ cap) {l : DelayLine} (hw : l.w < cap)
    (hm : CellMem.wf cap l.cells = true) : cellRead (zs.foldl (dlPush cap) l).cells ((l.w + i) % cap) = ftz32 zs[i] := by
  induction zs generalizing i l with
  | nil => cases hi
  | cons z zs ih =>
    rw [List.length_cons] at hi hlen
    have hw' : (dlPush cap l z).w < cap := Nat.mod_lt _ (by omega)
    cases i with
    | zero =>
      rw [Nat.add_zero, Nat.mod_eq_of_lt hw, List.foldl_cons, cellRead_pushes_ne zs hw' fun j hj => ?_]
      · exact cellRead_cellWrite_self hm _
      · rw [dlPush_w, Nat.mod_add_mod, Nat.add_assoc]
        exact cursor_add_ne hw (by omega) (by omega)
    | succ i =>
      have hrest := ih (i := i) (l := dlPush cap l z) (by omega) (by omega) hw' (CellMem.wf_cellWrite hm hw _)
      rwa [dlPush_w, Nat.mod_add_mod, Nat.add_assoc, Nat.add_comm 1 i] at hrest

/-! ### The tap (R111) -/

theorem le_ceilDiv_mul (x : Nat) {k : Nat} (hk : 0 < k) : x ≤ (x + (k - 1)) / k * k := by
  have := Nat.lt_div_mul_add (a := x + (k - 1)) hk
  omega

/-- `k = ceil(D)` of a legal delay is in `[1, C-1]`, and `D` lies in `(k - 1, k]`. -/
theorem ceil_delay_bounds {cap : Nat} (hcap : cap ≤ 2 ^ 24) {d : F32} (h1 : le32 one32 d = true)
    (h2 : le32 d (float32 (cap - 1)) = true) : ∃ k : Nat, ceil32 d = k ∧ 1 ≤ k ∧ k ≤ cap - 1 ∧ le32 d (float32 k) = true ∧
      le32 d (float32 (k - 1)) = false := by
  obtain ⟨hu, hone, hlt, hlo, hhi⟩ := legal_delay hcap h1 h2
  have hp : 0 < 2 ^ 149 := Nat.two_pow_pos _
  have hk1 : 1 ≤ (fmt32.magOf d.toNat + (2 ^ 149 - 1)) / 2 ^ 149 := le_ceilDiv hp (by rwa [Nat.one_mul])
  have hk2 : (fmt32.magOf d.toNat + (2 ^ 149 - 1)) / 2 ^ 149 ≤ cap - 1 := ceilDiv_le hp hhi
  refine ⟨_, by rw [ceil32, fmt32.ceilInt_fin hu, fmt32_one], hk1, hk2, le32_of_toNat_le ?_ (toNat_float32_le _), ?_⟩
  · rw [← fmt32.magOf_le_iff, (magOf_float32 (by omega)).2]
    exact le_ceilDiv_mul _ hp
  · rw [Bool.eq_false_iff]
    intro hle
    obtain ⟨hge, -⟩ := le32_pos (lt_of_lt_of_le (by decide) hone) hlt.le hle
    rw [← fmt32.magOf_le_iff, (magOf_float32 (by omega)).2] at hge
    have := ceilDiv_le hp hge
    omega

theorem tapOld_eq {cap k : Nat} {l : DelayLine} (hk : tapCeil l = k) (hle : k ≤ l.w + cap) :
    tapOld cap l = (l.w + cap - k) % cap := by
  have hint : ((l.w : Int) - k) % cap = ((l.w + cap - k : Nat) : Int) % cap := by
    rw [Nat.cast_sub hle, Nat.cast_add, add_sub_right_comm, Int.add_emod_right]
  rw [tapOld, hk, hint, ← Int.natCast_mod, Int.toNat_natCast]

/-- The tap of a line by its cells: the older neighbour, or the weighted sum of both. -/
theorem dlPeek_eq {cap k : Nat} {l : DelayLine} (hk : tapCeil l = k) (hle : k ≤ l.w + cap) :
    dlPeek cap l = if eq32 (sub32 (float32 k) l.d) zero32 then cellRead l.cells ((l.w + cap - k) % cap)
      else add32 (mul32 (cellRead l.cells ((l.w + cap - k) % cap)) (sub32 one32 (sub32 (float32 k) l.d)))
        (mul32 (cellRead l.cells (((l.w + cap - k) % cap + 1) % cap)) (sub32 (float32 k) l.d)) := by
  simp only [dlPeek, dlTap, tapNew, tapFrac, tapOld_eq hk hle, hk, Int.toNat_natCast]

theorem sub32_float32_self {n : Nat} (h : n ≤ 2 ^ 24) : sub32 (float32 n) (float32 n) = zero32 := by
  refine finish32_eq (fmt32.result_add _ _) ?_
  rw [unpack_float32 h]
  simp [Fp.neg, Fmt.add]

/-- An integer delay reads one cell (R120). -/
theorem dlPeek_of_integer {cap d : Nat} {l : DelayLine} (hd : l.d = float32 d) (hd2 : d ≤ 2 ^ 24) (hle : d ≤ l.w + cap) :
    dlPeek cap l = cellRead l.cells ((l.w + cap - d) % cap) := by
  have hk : tapCeil l = d := by rw [tapCeil, hd, ceil32_float32 hd2]
  have hfrac : eq32 (sub32 (float32 d) l.d) zero32 = true := by
    rw [hd, sub32_float32_self hd2]
    decide +kernel
  rw [dlPeek_eq hk hle, if_pos hfrac]

end Sys2Proof.Machine

namespace Sys2Proof.Proofs
open Sys2Proof Sys2Proof.Machine

/-- Settles O39: the cells that the cursor passed hold the values pushed, and the tap reads those `k` and `k - 1` behind it. -/
theorem integerDelayIsPure : Obligations.IntegerDelayIsPure := by
  refine ⟨fun cap d l hcap h1 h2 hd hw hm => ⟨fun x ys hlen => ?_, fun ys hlen => ?_⟩, ?_⟩
  · have hpeek := dlPeek_of_integer (cap := cap) (l := (x :: ys).foldl (dlPush cap) l) ((pushes_d ..).trans hd) (by omega) (by omega)
    rw [pushes_w (x :: ys) hw, List.length_cons, hlen, cursor_add_sub hw (by omega)] at hpeek
    have hcell := cellRead_pushes (i := 0) (zs := x :: ys) (by simp) (by simp; omega) hw hm
    rw [Nat.add_zero, Nat.mod_eq_of_lt hw] at hcell
    exact hpeek.trans hcell
  · have hpeek := dlPeek_of_integer (cap := cap) (l := ys.foldl (dlPush cap) (dlClear l)) ((pushes_d ..).trans hd) (by omega) (by omega)
    have hw0 : (dlClear l).w < cap := by simp; omega
    rw [pushes_w ys hw0, dlClear_w, Nat.zero_add, Nat.mod_eq_of_lt (a := ys.length) (by omega),
      Nat.mod_eq_of_lt (a := ys.length + cap - d) (by omega)] at hpeek
    rw [hpeek, cellRead_pushes_ne ys hw0 fun i hi => ?_]
    · rfl
    · rw [dlClear_w, Nat.zero_add, Nat.mod_eq_of_lt (by omega)]
      omega
  · intro cap l hcap hw hlo hhi
    obtain ⟨k, hk, h1, h2, hle, hlt⟩ := ceil_delay_bounds hcap hlo hhi
    simp only [hk, Int.toNat_natCast]
    refine ⟨⟨h1, h2, hle, hlt⟩, dlPeek_eq hk (by omega), fun x y ys hm hlen => ?_⟩
    have hpeek := dlPeek_eq (cap := cap) (l := (x :: y :: ys).foldl (dlPush cap) l)
      (show ceil32 _ = (k : Int) by rw [pushes_d, hk]) (by omega)
    have hx := cellRead_pushes (i := 0) (zs := x :: y :: ys) (by simp) (by simp; omega) hw hm
    have hy := cellRead_pushes (i := 1) (zs := x :: y :: ys) (by simp) (by simp; omega) hw hm
    rw [Nat.add_zero, Nat.mod_eq_of_lt hw] at hx
    rw [pushes_w _ hw, pushes_d, List.length_cons, List.length_cons, hlen, cursor_add_sub hw (by omega), hx, hy] at hpeek
    exact hpeek

end Sys2Proof.Proofs
end

section
/-! PROOFS. What frame steps do not see (20_memory.md R69; 43_fdn_core.md R164, R165; 45_modulated_delay.md R209), and the assembler's lines
(30_encoding.md R96, R97). -/

namespace Sys2Proof.Machine

/-! ### Frame steps of related states -/

/-- The state after a frame step of PROC that took `x` and left `rest` (R253). -/
def afterProcFrame (ch : Channels) (n : Nat) (s : State) (x : Frame) (rest : List Word) : State :=
  retire (.proc ch) n
    { s with
      reverb := (pathFrame s x).1
      ports := { s.ports with inq := rest, outq := s.ports.outq ++ (pathFrame s x).2.words } }

/-- The state after a frame step of MPROC that took `x` and left `rest` (45_modulated_delay.md R207). -/
def afterMprocFrame (n : Nat) (s : State) (x : Word) (rest : List Word) : State :=
  retire .mproc n
    { s with
      modu := (modProcess s.audio.fs s.audio.cap s.modu x).1
      ports := { s.ports with inq := rest, outq := s.ports.outq ++ [(modProcess s.audio.fs s.audio.cap s.modu x).2] } }

theorem frameStep_of_proc {ch : Channels} {n : Nat} {s : State} (h : s.audio.inflight = some (.proc ch (n + 1))) :
    frameStep s = (takeFrame ch s.ports.inq).bind fun p =>
      if s.ports.outq.length + ch.count ≤ s.cfg.qDepth then some (afterProcFrame ch n s p.1 p.2) else none := by
  rw [frameStep, h]
  show procFrameStep ch (n + 1) s = _
  rw [procFrameStep]
  split
  · rename_i htake
    rw [htake]
    rfl
  · rename_i htake
    rw [htake]
    rfl

theorem frameStep_of_mproc {n : Nat} {s : State} (h : s.audio.inflight = some (.mproc (n + 1))) :
    frameStep s = s.ports.inq.head?.bind fun x =>
      if s.ports.outq.length + 1 ≤ s.cfg.qDepth then some (afterMprocFrame n s x s.ports.inq.tail) else none := by
  rw [frameStep, h]
  show mprocFrameStep (n + 1) s = _
  rw [mprocFrameStep]
  split
  · rename_i hq
    rw [hq]
    rfl
  · rename_i hq
    rw [hq]
    rfl

theorem frameStep_of_none {s : State} (h : ∀ f, s.audio.inflight = some f → f.remaining = 0) : frameStep s = none := by
  rw [frameStep]
  split
  · rfl
  · rename_i hf
    exact if_pos (h _ hf)
  · rename_i hf
    exact if_pos (h _ hf)

/-- States with the same command in flight and the same queues are enabled alike, and what relates their frames relates their steps. -/
theorem frameStep_map {s u : State} {g : State → State} (hin : u.audio.inflight = s.audio.inflight) (hports : u.ports = s.ports)
    (hcfg : u.cfg = s.cfg)
    (hproc : ∀ ch n x rest, s.audio.inflight = some (.proc ch (n + 1)) → afterProcFrame ch n u x rest = g (afterProcFrame ch n s x rest))
    (hmproc : ∀ n x rest, s.audio.inflight = some (.mproc (n + 1)) → afterMprocFrame n u x rest = g (afterMprocFrame n s x rest)) :
    frameStep u = (frameStep s).map g := by
  rcases hf : s.audio.inflight with _ | ⟨ch, _ | n⟩ | _ | n
  · rw [frameStep_of_none (by simp [hin, hf]), frameStep_of_none (by simp [hf])]
    rfl
  · rw [frameStep_of_none (by simp [hin, hf, InFlight.remaining]), frameStep_of_none (by simp [hf, InFlight.remaining])]
    rfl
  · rw [frameStep_of_proc hf, frameStep_of_proc (hin.trans hf), hports, hcfg]
    cases takeFrame ch s.ports.inq with
    | none => rfl
    | some p => simp only [Option.bind_some, apply_ite (Option.map g), Option.map_some, Option.map_none, hproc ch n p.1 p.2 hf]
  · rw [frameStep_of_none (by simp [hin, hf, InFlight.remaining]), frameStep_of_none (by simp [hf, InFlight.remaining])]
    rfl
  · rw [frameStep_of_mproc hf, frameStep_of_mproc (hin.trans hf), hports, hcfg]
    cases s.ports.inq.head? with
    | none => rfl
    | some x => simp only [Option.bind_some, apply_ite (Option.map g), Option.map_some, Option.map_none, hmproc n x _ hf]

/-- A change of state that every frame step commutes with commutes with any number of them. -/
theorem framesAfter_map {P : State → Prop} {g : State → State} (hstep : ∀ s, P s → frameStep (g s) = (frameStep s).map g)
    (hkeep : ∀ s t, P s → frameStep s = some t → P t) (n : Nat) {s : State} (h : P s) :
    framesAfter n (g s) = (framesAfter n s).map g := by
  induction n generalizing s with
  | zero => rfl
  | succ n ih =>
    simp only [framesAfter, hstep s h]
    cases hs : frameStep s with
    | none => rfl
    | some t => exact ih (hkeep s t h hs)

/-! ### What the path does with crossFeed: nothing (43_fdn_core.md R164) -/

/-- A path with other values in the smoother of crossFeed. -/
def Reverb.withCrossFeed (v : F32) (c : F64) (r : Reverb) : Reverb :=
  { r with st := { r.st with crossFeed := v }, cur := { r.cur with crossFeed := c } }

@[inherit_doc Reverb.withCrossFeed]
def State.withCrossFeed (v : F32) (c : F64) (s : State) : State := { s with reverb := s.reverb.withCrossFeed v c }

theorem pullCurrents_withCrossFeed (k : F64) (v : F32) (c : F64) (r : Reverb) :
    pullCurrents k (r.withCrossFeed v c) = (pullCurrents k r).withCrossFeed v (smStep k v c) := rfl

/-- No part of `FDN.APPLY` reads the smoother of crossFeed. -/
theorem fdnApply_withCrossFeed (cfg : Params) (fs : F64) (cap : Nat) (v : F32) (c : F64) (r : Reverb) :
    fdnApply cfg fs cap (pulledValues (r.withCrossFeed v c)) false (r.withCrossFeed v c) =
      (fdnApply cfg fs cap (pulledValues r) false r).withCrossFeed v c := by
  have hroom : applyRoomIf cfg fs cap (pulledValues r).roomSize false (r.withCrossFeed v c) =
      (applyRoomIf cfg fs cap (pulledValues r).roomSize false r).withCrossFeed v c := by
    rw [applyRoomIf, applyRoomIf, apply_ite (Reverb.withCrossFeed v c)]
    rfl
  have hdecay : ∀ q : Reverb, applyDecayIf fs (pulledValues r).decayTime false (q.withCrossFeed v c) =
      (applyDecayIf fs (pulledValues r).decayTime false q).withCrossFeed v c := by
    intro q
    rw [applyDecayIf, applyDecayIf, apply_ite (Reverb.withCrossFeed v c)]
    rfl
  show applyAlways cfg fs cap _ (applyDecayIf fs (pulledValues r).decayTime false
    (applyRoomIf cfg fs cap (pulledValues r).roomSize false (r.withCrossFeed v c))) = _
  rw [hroom, hdecay]
  rfl

theorem fdnFrame_withCrossFeed (cfg : Params) (fs : F64) (cap : Nat) (k : F64) (v : F32) (c : F64) (r : Reverb) (x : Frame) :
    fdnFrame cfg fs cap k (r.withCrossFeed v c) x =
      ((fdnFrame cfg fs cap k r x).1.withCrossFeed v (smStep k v c), (fdnFrame cfg fs cap k r x).2) := by
  rw [fdnFrame_eq, fdnFrame_eq, appliedPath, pullCurrents_withCrossFeed, fdnApply_withCrossFeed]
  rfl

/-- A bypassed frame pulls no smoother. -/
theorem pathFrame_withCrossFeed (v : F32) (c : F64) (s : State) (x : Frame) :
    pathFrame (s.withCrossFeed v c) x =
      ((pathFrame s x).1.withCrossFeed v (if s.reverb.bypL then c else smStep s.audio.k v c), (pathFrame s x).2) := by
  have hfdn := fdnFrame_withCrossFeed s.cfg s.audio.fs s.audio.cap s.audio.k v c s.reverb x
  cases hbyp : s.reverb.bypL with
  | true => rw [pathFrame_of_bypL hbyp, pathFrame_of_bypL (s := s.withCrossFeed v c) hbyp]; rfl
  | false =>
    rw [pathFrame_of_not_bypL hbyp, pathFrame_of_not_bypL (s := s.withCrossFeed v c) hbyp]
    exact hfdn

theorem frameStep_withCrossFeed (v : F32) (c : F64) (s : State) :
    ∃ c', frameStep (s.withCrossFeed v c) = (frameStep s).map (State.withCrossFeed v c') := by
  by_cases hm : ∃ n, s.audio.inflight = some (.mproc (n + 1))
  · obtain ⟨m, hm⟩ := hm
    exact ⟨c, frameStep_map rfl rfl rfl (fun _ _ _ _ h => by simp [hm] at h) fun _ _ _ _ => rfl⟩
  · refine ⟨if s.reverb.bypL then c else smStep s.audio.k v c, frameStep_map rfl rfl rfl (fun ch n x rest _ => ?_)
      fun n _ _ h => absurd ⟨n, h⟩ hm⟩
    rw [afterProcFrame, pathFrame_withCrossFeed]
    rfl

/-- The frames of states that differ in the smoother of crossFeed alone differ in nothing else. -/
theorem framesAfter_withCrossFeed (v : F32) (n : Nat) (c : F64) (s : State) :
    ∃ c', framesAfter n (s.withCrossFeed v c) = (framesAfter n s).map (State.withCrossFeed v c') := by
  induction n generalizing c s with
  | zero => exact ⟨c, rfl⟩
  | succ n ih =>
    obtain ⟨c₁, h₁⟩ := frameStep_withCrossFeed v c s
    simp only [framesAfter, h₁]
    cases frameStep s with
    | none => exact ⟨c, rfl⟩
    | some t => exact ih c₁ t

/-! ### Commands in flight (45_modulated_delay.md R209) -/

/-- The command in flight, if there is one, is a PROC. -/
def ProcInFlight (s : State) : Prop := ∀ n, s.audio.inflight ≠ some (.mproc n)
/-- The command in flight, if there is one, is an MPROC. -/
def MprocInFlight (s : State) : Prop := ∀ ch n, s.audio.inflight ≠ some (.proc ch n)

theorem ProcInFlight.keptByFrameStep (s t : State) (h : ProcInFlight s) (hf : frameStep s = some t) : ProcInFlight t := by
  rcases frameStep_cases hf with ⟨ch, n, x, rest, -, -, -, rfl⟩ | ⟨n, x, rest, hin, -⟩
  · intro k
    by_cases hn : n = 0 <;> simp [retire, hn]
  · exact absurd hin (h _)

theorem MprocInFlight.keptByFrameStep (s t : State) (h : MprocInFlight s) (hf : frameStep s = some t) : MprocInFlight t := by
  rcases frameStep_cases hf with ⟨ch, n, x, rest, hin, -⟩ | ⟨n, x, rest, -, -, -, rfl⟩
  · exact absurd hin (h _ _)
  · intro ch k
    by_cases hn : n = 0 <;> simp [retire, hn]

end Sys2Proof.Machine

namespace Sys2Proof.Proofs
open Sys2Proof Sys2Proof.Machine

/-- Settles O19: a frame step reads no CTRL register, and the latch copies them. -/
theorem framesIgnoreLaterControlWrites : Obligations.FramesIgnoreLaterControlWrites := by
  refine ⟨fun s c n => ?_, fun s sel n hcheck hn => ?_⟩
  · exact framesAfter_map (P := fun _ => True) (g := fun t => { t with ctrl := c })
      (fun _ _ => frameStep_map rfl rfl rfl (fun _ _ _ _ _ => rfl) fun _ _ _ _ => rfl) (fun _ _ _ _ => trivial) n trivial
  · have hwell : Instr.wellFormed (.proc sel n) = true := selectorError_eq_none.1 ((orElse_eq_none _ _).1 hcheck).1
    refine ⟨_, exec_of_ok hcheck, ?_⟩
    simp only [commandEffect, channelsOfSel_eq (of_decide_eq_true hwell), if_neg hn]
    exact ⟨rfl, rfl⟩

/-- Settles O51. -/
theorem crossFeedReachesNoOutput : Obligations.CrossFeedReachesNoOutput := by
  intro s n v c
  obtain ⟨c', h⟩ := framesAfter_withCrossFeed v n c s
  exact ⟨fun hnone => h.trans (by rw [hnone]; rfl), fun t hsome => ⟨c', h.trans (by rw [hsome]; rfl)⟩⟩

/-- Settles O52: a frame step of PROC reads no register of the modulated unit, and one of MPROC none of the path. -/
theorem modulatedUnitIsNotInThePath : Obligations.ModulatedUnitIsNotInThePath := by
  refine ⟨fun s u ch m k hin => ?_, fun s r m k hin => ?_⟩
  · refine framesAfter_map (P := ProcInFlight) (g := fun t => { t with modu := u }) (fun q hq => ?_)
      ProcInFlight.keptByFrameStep k (fun n => by simp [hin])
    exact frameStep_map rfl rfl rfl (fun _ _ _ _ _ => rfl) fun n _ _ h => absurd h (hq _)
  · refine framesAfter_map (P := MprocInFlight) (g := fun t => { t with reverb := r }) (fun q hq => ?_)
      MprocInFlight.keptByFrameStep k (fun ch n => by simp [hin])
    exact frameStep_map rfl rfl rfl (fun ch n _ _ h => absurd h (hq _ _)) fun _ _ _ _ => rfl

/-- Settles O60. -/
theorem pseudoInstructionsExpand : Obligations.PseudoInstructionsExpand := by
  refine ⟨?_, ?_, ?_, ?_, ?_, ?_, ?_, ?_, ?_, ?_, ?_⟩ <;> decide +kernel

end Sys2Proof.Proofs
end
